-- ==== Sys2Proof/Word.lean ====
section
/-! DEFINITION. The two word types of trickle_zip CORE: bytes of the streams and memories (00_scope.md R7) and the
32-bit words of the command register and of the register space (10_state.md R13, 30_encoding.md R47). -/

namespace Sys2Proof

/-- A byte, 0..255 (R7). -/
abbrev Byte := BitVec 8

/-- A 32-bit word: a register, a command word, a token word (R13, R47, R50). -/
abbrev Word := BitVec 32

end Sys2Proof
end

