-- ==== Sys2Proof/Config.lean ====
section
/-! DEFINITION. The fixed parameters of the hardware (00_scope.md R4). The spec leaves no value free ("Nothing in the
block is `unpredictable` or `undefined`", 93_implementation_defined.md part 1), so there is no opaque constant here. -/

namespace Sys2Proof.Config

/-- Shortest length emitted as a match (R4 `MIN_MATCH`). -/
def minMatch : Nat := 3

/-- Largest legal `max_lazy_match` (R4 `MAX_MATCH_CAP`). -/
def maxMatchCap : Nat := 258

/-- Window RAM capacity in bytes, largest legal `window_size` (R4 `WCAP`). -/
def wcap : Nat := 32768

/-- Tokens per non-final block, the hardware's value of the parameter `UNIT_TOKENS` (R4, U17; log entry 4). -/
def unitTokens : Nat := 2048

/-- The literal/length alphabet size (R4 `NLIT`). -/
def nlit : Nat := 286

/-- The distance alphabet size (R4 `NDIST`). -/
def ndist : Nat := 30

/-- Longest code length (R4 `MAXBITS`). -/
def maxBits : Nat := 15

/-- Bits of a custom-table header (R4 `CUSTOM_HDR_BITS`). -/
def customHdrBits : Nat := 1264

/-- Largest `width` of one BP_WRITE_BITS (R4 `WRITE_MAX`). -/
def writeMax : Nat := 32

end Sys2Proof.Config
end

