-- ==== Sys2Proof/Syntax.lean ====
section
/-! DEFINITION. The instructions: one constructor per row of spec/opcode_table.json (30_encoding.md R46). The host
commands carry the immediates of their words (R48). A unit operation's word, format U, "carries no operand field"
(R47): its operands travel on the internal buses and stand in the state (`unitArgs`). -/

namespace Sys2Proof

inductive Instr where
  /-- 0x00, format N (R98). -/
  | nop
  /-- 0x01, format N (R99). -/
  | reset
  /-- 0x02, format L, `LEVEL = bits[11:8]` (R100). -/
  | cfgLevel (level : BitVec 4)
  /-- 0x03, format S, `PSEL = bits[11:8]`, `VAL = bits[31:16]` (R101). -/
  | cfgSet (psel : BitVec 4) (val : BitVec 16)
  /-- 0x04, format K, `FIN = bits[8]` (R102). -/
  | chunk (fin : Bool)
  /-- 0x10, format U (R64). -/
  | winExtend
  /-- 0x11, format U (R65). -/
  | winSlice
  /-- 0x20, format U (R69). -/
  | mfSearch
  /-- 0x21, format U (R70). -/
  | mfStep
  /-- 0x22, format U (R72). -/
  | mfEncode
  /-- 0x30, format U (R80). -/
  | hcCount
  /-- 0x31, format U (R81). -/
  | hcBuild
  /-- 0x32, format U (R83). -/
  | hcAssign
  /-- 0x33, format U (R86). -/
  | hcSelect
  /-- 0x34, format U (R87). -/
  | hcEmitHdr
  /-- 0x35, format U (R88). -/
  | hcEmitToken
  /-- 0x36, format U (R89). -/
  | hcEmitEob
  /-- 0x37, format U (R90). -/
  | hcEncode
  /-- 0x40, format U (R93). -/
  | bpWriteBits
  /-- 0x41, format U (R94). -/
  | bpFlush
  /-- 0x42, format U (R95). -/
  | bpDrain
deriving DecidableEq, Repr

/-- The issuer of an operation (R46): unit 0 is issued by the host, units 1 to 4 by the sequencer alone. -/
def Instr.isUnitOp : Instr → Bool
  | .nop => false
  | .reset => false
  | .cfgLevel _ => false
  | .cfgSet _ _ => false
  | .chunk _ => false
  | .winExtend => true
  | .winSlice => true
  | .mfSearch => true
  | .mfStep => true
  | .mfEncode => true
  | .hcCount => true
  | .hcBuild => true
  | .hcAssign => true
  | .hcSelect => true
  | .hcEmitHdr => true
  | .hcEmitToken => true
  | .hcEmitEob => true
  | .hcEncode => true
  | .bpWriteBits => true
  | .bpFlush => true
  | .bpDrain => true

end Sys2Proof
end

