-- ==== Sys2Proof/Decode.lean ====
section
/-! DEFINITION. The decoder of 32-bit operation words, total, rejecting by name (30_encoding.md R46, R47, R49), the
issuer check of a word written to CMD, and the encoder written from the same tables. -/

namespace Sys2Proof

/-- Why a word is no instruction (R49). -/
inductive DecodeError where
  /-- The opcode is none of R46's table. -/
  | reservedOpcode (opcode : BitVec 8)
  /-- A bit the opcode's format marks `0` is 1. -/
  | mustBeZero (opcode : BitVec 8)
  /-- The word is a unit operation's, and stands in CMD. -/
  | notAHostCommand (opcode : BitVec 8)
deriving DecidableEq, Repr

/-- `OPC = bits[7:0]` (R46). -/
def opcodeField (w : Word) : BitVec 8 := w.extractLsb' 0 8

/-- `LEVEL = bits[11:8]` and `PSEL = bits[11:8]` (R48). -/
def selField (w : Word) : BitVec 4 := w.extractLsb' 8 4

/-- `VAL = bits[31:16]` (R48). -/
def valField (w : Word) : BitVec 16 := w.extractLsb' 16 16

/-- `FIN = bits[8]` (R48). -/
def finField (w : Word) : Bool := w.getLsbD 8

/-- Formats N and U: bits 31:8 are 0 (R47). -/
def plainFormat (w : Word) (i : Instr) : Except DecodeError Instr :=
  if w.extractLsb' 8 24 = 0 then .ok i else .error (.mustBeZero (opcodeField w))

/-- Format K: bits 31:9 are 0 (R47). -/
def formatK (w : Word) : Except DecodeError Instr :=
  if w.extractLsb' 9 23 = 0 then .ok (.chunk (finField w)) else .error (.mustBeZero (opcodeField w))

/-- Format L: bits 31:12 are 0 (R47). -/
def formatL (w : Word) : Except DecodeError Instr :=
  if w.extractLsb' 12 20 = 0 then .ok (.cfgLevel (selField w)) else .error (.mustBeZero (opcodeField w))

/-- Format S: bits 15:12 are 0 (R47). -/
def formatS (w : Word) : Except DecodeError Instr :=
  if w.extractLsb' 12 4 = 0 then .ok (.cfgSet (selField w) (valField w)) else .error (.mustBeZero (opcodeField w))

/-- The instruction of a word, by R46's opcode table: the opcode first, then the must-be-zero bits (R49, R114). -/
def decode (w : Word) : Except DecodeError Instr :=
  match (opcodeField w).toNat with
  | 0x00 => plainFormat w .nop
  | 0x01 => plainFormat w .reset
  | 0x02 => formatL w
  | 0x03 => formatS w
  | 0x04 => formatK w
  | 0x10 => plainFormat w .winExtend
  | 0x11 => plainFormat w .winSlice
  | 0x20 => plainFormat w .mfSearch
  | 0x21 => plainFormat w .mfStep
  | 0x22 => plainFormat w .mfEncode
  | 0x30 => plainFormat w .hcCount
  | 0x31 => plainFormat w .hcBuild
  | 0x32 => plainFormat w .hcAssign
  | 0x33 => plainFormat w .hcSelect
  | 0x34 => plainFormat w .hcEmitHdr
  | 0x35 => plainFormat w .hcEmitToken
  | 0x36 => plainFormat w .hcEmitEob
  | 0x37 => plainFormat w .hcEncode
  | 0x40 => plainFormat w .bpWriteBits
  | 0x41 => plainFormat w .bpFlush
  | 0x42 => plainFormat w .bpDrain
  | _ => .error (.reservedOpcode (opcodeField w))

/-- The command of a word written to CMD: R46's unit operations are not the host's, so their words are illegal there
(R49 (b)). Every error of this function is ERR_ILLEGAL_CMD. -/
def hostDecode (w : Word) : Except DecodeError Instr :=
  match decode w with
  | .ok i => if i.isUnitOp then .error (.notAHostCommand (opcodeField w)) else .ok i
  | .error e => .error e

/-- The operation of a word on the unit-operation bus: none unless it is a unit operation's (R46, R47). -/
def unitDecode (w : Word) : Option Instr :=
  match decode w with
  | .ok i => if i.isUnitOp then some i else none
  | .error _ => none

/-- A word of format N or U (R47). -/
def plainWord (opcode : BitVec 8) : Word := (0#24 ++ opcode : BitVec 32)

/-- The word of an instruction, field by field as R47's format tables list them. -/
def encode : Instr → Word
  | .nop => plainWord 0x00
  | .reset => plainWord 0x01
  | .cfgLevel level => (0#20 ++ level ++ 0x02#8 : BitVec 32)
  | .cfgSet psel val => (val ++ 0#4 ++ psel ++ 0x03#8 : BitVec 32)
  | .chunk fin => (0#23 ++ BitVec.ofBool fin ++ 0x04#8 : BitVec 32)
  | .winExtend => plainWord 0x10
  | .winSlice => plainWord 0x11
  | .mfSearch => plainWord 0x20
  | .mfStep => plainWord 0x21
  | .mfEncode => plainWord 0x22
  | .hcCount => plainWord 0x30
  | .hcBuild => plainWord 0x31
  | .hcAssign => plainWord 0x32
  | .hcSelect => plainWord 0x33
  | .hcEmitHdr => plainWord 0x34
  | .hcEmitToken => plainWord 0x35
  | .hcEmitEob => plainWord 0x36
  | .hcEncode => plainWord 0x37
  | .bpWriteBits => plainWord 0x40
  | .bpFlush => plainWord 0x41
  | .bpDrain => plainWord 0x42

/-- The word whose low `nbits` bits are `w` and whose other bits are 0, as spec/opcode_table.json numbers bits. -/
def tableWord (nbits w : Nat) : Word := BitVec.ofNat 32 (w % 2 ^ nbits)

/-- The decoder on an instruction of `nbits` bits: one 32-bit word, so wider ones do not exist (R47: "there is one
length"). -/
def decodeTableWord (nbits w : Nat) : Option Instr :=
  if nbits ≤ 32 then (decode (tableWord nbits w)).toOption else none

end Sys2Proof
end

