-- ==== Sys2Proof/Machine/Types.lean ====
section
/-! DEFINITION. The data types of the machine's state: configuration, tokens, code table entries, the bit packer,
the session, status codes, the host's bus events and the unit-operation bus. -/

namespace Sys2Proof.Machine

/-- The configuration registers (10_state.md R18). -/
structure Cfg where
  /-- `CFG.level`, the last preset loaded, informational. -/
  level : BitVec 4
  /-- `CFG.window_size`, legal 0..32768. -/
  windowSize : BitVec 16
  /-- `CFG.max_lazy_match`, legal 3..258. -/
  maxLazyMatch : BitVec 9
  /-- `CFG.max_chain_length`, legal 0..65535. -/
  maxChainLength : BitVec 16
  /-- `CFG.tbl_mode`: 0 FIXED, 1 AUTO, 2 CUSTOM. -/
  tblMode : BitVec 2
deriving DecidableEq, Repr

/-- A token (30_encoding.md R50): `Literal(b)`, or `Match(length, distance)` held as `length - 3` in 8 bits and
`distance - 1` in 15 bits, so that exactly the lengths 3..258 and the distances 1..32768 exist (log entry 5). -/
inductive Token where
  | lit (b : Byte)
  | backref (lengthM3 : BitVec 8) (distanceM1 : BitVec 15)
deriving DecidableEq, Repr

/-- An entry of a code table: `(code, len)`, `len = 0` for a symbol with no code (10_state.md R25). -/
structure CodeEntry where
  code : BitVec 15
  len : BitVec 4
deriving DecidableEq, Repr

/-- The bit packer's state (10_state.md R26): pending bits, their count, completed bytes oldest first. -/
structure BitPacker where
  acc : Nat
  nbits : Nat
  outq : List Byte
deriving DecidableEq, Repr

/-- The status codes (60_exceptions.md R111), in the order of their numbers 0..7. -/
inductive StatusCode where
  /-- 0: every successful command. -/
  | ok
  /-- 1: never raised by the block (R120). -/
  | insufficientInput
  /-- 2: CHUNK, for want of output capacity (R112). -/
  | outputCapacity
  /-- 3: never raised by the block (decoder only). -/
  | invalidData
  /-- 4: never raised by the block (Facade internal). -/
  | notComplete
  /-- 5: never raised by the block (Facade only). -/
  | timeBudget
  /-- 6: an illegal command word (R112). -/
  | illegalCmd
  /-- 7: a configuration value out of range (R112). -/
  | config
deriving DecidableEq, Repr

/-- What reaches the block from outside, one event at a time (10_state.md R10, R13; 20_memory.md R35): a register
read or write of `width` bytes at a byte offset from BASE, or the reset input (10_state.md R30). -/
inductive HostEvent where
  | read (width offset : Nat)
  | write (width offset : Nat) (data : Word)
  | hardReset
deriving DecidableEq, Repr

/-- The operands a running CHUNK read at its CMD write (10_state.md R14). -/
structure RunningChunk where
  fin : Bool
  inLen : Word
  outCap : Word
deriving DecidableEq, Repr

/-- The operands on the internal buses of the unit operations (30_encoding.md R47), one per argument the rules name. -/
structure UnitArgs where
  /-- WIN_EXTEND's `bytes` (R64). -/
  bytes : List Byte
  /-- MF_SEARCH's and MF_STEP's search buffer `B` (R69). -/
  buf : List Byte
  /-- their cursor `p`. -/
  cursor : Nat
  /-- their end `e`. -/
  limit : Nat
  /-- MF_ENCODE's `input` (R72). -/
  input : List Byte
  /-- MF_ENCODE's `finish`. -/
  finish : Bool
  /-- HC_COUNT's and HC_EMIT_TOKEN's `tok` (R80, R88). -/
  tok : Token
  /-- HC_BUILD's `freq` (R81). -/
  freq : List Nat
  /-- HC_ASSIGN's `lens`, each in 0..15 (R83). -/
  lens : List (BitVec 4)
  /-- HC_EMIT_HDR's and HC_ENCODE's `final` (R87, R90). -/
  final : Bool
  /-- HC_EMIT_HDR's `btype` (R87). -/
  btype : BitVec 2
  /-- BP_WRITE_BITS' `value`, up to 32 bits (R93). -/
  value : Word
  /-- BP_WRITE_BITS' `width`. -/
  width : Nat
  /-- BP_DRAIN's `cap`, that is OUT_CAP (R95). -/
  cap : Word
deriving DecidableEq, Repr

/-- What a unit operation returns, by its rule's "Result". -/
inductive UnitResult where
  /-- "Result: none". -/
  | none
  /-- WIN_SLICE (R65). -/
  | slice (bytes : List Byte)
  /-- MF_SEARCH: NONE or `(length, distance)` (R69). -/
  | found (m : Option (Nat × Nat))
  /-- MF_STEP: one token and the bytes it covers (R70). -/
  | stepped (tok : Token) (advance : Nat)
  /-- MF_ENCODE: the token sequence (R72). -/
  | tokens (ts : List Token)
  /-- HC_BUILD: the code lengths (R81). -/
  | lens (ls : List Nat)
  /-- HC_ASSIGN: the codes, 0 for an unused symbol (R83). -/
  | codes (cs : List Nat)
  /-- HC_SELECT: the block's BTYPE (R86). -/
  | btype (b : BitVec 2)
  /-- BP_DRAIN: `ok(bytes)` (R95). -/
  | drained (bytes : List Byte)
  /-- BP_DRAIN: `fail(code)` (R95). -/
  | failed (code : StatusCode)
deriving DecidableEq, Repr

/-- The session state (10_state.md R12, group session; R19, R21 to R26, and the two counters of R17). -/
structure Session where
  /-- `FINISHED` (R19). -/
  finished : Bool
  /-- `WIN`, oldest first (R21). -/
  win : List Byte
  /-- `PEND`, oldest first (R22). -/
  pend : List Byte
  /-- `TOKBUF`, in emission order (R23). -/
  tokbuf : List Token
  /-- `FREQ_L[0..285]` (R24). -/
  freqL : Vector (BitVec 12) 286
  /-- `FREQ_D[0..29]` (R24). -/
  freqD : Vector (BitVec 12) 30
  /-- `CODE_L[0..285]` (R25). -/
  codeL : Vector CodeEntry 286
  /-- `CODE_D[0..29]` (R25). -/
  codeD : Vector CodeEntry 30
  /-- `ACC`, `NBITS`, `OUTQ` (R26). -/
  bp : BitPacker
  /-- `BYTES_PROCESSED` (R17). -/
  bytesProcessed : BitVec 64
  /-- `BYTES_OUTPUT` (R17). -/
  bytesOutput : BitVec 64
deriving DecidableEq, Repr

end Sys2Proof.Machine
end

