-- ==== Sys2Proof/Machine/Tables.lean ====
section
/-! DEFINITION. The constant tables (10_state.md R11): the length and distance classes, the fixed default table, the
level presets, the reset values of the configuration and of a session; the bit reversal of R6; the token word. -/

namespace Sys2Proof.Machine

/-- `LEN_BASE` (30_encoding.md R52). -/
def lenBase : List Nat :=
  [3, 4, 5, 6, 7, 8, 9, 10, 11, 13, 15, 17, 19, 23, 27, 31, 35, 43, 51, 59, 67, 83, 99, 115, 131, 163, 195, 227, 258]

/-- `LEN_EXTRA` (R52). -/
def lenExtra : List Nat :=
  [0, 0, 0, 0, 0, 0, 0, 0, 1, 1, 1, 1, 2, 2, 2, 2, 3, 3, 3, 3, 4, 4, 4, 4, 5, 5, 5, 5, 0]

/-- `DIST_BASE` (R53). -/
def distBase : List Nat :=
  [1, 2, 3, 4, 5, 7, 9, 13, 17, 25, 33, 49, 65, 97, 129, 193, 257, 385, 513, 769, 1025, 1537, 2049, 3073, 4097, 6145,
   8193, 12289, 16385, 24577]

/-- `DIST_EXTRA` (R53). -/
def distExtra : List Nat :=
  [0, 0, 0, 0, 1, 1, 2, 2, 3, 3, 4, 4, 5, 5, 6, 6, 7, 7, 8, 8, 9, 9, 10, 10, 11, 11, 12, 12, 13, 13]

/-- The greatest index whose base is at most `x` (R52, R53): the bases ascend, so it is their count less one. -/
def classIndex (bases : List Nat) (x : Nat) : Nat := bases.countP (· ≤ x) - 1

/-- The length class of a length 3..258 (R52). -/
def lengthClass (length : Nat) : Nat := classIndex lenBase length

/-- The distance class of a distance 1..32768 (R53). -/
def distanceClass (distance : Nat) : Nat := classIndex distBase distance

/-- `FIXLEN_L[s]`: the fixed default length of literal/length symbol `s` (R54). -/
def fixLenL (s : Nat) : Nat :=
  if s ≤ 143 then 8 else if s ≤ 255 then 9 else if s ≤ 279 then 7 else 8

/-- The fixed default code of literal/length symbol `s` (R54). -/
def fixCodeL (s : Nat) : Nat :=
  if s ≤ 143 then 0x30 + s else if s ≤ 255 then 0x190 + (s - 144) else if s ≤ 279 then s - 256 else 0xC0 + (s - 280)

/-- The fixed default length of every distance symbol (R54). -/
def fixLenD : Nat := 5

/-- A table of `n` entries given by a function of the index. -/
def tabulate {α : Type} (n : Nat) (f : Nat → α) : Vector α n := ⟨((List.range n).map f).toArray, by simp⟩

/-- The literal/length half of the fixed default table, symbols 0..285 (R54). -/
def fixedCodeL : Vector CodeEntry 286 := tabulate 286 fun s => ⟨BitVec.ofNat 15 (fixCodeL s), BitVec.ofNat 4 (fixLenL s)⟩

/-- The distance half of the fixed default table, symbols 0..29 (R54). -/
def fixedCodeD : Vector CodeEntry 30 := tabulate 30 fun s => ⟨BitVec.ofNat 15 s, BitVec.ofNat 4 fixLenD⟩

/-- The level presets (44_pipeline.md R100), none for LEVEL 10..15. -/
def preset (level : BitVec 4) : Option Cfg :=
  match level.toNat with
  | 0 => some ⟨level, 0, 258, 0, 0⟩
  | 1 => some ⟨level, 4096, 32, 4, 0⟩
  | 2 => some ⟨level, 8192, 64, 8, 1⟩
  | 3 => some ⟨level, 8192, 128, 16, 1⟩
  | 4 => some ⟨level, 16384, 258, 32, 1⟩
  | 5 => some ⟨level, 32768, 258, 64, 1⟩
  | 6 => some ⟨level, 32768, 258, 256, 1⟩
  | 7 => some ⟨level, 32768, 258, 512, 1⟩
  | 8 => some ⟨level, 32768, 258, 1024, 1⟩
  | 9 => some ⟨level, 32768, 258, 4096, 1⟩
  | _ => none

/-- `rev_n(v)` (00_scope.md R6): bit `i` of the result is bit `n - 1 - i` of `v`. -/
def revBits : Nat → Nat → Nat
  | 0, _ => 0
  | n + 1, v => (v % 2) * 2 ^ n + revBits n (v / 2)

/-- The 3-bit number of a status code (60_exceptions.md R111). -/
def statusBits : StatusCode → BitVec 3
  | .ok => 0
  | .insufficientInput => 1
  | .outputCapacity => 2
  | .invalidData => 3
  | .notComplete => 4
  | .timeBudget => 5
  | .illegalCmd => 6
  | .config => 7

/-- `length` of a match token's field (30_encoding.md R50). -/
def lengthOf (lengthM3 : BitVec 8) : Nat := lengthM3.toNat + 3

/-- `distance` of a match token's field (R50). -/
def distanceOf (distanceM1 : BitVec 15) : Nat := distanceM1.toNat + 1

/-- `Match(length, distance)` as a token, for `3 ≤ length ≤ 258` and `1 ≤ distance ≤ 32768` (R50). -/
def matchToken (length distance : Nat) : Token := .backref (BitVec.ofNat 8 (length - 3)) (BitVec.ofNat 15 (distance - 1))

/-- The 32-bit token word (R50). -/
def tokenWord : Token → Word
  | .lit b => (0#24 ++ b : BitVec 32)
  | .backref l3 d1 => (1#1 ++ d1 ++ 0#7 ++ BitVec.ofNat 9 (lengthOf l3) : BitVec 32)

/-- The token of a token word; none for a word of any other shape (R50). -/
def wordToken (w : Word) : Option Token :=
  let length := (w.extractLsb' 0 9).toNat
  if w.getLsbD 31 then
    if w.extractLsb' 9 7 = 0 ∧ 3 ≤ length ∧ length ≤ 258 then
      some (.backref (BitVec.ofNat 8 (length - 3)) (w.extractLsb' 16 15))
    else none
  else if w.extractLsb' 8 23 = 0 then some (.lit (w.extractLsb' 0 8)) else none

/-- A fresh session (10_state.md R31). -/
def Session.fresh : Session where
  finished := false
  win := []
  pend := []
  tokbuf := []
  freqL := Vector.replicate 286 0
  freqD := Vector.replicate 30 0
  codeL := fixedCodeL
  codeD := fixedCodeD
  bp := ⟨0, 0, []⟩
  bytesProcessed := 0
  bytesOutput := 0

/-- The level-6 configuration that hard reset loads (10_state.md R30). -/
def Cfg.powerOn : Cfg := ⟨6, 32768, 258, 256, 1⟩

/-- Internal buses carrying nothing (log entry 3). -/
def UnitArgs.idle : UnitArgs := ⟨[], [], 0, 0, [], false, .lit 0, [], [], false, 0, 0, 0, 0⟩

end Sys2Proof.Machine
end

