-- ==== Sys2Proof/Machine/State.lean ====
section
/-! DEFINITION. The complete state of one block (10_state.md R12) as plain data, the reasons a step can stop, and the
state after hard reset (R30). -/

namespace Sys2Proof.Machine

/-- Why the machine stops with a fault. -/
inductive Fault where
  /-- A byte of a sequence outside its valid length is read: MF_SEARCH or MF_STEP issued with a cursor or an end
  outside its buffer (10_state.md R33: "must treat a read outside the valid length as a fault, never as a value").
  Safe: the spec's sequencer never issues it (41_match_finder.md R74). -/
  | readOutside
deriving DecidableEq, Repr

/-- Why a step has no meaning. -/
inductive Refusal where
  /-- Raised by an arm of `exec` for an instruction without a meaning; none is left. Safe. -/
  | notModelled (mnemonic : String)
  /-- Raised by BP_WRITE_BITS with `width > 32` (93_implementation_defined.md U1: `refuse`). Safe. -/
  | widthAbove32
  /-- Raised by a register access that is not an aligned 32-bit one (20_memory.md R35, U5: `refuse`). Safe. -/
  | notAlignedWordAccess
  /-- Raised by an access at an offset above 0xFF, which the block does not decode (20_memory.md R36). Safe. -/
  | outsideTheBlock
  /-- Raised by a word on the unit-operation bus that is no unit operation's: "only the sequencer issues them"
  (30_encoding.md R46), and it never issues such a word. Safe. -/
  | notAUnitOperation
deriving DecidableEq, Repr

/-- The state of the block, of its two data ports and of its buses. -/
structure State where
  /-- The configuration registers (R18). -/
  cfg : Cfg
  /-- The session (R12). -/
  ses : Session
  /-- `IN_LEN` (R16). -/
  inLen : Word
  /-- `OUT_CAP` (R16). -/
  outCap : Word
  /-- `CONSUMED` (R17). -/
  consumed : Word
  /-- `WRITTEN` (R17). -/
  written : Word
  /-- `STATUS.CODE` (R15). -/
  code : StatusCode
  /-- `STATUS.BUSY` (R15): 1 exactly when some command is running, with the operands it read at its CMD write (R14). -/
  running : Option RunningChunk
  /-- The input port (20_memory.md R42), oldest byte first. -/
  inPort : List Byte
  /-- The output port (20_memory.md R43), oldest byte first. -/
  outPort : List Byte
  /-- The model's own: the bus events not yet taken, oldest first (log entry 1). -/
  host : List HostEvent
  /-- The model's own: what the last register read returned (log entry 2). -/
  readData : Word
  /-- The model's own: the word on the unit-operation bus (30_encoding.md R46; log entry 3). -/
  unitWord : Option Word
  /-- The model's own: the operands on the internal buses (30_encoding.md R47; log entry 3). -/
  unitArgs : UnitArgs
  /-- The model's own: the result of the last unit operation (log entry 3). -/
  unitResult : UnitResult
deriving DecidableEq, Repr

/-- The block right after hard reset (R30), with no bus event pending. -/
def State.reset : State where
  cfg := Cfg.powerOn
  ses := Session.fresh
  inLen := 0
  outCap := 0
  consumed := 0
  written := 0
  code := .ok
  running := none
  inPort := []
  outPort := []
  host := []
  readData := 0
  unitWord := none
  unitArgs := UnitArgs.idle
  unitResult := .none

end Sys2Proof.Machine
end

