-- ==== Sys2Proof/Machine/Operands.lean ====
section
/-! DEFINITION. The operand checks: the configuration a CFG_SET asks for (44_pipeline.md R101), the input a CHUNK
reads (20_memory.md R42), and when the operands on the internal buses are such that a unit operation has a meaning. -/

namespace Sys2Proof.Machine

/-- `CFG.window_size` as the match finder's `ws` (41_match_finder.md section 1). -/
def Cfg.ws (cfg : Cfg) : Nat := cfg.windowSize.toNat

/-- `CFG.max_lazy_match` as `mm`. -/
def Cfg.mm (cfg : Cfg) : Nat := cfg.maxLazyMatch.toNat

/-- `CFG.max_chain_length` as `mc`. -/
def Cfg.mc (cfg : Cfg) : Nat := cfg.maxChainLength.toNat

/-- The configuration after `CFG_SET psel, val` (R101); none where the command is refused with ERR_CONFIG. -/
def cfgSetTarget (cfg : Cfg) (psel : BitVec 4) (val : BitVec 16) : Option Cfg :=
  match psel.toNat with
  | 0 => if val.toNat > 32768 then none else some { cfg with windowSize := val }
  | 1 =>
    if val.toNat < 3 ∨ val.toNat > 258 then none else some { cfg with maxLazyMatch := BitVec.ofNat 9 val.toNat }
  | 2 => some { cfg with maxChainLength := val }
  | 3 => if val.toNat > 2 then none else some { cfg with tblMode := BitVec.ofNat 2 val.toNat }
  | _ => none

/-- All bytes of a CHUNK's input are in the input port (R42; U6: until they are, the command waits). -/
def inputReady (inLen : Word) (s : State) : Bool := inLen.toNat ≤ s.inPort.length

/-- A CHUNK's input: the first IN_LEN bytes supplied (R42, U7). -/
def chunkInput (inLen : Word) (s : State) : List Byte := s.inPort.take inLen.toNat

/-- MF_SEARCH returns NONE "without any read" (41_match_finder.md R69, first line and corners). -/
def searchNeedsNoRead (cfg : Cfg) (p e : Nat) : Bool := e - p < 3 || cfg.ws == 0 || cfg.mc == 0

/-- MF_SEARCH's reads lie inside its buffer (R74), or it makes none. -/
def searchInside (cfg : Cfg) (a : UnitArgs) : Bool :=
  searchNeedsNoRead cfg a.cursor a.limit || a.limit ≤ a.buf.length

/-- MF_STEP's reads lie inside its buffer: its literal `B[p]` and its searches (R70, R74). -/
def stepInside (cfg : Cfg) (a : UnitArgs) : Bool := a.cursor < a.buf.length && searchInside cfg a

/-- The operands on the internal buses when a word is put on the unit-operation bus (log entry 3, DESIGN CHOICE): the ones
there if the operation itself has a meaning for them, and else, for the three operations that have one for some operands
alone (R69, R70, R93), a buffer of one byte with the cursor on it, or a width cut to 32. -/
def UnitArgs.inContract (i : Instr) (cfg : Cfg) (a : UnitArgs) : UnitArgs :=
  match i with
  | .mfSearch => if searchInside cfg a then a else { a with buf := [0], cursor := 0, limit := 1 }
  | .mfStep => if stepInside cfg a then a else { a with buf := [0], cursor := 0, limit := 1 }
  | .bpWriteBits => { a with width := min a.width 32 }
  | .nop => a
  | .reset => a
  | .cfgLevel _ => a
  | .cfgSet _ _ => a
  | .chunk _ => a
  | .winExtend => a
  | .winSlice => a
  | .mfEncode => a
  | .hcCount => a
  | .hcBuild => a
  | .hcAssign => a
  | .hcSelect => a
  | .hcEmitHdr => a
  | .hcEmitToken => a
  | .hcEmitEob => a
  | .hcEncode => a
  | .bpFlush => a
  | .bpDrain => a

end Sys2Proof.Machine
end

