-- ==== Sys2Proof/Machine/Flags.lean ====
section
/-! DEFINITION. The block's one flag, FINISHED (10_state.md R19), BUSY, and the STATUS word they are read in (R15). -/

namespace Sys2Proof.Machine

/-- `STATUS.BUSY` (R15): a command has been accepted and its outcome is not recorded yet. -/
def State.busy (s : State) : Bool := s.running.isSome

/-- `STATUS.FINISHED`, the session's flag (R15, R19). -/
def State.finished (s : State) : Bool := s.ses.finished

/-- FINISHED after a successful CHUNK (44_pipeline.md R102 step 8): set by FIN, never cleared. -/
def finishedAfter (finished fin : Bool) : Bool := finished || fin

/-- The STATUS word (R15): BUSY in bit 0, FINISHED in bit 1, CODE in bits 6:4, every other bit zero. -/
def statusWord (s : State) : Word :=
  (0#25 ++ statusBits s.code ++ 0#2 ++ BitVec.ofBool s.finished ++ BitVec.ofBool s.busy : BitVec 32)

end Sys2Proof.Machine
end

