-- ==== Sys2Proof/Machine/Ops.lean ====
section
/-! DEFINITION. The shared operations on the state: the reset, the start and the two ends of a host command
(44_pipeline.md R97), of which the failing end is the block's only "exception entry" (60_exceptions.md R115; there is
no return operation, R116), and the updates the unit operations share. -/

namespace Sys2Proof.Machine

/-- Hard reset (10_state.md R30), the pending bus events aside. -/
def hardReset (s : State) : State := { State.reset with host := s.host }

/-- Session reset (10_state.md R31): CFG, IN_LEN and OUT_CAP keep their values. -/
def sessionReset (s : State) : State := { s with ses := Session.fresh }

/-- A new configuration and, with it, a fresh session (R100, R101). -/
def reconfigure (cfg : Cfg) (s : State) : State := sessionReset { s with cfg := cfg }

/-- The start of a command (R97): "the output port is emptied". BUSY is set with it; a command that does not wait for
input clears it in the same step. -/
def beginCommand (s : State) : State := { s with outPort := [] }

/-- A CHUNK that has started and waits for its input: BUSY = 1, with the operands as they stood at the CMD write
(10_state.md R14). -/
def waitForInput (fin : Bool) (s : State) : State := { s with running := some ⟨fin, s.inLen, s.outCap⟩ }

/-- The successful end of a command (R97): code 0, the result, the output bytes readable at OUT_DATA, the input port
emptied, BUSY cleared. -/
def finishOk (consumed written : Nat) (bytes : List Byte) (s : State) : State :=
  { s with
    code := .ok
    consumed := BitVec.ofNat 32 consumed
    written := BitVec.ofNat 32 written
    outPort := bytes
    inPort := []
    running := none }

/-- The failing end of a command (R97, R115): the code, zero results, both ports empty, BUSY cleared, and nothing
else changed. -/
def finishFail (code : StatusCode) (s : State) : State :=
  { s with
    code := code
    consumed := 0
    written := 0
    outPort := []
    inPort := []
    running := none }

/-- A unit operation's effect on the session and its result on the result bus. -/
def unitDone (ses : Session) (result : UnitResult) (s : State) : State := { s with ses := ses, unitResult := result }

end Sys2Proof.Machine
end

