-- ==== Sys2Proof/Machine/Bus.lean ====
section
/-! DEFINITION. The register space as the host reaches it (10_state.md R13 to R18; 20_memory.md R35, R36, R41 to R43),
and what the step needs of the two places an operation's word comes from: CMD and the unit-operation bus. -/

namespace Sys2Proof.Machine

/-- What a read of the 32-bit register at a byte offset returns (R13): WO registers and reserved offsets read zero, a
field reads in its bits and the other bits read zero, OUT_DATA reads the oldest output byte or zero (R43). -/
def readReg (offset : Nat) (s : State) : Word :=
  match offset with
  | 0x04 => statusWord s
  | 0x08 => s.inLen
  | 0x0C => s.outCap
  | 0x10 => s.consumed
  | 0x14 => s.written
  | 0x18 => s.ses.bytesProcessed.extractLsb' 0 32
  | 0x1C => s.ses.bytesProcessed.extractLsb' 32 32
  | 0x20 => s.ses.bytesOutput.extractLsb' 0 32
  | 0x24 => s.ses.bytesOutput.extractLsb' 32 32
  | 0x28 => s.cfg.level.setWidth 32
  | 0x2C => s.cfg.windowSize.setWidth 32
  | 0x30 => s.cfg.maxLazyMatch.setWidth 32
  | 0x34 => s.cfg.maxChainLength.setWidth 32
  | 0x38 => s.cfg.tblMode.setWidth 32
  | 0x44 => (s.outPort.headD 0).setWidth 32
  | _ => 0

/-- The one side effect of a read (R41): a read of OUT_DATA removes the byte it returns, if there is one (R43). -/
def afterRead (offset : Nat) (s : State) : State :=
  match offset with
  | 0x44 => { s with outPort := s.outPort.tail }
  | _ => s

/-- A write of a register other than CMD (R13, R41): IN_LEN and OUT_CAP take the word, IN_DATA adds the byte in the
word's low bits to the input port (R42; log entry 7), every other register ignores writes. -/
def writeReg (offset : Nat) (data : Word) (s : State) : State :=
  match offset with
  | 0x08 => { s with inLen := data }
  | 0x0C => { s with outCap := data }
  | 0x40 => { s with inPort := s.inPort ++ [data.extractLsb' 0 8] }
  | _ => s

/-- Why an access is refused: it is not an aligned 32-bit one (R35), or it is outside the block's 256 bytes (R36). -/
def accessRefusal (width offset : Nat) : Option Refusal :=
  if width ≠ 4 ∨ offset % 4 ≠ 0 then some .notAlignedWordAccess
  else if 256 ≤ offset then some .outsideTheBlock
  else none

/-- A register read by the host: the value appears on the bus, then the side effect. -/
def busRead (width offset : Nat) (s : State) : Host.Outcome State Fault Refusal :=
  match accessRefusal width offset with
  | some r => .refused r
  | none => .next (afterRead offset { s with readData := readReg offset s })

/-- A register write by the host, CMD aside. -/
def busWrite (width offset : Nat) (data : Word) (s : State) : Host.Outcome State Fault Refusal :=
  match accessRefusal width offset with
  | some r => .refused r
  | none => .next (writeReg offset data s)

/-- An access is a write of CMD (R13, R14). -/
def isCommandWrite (width offset : Nat) : Bool := width == 4 && offset == 0

/-- A CMD write while BUSY = 1 stalls (R14, U8): nothing moves until the command ends, or until the reset input, which
may come next and abandons both (R123; log entry 8). `rest` is what the host does after the stalled write. -/
def stalledWrite (rest : List HostEvent) (s : State) : State :=
  match rest with
  | .hardReset :: later => hardReset { s with host := later }
  | _ => s

/-- The running command whose input has arrived, if there is one: it is the sequencer's turn. -/
def readyChunk (s : State) : Option RunningChunk :=
  match s.running with
  | none => none
  | some r => if inputReady r.inLen s then some r else none

/-- Puts the word `w` of the unit operation `i` on the unit-operation bus, with operands `i` has a meaning for on the
internal buses (log entry 3). -/
def issueUnit (i : Instr) (w : Word) (s : State) : State :=
  { s with unitWord := some w, unitArgs := s.unitArgs.inContract i s.cfg }

/-- Lets the host's next event be the write of a word to CMD, with the block ready to take it (R14). -/
def issueCommand (w : Word) (s : State) : State :=
  { s with
    unitWord := none
    running := none
    host := .write 4 0 w :: s.host }

end Sys2Proof.Machine
end

