-- ==== Sys2Proof/Machine/BitPacker.lean ====
section
/-! DEFINITION. Unit BP, the bit packer and flusher (43_bit_packer.md): BP_WRITE_BITS, BP_FLUSH, BP_DRAIN. -/

namespace Sys2Proof.Machine

/-- `k` rounds of BP_WRITE_BITS' loop (R93): the low byte of ACC goes to OUTQ. -/
def flushWhole : Nat → BitPacker → BitPacker
  | 0, p => p
  | k + 1, p => flushWhole k ⟨p.acc >>> 8, p.nbits - 8, p.outq ++ [BitVec.ofNat 8 (p.acc &&& 0xFF)]⟩

/-- BP_WRITE_BITS(value, width) (R93). The loop `while NBITS >= 8` runs `NBITS / 8` times. -/
def bpWrite (p : BitPacker) (value width : Nat) : BitPacker :=
  let v := value &&& (2 ^ width - 1)
  let n := p.nbits + width
  flushWhole (n / 8) ⟨p.acc ||| (v <<< p.nbits), n, p.outq⟩

/-- BP_FLUSH() (R94). -/
def bpFlush (p : BitPacker) : BitPacker := ⟨0, 0, p.outq ++ [BitVec.ofNat 8 (p.acc &&& 0xFF)]⟩

/-- BP_DRAIN(cap) (R95): the packer with an empty queue and the queued bytes; none for ERR_OUTPUT_CAPACITY. -/
def bpDrain (p : BitPacker) (cap : Nat) : Option (BitPacker × List Byte) :=
  if cap < p.outq.length then none else some ({ p with outq := [] }, p.outq)

/-- The session with another packer state. -/
def withPacker (ses : Session) (p : BitPacker) : Session := { ses with bp := p }

/-- BP_WRITE_BITS (R93); a width above 32 is outside the interface (U1). -/
def execBpWriteBits (s : State) : Host.Outcome State Fault Refusal :=
  let a := s.unitArgs
  if a.width ≤ 32 then .next (unitDone (withPacker s.ses (bpWrite s.ses.bp a.value.toNat a.width)) .none s)
  else .refused .widthAbove32

/-- BP_FLUSH (R94). -/
def execBpFlush (s : State) : Host.Outcome State Fault Refusal :=
  .next (unitDone (withPacker s.ses (bpFlush s.ses.bp)) .none s)

/-- BP_DRAIN (R95): the failure is a result and leaves the packer untouched. -/
def execBpDrain (s : State) : Host.Outcome State Fault Refusal :=
  match bpDrain s.ses.bp s.unitArgs.cap.toNat with
  | none => .next (unitDone s.ses (.failed .outputCapacity) s)
  | some (p, bytes) => .next (unitDone (withPacker s.ses p) (.drained bytes) s)

end Sys2Proof.Machine
end

