-- ==== Sys2Proof/Machine/Entropy.lean ====
section
/-! DEFINITION. Unit HC, the entropy coder (42_entropy_coder.md): the frequency counter, the code builder, the
canonical assignment, the choice of table, and the emitter. -/

namespace Sys2Proof.Machine

/-- The literal/length symbol of a token (R79). -/
def symL : Token → Nat
  | .lit b => b.toNat
  | .backref l3 _ => 257 + lengthClass (lengthOf l3)

/-- The distance symbol of a token; a literal has none (R79). -/
def symD : Token → Option Nat
  | .lit _ => none
  | .backref _ d1 => some (distanceClass (distanceOf d1))

/-- A counter array with the counter of symbol `sym` one higher (R80). -/
def bump {n : Nat} (freq : Vector (BitVec 12) n) (sym : Nat) : Vector (BitVec 12) n :=
  freq.setIfInBounds sym (freq.getD sym 0 + 1)

/-- HC_COUNT(tok) (R80). -/
def hcCount (ses : Session) (tok : Token) : Session :=
  { ses with
    freqL := bump ses.freqL (symL tok)
    freqD := match symD tok with
      | none => ses.freqD
      | some j => bump ses.freqD j }

/-- A code tree: HC_BUILD's parent links seen from the root (R81). -/
inductive HTree where
  | leaf (sym : Nat)
  | node (a b : HTree)
deriving DecidableEq, Repr

/-- A live node of HC_BUILD's merge: its weight, its id, and the tree below it (R81). -/
structure HNode where
  weight : Nat
  id : Nat
  tree : HTree
deriving DecidableEq, Repr

/-- The order `(weight, id)`: lower weight first, among equal weights the lower id (R81). -/
def nodeBefore (a b : HNode) : Bool := a.weight < b.weight || (a.weight == b.weight && a.id < b.id)

/-- Adds a node to the live nodes, which are kept in the order `(weight, id)`, least first. -/
def addLive (x : HNode) : List HNode → List HNode
  | [] => [x]
  | y :: ys => if nodeBefore x y then x :: y :: ys else y :: addLive x ys

/-- The merge loop (R81): while two nodes live, the two least are replaced by a node of their summed weight with the
next id. Each round leaves one node fewer, so `fuel = k` rounds are enough. -/
def mergeLive : (fuel next : Nat) → List HNode → List HNode
  | 0, _, live => live
  | fuel + 1, next, a :: b :: live =>
    mergeLive fuel (next + 1) (addLive ⟨a.weight + b.weight, next, .node a.tree b.tree⟩ live)
  | _ + 1, _, live => live

/-- Each leaf's symbol with the number of links from it to the root, the root being at depth `d` (R81). -/
def depths : HTree → (d : Nat) → List (Nat × Nat)
  | .leaf sym, d => [(sym, d)]
  | .node a b, d => depths a (d + 1) ++ depths b (d + 1)

/-- The used symbols, in ascending order, each after its frequency (R81). -/
def usedSymbols (freq : List Nat) : List (Nat × Nat) := freq.zipIdx.filter fun u => 0 < u.1

/-- The leaves, node `m` being the leaf of the `m`-th used symbol, in the order `(weight, id)` (R81). -/
def leaves (freq : List Nat) : List HNode :=
  (usedSymbols freq).zipIdx.foldl (fun live u => addLive ⟨u.1.1, u.2, .leaf u.1.2⟩ live) []

/-- The leaf depths of the finished tree: with one used symbol its length is 1 (R81). -/
def leafDepths (freq : List Nat) : List (Nat × Nat) :=
  let k := (usedSymbols freq).length
  match mergeLive k k (leaves freq) with
  | [] => []
  | root :: _ => match root.tree with
    | .leaf sym => [(sym, 1)]
    | .node a b => depths (.node a b) 0

/-- HC_BUILD(freq) (R81): the code lengths, 0 for an unused symbol. -/
def hcBuild (freq : List Nat) : List Nat :=
  let ds := leafDepths freq
  (List.range freq.length).map fun s => (ds.lookup s).getD 0

/-- `count[l]` for `l` in 0..14, with `count[0] = 0` (R83). -/
def lengthCounts (lens : List Nat) : List Nat :=
  (List.range 15).map fun l => if l = 0 then 0 else lens.countP (· == l)

/-- The recurrence `c <- (c + count[l-1]) << 1; next[l] <- c` over the counts (R83). -/
def firstCodes : (c : Nat) → List Nat → List Nat
  | _, [] => []
  | c, n :: counts => ((c + n) <<< 1) :: firstCodes ((c + n) <<< 1) counts

/-- `next[0..15]` before the first code is assigned (R83); `next[0]` is never used. -/
def nextCodes (lens : List Nat) : List Nat := 0 :: firstCodes 0 (lengthCounts lens)

/-- The assignment loop (R83): in ascending symbol order, a used symbol takes the next code of its length. -/
def assignLoop : (next lens : List Nat) → List Nat
  | _, [] => []
  | next, l :: lens =>
    if l = 0 then 0 :: assignLoop next lens
    else next.getD l 0 :: assignLoop (next.set l (next.getD l 0 + 1)) lens

/-- HC_ASSIGN(lens) (R83): the canonical codes, 0 for an unused symbol. -/
def hcAssign (lens : List Nat) : List Nat := assignLoop (nextCodes lens) lens

/-- The counters of an array as natural numbers. -/
def counts {n : Nat} (freq : Vector (BitVec 12) n) : List Nat := freq.toList.map BitVec.toNat

/-- `sum over s of freq[s] * lens[s]` (R86). -/
def weighted (freq lens : List Nat) : Nat := (List.zipWith (· * ·) freq lens).sum

/-- `cost_fixed` (R86). -/
def costFixed (freqL freqD : List Nat) : Nat :=
  weighted freqL ((List.range freqL.length).map fixLenL) + fixLenD * freqD.sum

/-- `cost_custom` (R86); 1264 is CUSTOM_HDR_BITS. -/
def costCustom (freqL freqD : List Nat) : Nat :=
  1264 + weighted freqL (hcBuild freqL) + weighted freqD (hcBuild freqD)

/-- The choice of a custom table (R86): always in mode CUSTOM, in mode AUTO iff it is strictly cheaper. -/
def wantsCustom (mode : BitVec 2) (freqL freqD : List Nat) : Bool :=
  mode == 2 || (mode == 1 && costCustom freqL freqD < costFixed freqL freqD)

/-- The table `(HC_ASSIGN(lens)[s], lens[s])` for `s < n` (R86). -/
def customTable (n : Nat) (lens : List Nat) : Vector CodeEntry n :=
  let codes := hcAssign lens
  tabulate n fun s => ⟨BitVec.ofNat 15 (codes.getD s 0), BitVec.ofNat 4 (lens.getD s 0)⟩

/-- HC_SELECT() (R86): the session with the block's table installed, and the BTYPE. -/
def hcSelect (cfg : Cfg) (ses : Session) : Session × BitVec 2 :=
  let fl := counts ses.freqL
  let fd := counts ses.freqD
  if wantsCustom cfg.tblMode fl fd then
    ({ ses with codeL := customTable 286 (hcBuild fl), codeD := customTable 30 (hcBuild fd) }, 2)
  else ({ ses with codeL := fixedCodeL, codeD := fixedCodeD }, 1)

/-- `put(T, s)`: `BP_WRITE_BITS(rev_n(code), n)` (30_encoding.md R58, R88). -/
def put (p : BitPacker) (e : CodeEntry) : BitPacker := bpWrite p (revBits e.len.toNat e.code.toNat) e.len.toNat

/-- The entry of a symbol. -/
def entry {n : Nat} (table : Vector CodeEntry n) (s : Nat) : CodeEntry := table.getD s ⟨0, 0⟩

/-- HC_EMIT_HDR(final, btype) (R87). -/
def emitHdr (codeL : Vector CodeEntry 286) (codeD : Vector CodeEntry 30) (final : Bool) (btype : BitVec 2)
    (p : BitPacker) : BitPacker :=
  let p := bpWrite (bpWrite p final.toNat 1) btype.toNat 2
  if btype = 2 then
    let p := codeL.toList.foldl (fun p e => bpWrite p e.len.toNat 4) p
    codeD.toList.foldl (fun p e => bpWrite p e.len.toNat 4) p
  else p

/-- HC_EMIT_TOKEN(tok) (R88). -/
def emitToken (codeL : Vector CodeEntry 286) (codeD : Vector CodeEntry 30) (p : BitPacker) : Token → BitPacker
  | .lit b => put p (entry codeL b.toNat)
  | .backref l3 d1 =>
    let i := lengthClass (lengthOf l3)
    let j := distanceClass (distanceOf d1)
    let p := put p (entry codeL (257 + i))
    let p := bpWrite p (lengthOf l3 - lenBase.getD i 0) (lenExtra.getD i 0)
    let p := put p (entry codeD j)
    bpWrite p (distanceOf d1 - distBase.getD j 0) (distExtra.getD j 0)

/-- HC_EMIT_EOB() (R89). -/
def emitEob (codeL : Vector CodeEntry 286) (p : BitPacker) : BitPacker := put p (entry codeL 256)

/-- The bits of a block (R90): header, the tokens in order, the end of block. -/
def emitBlock (codeL : Vector CodeEntry 286) (codeD : Vector CodeEntry 30) (final : Bool) (btype : BitVec 2)
    (tokens : List Token) (p : BitPacker) : BitPacker :=
  emitEob codeL (tokens.foldl (emitToken codeL codeD) (emitHdr codeL codeD final btype p))

/-- `FREQ_L[256] <- 1` (R90). -/
def countEob (ses : Session) : Session := { ses with freqL := ses.freqL.setIfInBounds 256 1 }

/-- HC_ENCODE(final) (R90). -/
def hcEncode (cfg : Cfg) (final : Bool) (ses : Session) : Session :=
  let sel := hcSelect cfg (countEob ses)
  { sel.1 with
    bp := emitBlock sel.1.codeL sel.1.codeD final sel.2 sel.1.tokbuf sel.1.bp
    tokbuf := []
    freqL := Vector.replicate 286 0
    freqD := Vector.replicate 30 0 }

/-- HC_COUNT (R80). -/
def execHcCount (s : State) : Host.Outcome State Fault Refusal :=
  .next (unitDone (hcCount s.ses s.unitArgs.tok) .none s)

/-- HC_BUILD (R81). -/
def execHcBuild (s : State) : Host.Outcome State Fault Refusal :=
  .next (unitDone s.ses (.lens (hcBuild s.unitArgs.freq)) s)

/-- HC_ASSIGN (R83). -/
def execHcAssign (s : State) : Host.Outcome State Fault Refusal :=
  .next (unitDone s.ses (.codes (hcAssign (s.unitArgs.lens.map BitVec.toNat))) s)

/-- HC_SELECT (R86). -/
def execHcSelect (s : State) : Host.Outcome State Fault Refusal :=
  let sel := hcSelect s.cfg s.ses
  .next (unitDone sel.1 (.btype sel.2) s)

/-- HC_EMIT_HDR (R87). -/
def execHcEmitHdr (s : State) : Host.Outcome State Fault Refusal :=
  let a := s.unitArgs
  .next (unitDone (withPacker s.ses (emitHdr s.ses.codeL s.ses.codeD a.final a.btype s.ses.bp)) .none s)

/-- HC_EMIT_TOKEN (R88). -/
def execHcEmitToken (s : State) : Host.Outcome State Fault Refusal :=
  .next (unitDone (withPacker s.ses (emitToken s.ses.codeL s.ses.codeD s.ses.bp s.unitArgs.tok)) .none s)

/-- HC_EMIT_EOB (R89). -/
def execHcEmitEob (s : State) : Host.Outcome State Fault Refusal :=
  .next (unitDone (withPacker s.ses (emitEob s.ses.codeL s.ses.bp)) .none s)

/-- HC_ENCODE (R90). -/
def execHcEncode (s : State) : Host.Outcome State Fault Refusal :=
  .next (unitDone (hcEncode s.cfg s.unitArgs.final s.ses) .none s)

end Sys2Proof.Machine
end

