-- ==== Sys2Proof/Machine/Window.lean ====
section
/-! DEFINITION. Unit WIN, the sliding window (40_window.md): WIN_EXTEND and WIN_SLICE. -/

namespace Sys2Proof.Machine

/-- The window after WIN_EXTEND (R64): the last `min(|X|, window_size)` bytes of `X = WIN ++ bytes`. -/
def windowExtend (ws : Nat) (win bytes : List Byte) : List Byte :=
  let x := win ++ bytes
  let keep := min x.length ws
  x.drop (x.length - keep)

/-- `MemRead(WIN, i, 1)` (20_memory.md R37), defined for `i < |WIN|` alone (R33). -/
def windowRead (win : List Byte) (i : Nat) : Option Byte := win[i]?

/-- The byte that distance `d` names: `WIN[|WIN| - d]` (R37). -/
def windowAtDistance (win : List Byte) (d : Nat) : Option Byte :=
  if 1 ≤ d ∧ d ≤ win.length then windowRead win (win.length - d) else none

/-- WIN_EXTEND (R64). -/
def execWinExtend (s : State) : Host.Outcome State Fault Refusal :=
  .next (unitDone { s.ses with win := windowExtend s.cfg.ws s.ses.win s.unitArgs.bytes } .none s)

/-- WIN_SLICE (R65). -/
def execWinSlice (s : State) : Host.Outcome State Fault Refusal := .next (unitDone s.ses (.slice s.ses.win) s)

end Sys2Proof.Machine
end

