-- ==== Sys2Proof/Machine/MatchFinder.lean ====
section
/-! DEFINITION. Unit MF, the LZ77 match finder (41_match_finder.md): hash, candidates, candidate length, MF_SEARCH,
MF_STEP, hold-back, MF_ENCODE.

The search buffer `B` with cursor `p` and end `e` is seen from the cursor: `ahead` is `B[p..e)`, the lookahead, and
`back` is `B[0..p)` reversed, the history nearest byte first. The suffix of `B[0..e)` that starts at position
`q = p - d` is what stands from distance `d` onward. -/

namespace Sys2Proof.Machine

/-- `H(b0, b1, b2)` (R66). -/
def hash3 (b0 b1 b2 : Byte) : Nat := ((b0.toNat <<< 10) ^^^ (b1.toNat <<< 5) ^^^ b2.toNat) &&& 0x7FFF

/-- `hash(i)` of the position at which a suffix starts; none with fewer than three bytes left (R66). -/
def hashAt : List Byte → Option Nat
  | b0 :: b1 :: b2 :: _ => some (hash3 b0 b1 b2)
  | _ => none

/-- The earlier positions of a cursor, nearest first: each distance with the suffix that starts there. `suffix` is the
suffix at distance `d - 1`. -/
def earlier : (back suffix : List Byte) → (d : Nat) → List (Nat × List Byte)
  | [], _, _ => []
  | b :: back, suffix, d => (d, b :: suffix) :: earlier back (b :: suffix) (d + 1)

/-- The candidate list (R67): positions within `maxdist = min(p, ws)` whose hash is the cursor's, nearest first, cut
to the first `mc`. -/
def candidates (ws mc : Nat) (back ahead : List Byte) : List (Nat × List Byte) :=
  ((earlier (back.take ws) ahead 1).filter fun c => hashAt c.2 == hashAt ahead).take mc

/-- The greatest `n ≤ cap` such that the two suffixes agree in their first `n` bytes (R68). -/
def matchLen : (cap : Nat) → List Byte → List Byte → Nat
  | 0, _, _ => 0
  | _ + 1, [], _ => 0
  | _ + 1, _ :: _, [] => 0
  | cap + 1, a :: as, b :: bs => if a = b then matchLen cap as bs + 1 else 0

/-- One probe of MF_SEARCH's loop (R69): a strictly longer candidate replaces the best. -/
def probe (cap : Nat) (ahead : List Byte) (best : Nat × Nat) (c : Nat × List Byte) : Nat × Nat :=
  let n := matchLen cap c.2 ahead
  if best.1 < n then (n, c.1) else best

/-- The search of one cursor over its candidates (R69), `(best_len, best_dist)`. -/
def searchBest (cfg : Cfg) (back ahead : List Byte) : Nat × Nat :=
  (candidates cfg.ws cfg.mc back ahead).foldl (probe (min cfg.mm ahead.length) ahead) (0, 0)

/-- MF_SEARCH(B, p, e) (R69): NONE, or `(length, distance)`. -/
def mfSearch (cfg : Cfg) (buf : List Byte) (p e : Nat) : Option (Nat × Nat) :=
  if searchNeedsNoRead cfg p e then none
  else
    let best := searchBest cfg (buf.take p).reverse ((buf.take e).drop p)
    if 3 ≤ best.1 then some best else none

/-- The lazy search one byte later finds a strictly longer match (R70): it is made only if the match in hand is
shorter than `max_lazy_match` and a next position exists. -/
def defers (cfg : Cfg) (buf : List Byte) (p e length : Nat) : Bool :=
  if length < cfg.mm ∧ p + 1 < e then
    match mfSearch cfg buf (p + 1) e with
    | none => false
    | some m1 => length < m1.1
  else false

/-- MF_STEP(B, p, e) (R70): a token and the bytes it covers. -/
def mfStep (cfg : Cfg) (buf : List Byte) (p e : Nat) : Token × Nat :=
  let literal := (Token.lit (buf.getD p 0), 1)
  match mfSearch cfg buf p e with
  | none => literal
  | some m0 => if defers cfg buf p e m0.1 then literal else (matchToken m0.1 m0.2, m0.1)

/-- A cursor at which MF_ENCODE runs MF_STEP (R71): any in a finishing command, else one with `mm + 1` bytes ahead. -/
def decidableAt (cfg : Cfg) (finish : Bool) (p e : Nat) : Bool := p < e && (finish || cfg.mm + 1 ≤ e - p)

/-- MF_ENCODE's loop (R72): the tokens from cursor `p` on and the cursor it ends at. Every step advances by at least
1, so `fuel = e - p` rounds are enough. -/
def mfLoop (cfg : Cfg) (finish : Bool) (buf : List Byte) (e : Nat) : (fuel p : Nat) → List Token × Nat
  | 0, p => ([], p)
  | fuel + 1, p =>
    if decidableAt cfg finish p e then
      let t := mfStep cfg buf p e
      let rest := mfLoop cfg finish buf e fuel (p + t.2)
      (t.1 :: rest.1, rest.2)
    else ([], p)

/-- What MF_ENCODE returns and leaves (R72). -/
structure MfOut where
  tokens : List Token
  win : List Byte
  pend : List Byte
deriving DecidableEq, Repr

/-- MF_ENCODE(input, finish) (R72). -/
def mfEncode (cfg : Cfg) (win pend input : List Byte) (finish : Bool) : MfOut :=
  let buf := win ++ pend ++ input
  let e := buf.length
  let p0 := win.length
  let r := mfLoop cfg finish buf e (e - p0) p0
  ⟨r.1, windowExtend cfg.ws win ((buf.take r.2).drop p0), buf.drop r.2⟩

/-- The session after MF_ENCODE: `WIN` and `PEND` written (R72). -/
def mfUpdate (ses : Session) (out : MfOut) : Session := { ses with win := out.win, pend := out.pend }

/-- MF_SEARCH (R69), a fault where it would read outside its buffer (R33). -/
def execMfSearch (s : State) : Host.Outcome State Fault Refusal :=
  let a := s.unitArgs
  if searchInside s.cfg a then .next (unitDone s.ses (.found (mfSearch s.cfg a.buf a.cursor a.limit)) s)
  else .fault .readOutside

/-- MF_STEP (R70), a fault where it would read outside its buffer (R33). -/
def execMfStep (s : State) : Host.Outcome State Fault Refusal :=
  let a := s.unitArgs
  if stepInside s.cfg a then
    let t := mfStep s.cfg a.buf a.cursor a.limit
    .next (unitDone s.ses (.stepped t.1 t.2) s)
  else .fault .readOutside

/-- MF_ENCODE (R72). -/
def execMfEncode (s : State) : Host.Outcome State Fault Refusal :=
  let out := mfEncode s.cfg s.ses.win s.ses.pend s.unitArgs.input s.unitArgs.finish
  .next (unitDone (mfUpdate s.ses out) (.tokens out.tokens) s)

end Sys2Proof.Machine
end

