-- ==== Sys2Proof/Machine/Pipeline.lean ====
section
/-! DEFINITION. Unit DS, the pipeline state machine and the host commands NOP, RESET, CFG_LEVEL, CFG_SET, CHUNK
(44_pipeline.md). -/

namespace Sys2Proof.Machine

/-- One round of CHUNK's step 5 (R102, R104): the token joins TOKBUF and is counted; a full unit is encoded at once as
a non-final block. -/
def takeToken (unitTokens : Nat) (cfg : Cfg) (ses : Session) (tok : Token) : Session :=
  let ses := hcCount { ses with tokbuf := ses.tokbuf ++ [tok] } tok
  if ses.tokbuf.length = unitTokens then hcEncode cfg false ses else ses

/-- CHUNK's step 6 (R102, R105): the final block, then the session's only flush. -/
def finishStream (cfg : Cfg) (ses : Session) : Session :=
  let ses := hcEncode cfg true ses
  withPacker ses (bpFlush ses.bp)

/-- CHUNK's steps 4 to 6 (R102): everything before the drain. -/
def compressSlice (unitTokens : Nat) (cfg : Cfg) (ses : Session) (fin : Bool) (input : List Byte) : Session :=
  let out := mfEncode cfg ses.win ses.pend input fin
  let ses := out.tokens.foldl (takeToken unitTokens cfg) (mfUpdate ses out)
  if fin then finishStream cfg ses else ses

/-- CHUNK's step 8 (R102): the counters, modulo 2^64 (10_state.md R17), and the flag. -/
def account (fin : Bool) (consumed written : Nat) (ses : Session) : Session :=
  { ses with
    bytesProcessed := ses.bytesProcessed + BitVec.ofNat 64 consumed
    bytesOutput := ses.bytesOutput + BitVec.ofNat 64 written
    finished := finishedAfter ses.finished fin }

/-- What a successful CHUNK leaves and returns (R102 step 9). -/
structure ChunkOk where
  ses : Session
  consumed : Nat
  bytes : List Byte
deriving DecidableEq, Repr

/-- CHUNK on a session (R102); none for ERR_OUTPUT_CAPACITY, where the saved session stands unchanged (R106). -/
def chunkSession (unitTokens : Nat) (cfg : Cfg) (ses : Session) (fin : Bool) (input : List Byte) (cap : Nat) :
    Option ChunkOk :=
  if ses.finished then some ⟨ses, 0, []⟩
  else if input ≠ [] ∧ cap = 0 then none
  else
    let done := compressSlice unitTokens cfg ses fin input
    match bpDrain done.bp cap with
    | none => none
    | some (p, bytes) =>
      some ⟨account fin input.length bytes.length (withPacker done p), input.length, bytes⟩

/-- CHUNK once its input is there: the work and the outcome (R97, R102). -/
def runChunk (fin : Bool) (input : List Byte) (cap : Nat) (s : State) : State :=
  match chunkSession Config.unitTokens s.cfg s.ses fin input cap with
  | none => finishFail .outputCapacity s
  | some r => finishOk r.consumed r.bytes.length r.bytes { s with ses := r.ses }

/-- A running CHUNK whose input has arrived runs with the operands of its CMD write (10_state.md R14). -/
def resumeChunk (r : RunningChunk) (s : State) : State := runChunk r.fin (chunkInput r.inLen s) r.outCap.toNat s

/-- NOP (R98). -/
def execNop (s : State) : Host.Outcome State Fault Refusal := .next (finishOk 0 0 [] (beginCommand s))

/-- RESET (R99). -/
def execReset (s : State) : Host.Outcome State Fault Refusal := .next (finishOk 0 0 [] (sessionReset (beginCommand s)))

/-- CFG_LEVEL (R100). -/
def execCfgLevel (level : BitVec 4) (s : State) : Host.Outcome State Fault Refusal :=
  match preset level with
  | none => .next (finishFail .config (beginCommand s))
  | some cfg => .next (finishOk 0 0 [] (reconfigure cfg (beginCommand s)))

/-- CFG_SET (R101). -/
def execCfgSet (psel : BitVec 4) (val : BitVec 16) (s : State) : Host.Outcome State Fault Refusal :=
  match cfgSetTarget s.cfg psel val with
  | none => .next (finishFail .config (beginCommand s))
  | some cfg => .next (finishOk 0 0 [] (reconfigure cfg (beginCommand s)))

/-- CHUNK (R102): it runs at once if the input port holds its IN_LEN bytes, and else waits for them with BUSY = 1
(20_memory.md R42, U6; log entry 6). -/
def execChunk (fin : Bool) (s : State) : Host.Outcome State Fault Refusal :=
  let s := beginCommand s
  if inputReady s.inLen s then .next (runChunk fin (chunkInput s.inLen s) s.outCap.toNat s)
  else .next (waitForInput fin s)

/-- A word in CMD that is no host command (R97, 30_encoding.md R49). -/
def illegalCommand (s : State) : State := finishFail .illegalCmd (beginCommand s)

end Sys2Proof.Machine
end

