-- ==== Sys2Proof/Machine/Dispatch.lean ====
section
/-! DEFINITION. One arm per instruction (30_encoding.md R46), each one direct call of its meaning. -/

namespace Sys2Proof.Machine

def exec (i : Instr) (s : State) : Host.Outcome State Fault Refusal :=
  match i with
  | .nop => Sys2Proof.Machine.execNop s
  | .reset => Sys2Proof.Machine.execReset s
  | .cfgLevel level => Sys2Proof.Machine.execCfgLevel level s
  | .cfgSet psel val => Sys2Proof.Machine.execCfgSet psel val s
  | .chunk fin => Sys2Proof.Machine.execChunk fin s
  | .winExtend => Sys2Proof.Machine.execWinExtend s
  | .winSlice => Sys2Proof.Machine.execWinSlice s
  | .mfSearch => Sys2Proof.Machine.execMfSearch s
  | .mfStep => Sys2Proof.Machine.execMfStep s
  | .mfEncode => Sys2Proof.Machine.execMfEncode s
  | .hcCount => Sys2Proof.Machine.execHcCount s
  | .hcBuild => Sys2Proof.Machine.execHcBuild s
  | .hcAssign => Sys2Proof.Machine.execHcAssign s
  | .hcSelect => Sys2Proof.Machine.execHcSelect s
  | .hcEmitHdr => Sys2Proof.Machine.execHcEmitHdr s
  | .hcEmitToken => Sys2Proof.Machine.execHcEmitToken s
  | .hcEmitEob => Sys2Proof.Machine.execHcEmitEob s
  | .hcEncode => Sys2Proof.Machine.execHcEncode s
  | .bpWriteBits => Sys2Proof.Machine.execBpWriteBits s
  | .bpFlush => Sys2Proof.Machine.execBpFlush s
  | .bpDrain => Sys2Proof.Machine.execBpDrain s

end Sys2Proof.Machine
end

