-- ==== Sys2Proof/Machine/Sequencer.lean ====
section
/-! DEFINITION. What the block takes up in a step: a unit operation's word, a word written to CMD, or the host's next
event (10_state.md R10, R14; 30_encoding.md R46; 44_pipeline.md R97). -/

namespace Sys2Proof.Machine

/-- A word taken from the unit-operation bus (30_encoding.md R46). -/
def runUnitWord (w : Word) (s : State) : Host.Outcome State Fault Refusal :=
  match unitDecode w with
  | some i => exec i s
  | none => .refused .notAUnitOperation

/-- A word the host wrote to CMD, accepted (44_pipeline.md R97). -/
def runCommandWord (w : Word) (s : State) : Host.Outcome State Fault Refusal :=
  match hostDecode w with
  | .ok i => exec i s
  | .error _ => .next (illegalCommand s)

/-- The host's next event, taken from the list. -/
def takeEvent (s : State) : Host.Outcome State Fault Refusal :=
  match s.host with
  | [] => .next s
  | .hardReset :: rest => .next (hardReset { s with host := rest })
  | .read width offset :: rest => busRead width offset { s with host := rest }
  | .write width offset data :: rest =>
    if isCommandWrite width offset then
      if s.busy then .next (stalledWrite rest s) else runCommandWord data { s with host := rest }
    else busWrite width offset data { s with host := rest }

/-- One turn of the block: a word on the unit-operation bus is executed first, then a running command whose input has
arrived, then the host's next event; with none of them the block is idle (10_state.md R10, R27; log entry 1). -/
def turn (s : State) : Host.Outcome State Fault Refusal :=
  match s.unitWord with
  | some w => runUnitWord w { s with unitWord := none }
  | none =>
    match readyChunk s with
    | some r => .next (resumeChunk r s)
    | none => takeEvent s

/-- The instruction's word where the next turn takes it: a unit operation's on the unit-operation bus, every other word
as the host's next write of CMD (log entry 3). -/
def issueWord (w : Word) (s : State) : State :=
  match unitDecode w with
  | some i => issueUnit i w s
  | none => issueCommand w s

end Sys2Proof.Machine
end

