-- ==== Sys2Proof/Machine/Step.lean ====
section
/-! DEFINITION. One step of the block is one turn (10_state.md R10, R27). -/

namespace Sys2Proof.Machine

/-- One step (R10: "one step function ... total and deterministic"). -/
def step (s : State) : Host.Outcome State Fault Refusal := turn s

/-- `s` with an instruction's word, as spec/opcode_table.json numbers its bits, where the next step takes it. -/
def State.withFetchWord (s : State) (nbits w : Nat) : State := issueWord (tableWord nbits w) s

end Sys2Proof.Machine
end

