-- ==== Sys2Proof/Machine/Asm.lean ====
section
/-! DEFINITION. What a host does to issue commands (70_reset_and_hazards.md R124), as lists of bus events: the command
lines and the pseudo-instructions of 30_encoding.md R62 and R63. -/

namespace Sys2Proof.Machine

/-- An aligned 32-bit register write (20_memory.md R35). -/
def store (offset : Nat) (data : Word) : HostEvent := .write 4 offset data

/-- An aligned 32-bit register read (R35). -/
def load (offset : Nat) : HostEvent := .read 4 offset

/-- A command word written to CMD; also R62's `.word`. -/
def commandWord (w : Word) : List HostEvent := [store 0x00 w]

/-- A command with no operand outside its word: NOP, RESET, CFG.LEVEL, CFG.SET (R62). -/
def command (i : Instr) : List HostEvent := commandWord (encode i)

/-- Input bytes written to IN_DATA, one a write (20_memory.md R42). -/
def feed (input : List Byte) : List HostEvent := input.map fun b => store 0x40 (b.setWidth 32)

/-- `CHUNK in=<bytes>, cap=<n>`, and `CHUNK.F` for `fin` (R62), in R124's order: IN_LEN, OUT_CAP, CMD, the bytes. -/
def chunkLine (fin : Bool) (input : List Byte) (cap : Word) : List HostEvent :=
  [store 0x08 (BitVec.ofNat 32 input.length), store 0x0C cap] ++ command (.chunk fin) ++ feed input

/-- `COMPRESS in=<bytes>, cap=<n>` (R63). -/
def compressLine (input : List Byte) (cap : Word) : List HostEvent := command .reset ++ chunkLine true input cap

/-- `FINISH cap=<n>` (R63). -/
def finishLine (cap : Word) : List HostEvent := chunkLine true [] cap

/-- `TRICKLE in=<bytes>, cap=<n>, finish=<0|1>` (R63). -/
def trickleLine (input : List Byte) (cap : Word) (finish : Bool) : List HostEvent := chunkLine finish input cap

/-- The results a host reads after a command (R124): STATUS, CONSUMED, WRITTEN, then `n` bytes of OUT_DATA. -/
def readResults (n : Nat) : List HostEvent := [load 0x04, load 0x10, load 0x14] ++ List.replicate n (load 0x44)

end Sys2Proof.Machine
end

