-- ==== Sys2Proof/Machine/Inflate.lean ====
section
/-! DEFINITION. The inverse of the output bit stream, `decode(bytes)` (44_pipeline.md R109), which the spec keeps as the
contract of the stream ("The decoder is outside the block"); and the expansion of a token sequence it rests on. A
malformed stream, among them one with BTYPE 0 or 3 or with a symbol the block never emits, is refused: none
(30_encoding.md R54, R56; U4). -/

namespace Sys2Proof.Machine

/-- The bits of a byte stream, least significant bit of each byte first (20_memory.md R39). -/
def streamBits (bytes : List Byte) : List Bool := bytes.flatMap fun b => (List.range 8).map b.getLsbD

/-- An `n`-bit integer, least significant bit first. -/
def readInt : (n : Nat) → List Bool → Option (Nat × List Bool)
  | 0, bits => some (0, bits)
  | _ + 1, [] => none
  | n + 1, b :: bits =>
    match readInt n bits with
    | none => none
    | some (v, rest) => some (b.toNat + 2 * v, rest)

/-- A code as a decoder holds it: the length and the code of every symbol. -/
structure DecodeTable where
  lens : List Nat
  codes : List Nat
deriving DecidableEq, Repr

/-- "rebuild the codes with HC_ASSIGN" (R109). -/
def decodeTable (lens : List Nat) : DecodeTable := ⟨lens, hcAssign lens⟩

/-- The symbol whose code has this length and value. -/
def findSymbol (t : DecodeTable) (len code : Nat) : Option Nat :=
  (List.zip t.lens t.codes).findIdx? fun e => e.1 == len && e.2 == code

/-- A symbol: bits one at a time, most significant code bit first, until they are a code (R109). `len` and `code` are
the bits read so far. -/
def readSymbol (t : DecodeTable) : (fuel len code : Nat) → List Bool → Option (Nat × List Bool)
  | 0, _, _, _ => none
  | _ + 1, _, _, [] => none
  | fuel + 1, len, code, b :: bits =>
    match findSymbol t (len + 1) (2 * code + b.toNat) with
    | some s => some (s, bits)
    | none => readSymbol t fuel (len + 1) (2 * code + b.toNat) bits

/-- `L` bytes, each a copy of the byte `D` positions before the current end (R109). The output is held newest byte
first; a distance that reaches before the output's start is malformed. -/
def copyBack : (length distance : Nat) → List Byte → Option (List Byte)
  | 0, _, out => some out
  | n + 1, d, out =>
    match (if d = 0 then none else out[d - 1]?) with
    | none => none
    | some b => copyBack n d (b :: out)

/-- A token of the stream, already recognised, applied to the output (R109). -/
def expandToken (out : List Byte) : Token → Option (List Byte)
  | .lit b => some (b :: out)
  | .backref l3 d1 => copyBack (lengthOf l3) (distanceOf d1) out

/-- A token sequence applied to the output, newest byte first. -/
def expandTokens (out : List Byte) (ts : List Token) : Option (List Byte) :=
  ts.foldl (fun o t => o.bind fun out => expandToken out t) (some out)

/-- A match after its length symbol: extra bits, distance symbol, extra bits (R59, R109). -/
def readMatch (dist : DecodeTable) (i : Nat) (bits : List Bool) : Option (Nat × Nat × List Bool) :=
  match readInt (lenExtra.getD i 0) bits with
  | none => none
  | some (x, bits) =>
    match readSymbol dist 15 0 0 bits with
    | none => none
    | some (j, bits) =>
      if j ≥ 30 then none
      else
        match readInt (distExtra.getD j 0) bits with
        | none => none
        | some (y, bits) => some (lenBase.getD i 0 + x, distBase.getD j 0 + y, bits)

/-- The tokens of a block up to its EOB (R109). Every token takes at least one bit. -/
def readBlock (lit dist : DecodeTable) : (fuel : Nat) → List Bool → List Byte → Option (List Bool × List Byte)
  | 0, _, _ => none
  | fuel + 1, bits, out =>
    match readSymbol lit 15 0 0 bits with
    | none => none
    | some (s, bits) =>
      if s < 256 then readBlock lit dist fuel bits (BitVec.ofNat 8 s :: out)
      else if s = 256 then some (bits, out)
      else if s ≥ 286 then none
      else
        match readMatch dist (s - 257) bits with
        | none => none
        | some (len, d, bits) =>
          match copyBack len d out with
          | none => none
          | some out => readBlock lit dist fuel bits out

/-- `n` code lengths of 4 bits each (30_encoding.md R57). -/
def readLengths : (n : Nat) → List Bool → Option (List Nat × List Bool)
  | 0, bits => some ([], bits)
  | n + 1, bits =>
    match readInt 4 bits with
    | none => none
    | some (l, bits) =>
      match readLengths n bits with
      | none => none
      | some (ls, rest) => some (l :: ls, rest)

/-- The two codes of a block of type `btype` (R109): the fixed lengths over 288 and 32 symbols (R54), or the
transmitted ones. -/
def readTables (btype : Nat) (bits : List Bool) : Option (DecodeTable × DecodeTable × List Bool) :=
  match btype with
  | 1 => some (decodeTable ((List.range 288).map fixLenL), decodeTable (List.replicate 32 fixLenD), bits)
  | 2 =>
    match readLengths 286 bits with
    | none => none
    | some (ll, bits) =>
      match readLengths 30 bits with
      | none => none
      | some (dl, bits) => some (decodeTable ll, decodeTable dl, bits)
  | _ => none

/-- The blocks of a stream, up to and with the one whose BFINAL is 1 (R60, R109). -/
def readBlocks : (fuel : Nat) → List Bool → List Byte → Option (List Byte)
  | 0, _, _ => none
  | fuel + 1, bits, out =>
    match readInt 1 bits with
    | none => none
    | some (final, bits) =>
      match readInt 2 bits with
      | none => none
      | some (btype, bits) =>
        match readTables btype bits with
        | none => none
        | some (lit, dist, bits) =>
          match readBlock lit dist (bits.length + 1) bits out with
          | none => none
          | some (bits, out) => if final = 1 then some out else readBlocks fuel bits out

/-- `decode(bytes)` (R109): the decoded bytes, oldest first. -/
def inflate (bytes : List Byte) : Option (List Byte) :=
  let bits := streamBits bytes
  (readBlocks (bits.length + 1) bits []).map List.reverse

end Sys2Proof.Machine
end

