-- ==== Sys2Proof/Machine/Memory.lean ====
section
/-! DEFINITION. A byte memory with addresses, for the RAM behind the window (20_memory.md R37): (address, byte) cells in
one canonical form, addresses strictly rising. An unlisted address has no value: "The contents of the RAM cells ... are
unspecified after reset and are never read before they are written" (10_state.md R30). -/

namespace Sys2Proof.Machine

abbrev Memory := List Host.Cell

/-- The byte at an address; none where nothing has been written. -/
def memRead : Memory → Nat → Option Byte
  | [], _ => none
  | (a, b) :: mem, addr => if a = addr then some b else memRead mem addr

/-- The memory with a byte written; the canonical form is kept. -/
def memWrite : Memory → Nat → Byte → Memory
  | [], addr, v => [(addr, v)]
  | (a, b) :: mem, addr, v =>
    if addr < a then (addr, v) :: (a, b) :: mem
    else if addr = a then (addr, v) :: mem
    else (a, b) :: memWrite mem addr v

/-- The canonical form: addresses strictly rising. -/
def Memory.wf : Memory → Bool
  | [] => true
  | (a, _) :: mem => mem.all (fun c => a < c.1) && Memory.wf mem

end Sys2Proof.Machine
end

