-- ==== Sys2Proof/Machine/Realise.lean ====
section
/-! DEFINITION. The two realisations the spec describes beside its architectural state: the ring behind WIN (20_memory.md
R37) and the hash chains HEAD and PREV behind the candidate list (10_state.md R28, 41_match_finder.md R78). "Neither is
architectural": State does not hold them, and the statements about them say that they yield the architectural view. -/

namespace Sys2Proof.Machine

/-- The ring of `window_size` slots inside the window RAM, its write pointer WP and its length WLEN (R37). -/
structure Ring where
  ram : Memory
  wp : Nat
  wlen : Nat
deriving DecidableEq, Repr

/-- An empty ring. DESIGN CHOICE (log entry 19): its write pointer is 0; R30, R31 and R37 give WP no value at reset. -/
def Ring.empty : Ring := ⟨[], 0, 0⟩

/-- Appending a byte (R37): `RAM[WP] <- b; WP <- (WP + 1) mod ws; WLEN <- min(WLEN + 1, ws)`; with `ws = 0` "nothing
is ever stored". -/
def ringAppend (ws : Nat) (r : Ring) (b : Byte) : Ring :=
  if ws = 0 then r else ⟨memWrite r.ram r.wp b, (r.wp + 1) % ws, min (r.wlen + 1) ws⟩

/-- `WIN[i] = RAM[(WP - WLEN + i) mod ws]` (R37), for `i < WLEN`. -/
def ringRead (ws : Nat) (r : Ring) (i : Nat) : Option Byte :=
  if i < r.wlen then memRead r.ram ((r.wp + ws - r.wlen + i) % ws) else none

/-- The ring's pointers are within its slots. -/
def Ring.ok (ws : Nat) (r : Ring) : Prop := r.wlen ≤ ws ∧ (r.wp < ws ∨ ws = 0) ∧ Memory.wf r.ram = true

/-- The ring holds exactly this window. -/
def Ring.holds (ws : Nat) (r : Ring) (win : List Byte) : Prop :=
  r.wlen = win.length ∧ ∀ i < win.length, ringRead ws r i = win[i]?

/-- The hash-chain tables (R28). `head` gives the newest inserted position of a hash; `prev` gives, for a slot
`q mod 32768`, the position before `q` on its chain, or NIL. The newest entry of a key stands first. DESIGN CHOICE (log
entry 20): a slot of `prev` that is not listed looks up as NIL. -/
structure Chains where
  head : List (Nat × Nat)
  prev : List (Nat × Option Nat)
deriving DecidableEq, Repr

/-- The tables after a session reset (R28): every HEAD entry is NIL; "PREV needs no reset", so what `prev` holds is left
to the caller (R30, U10: "any value"; log entry 20). -/
def Chains.afterReset (prev : List (Nat × Option Nat)) : Chains := ⟨[], prev⟩

/-- The tables after a session reset with a PREV in which nothing is listed. DESIGN CHOICE (log entry 20): the spec leaves
PREV's contents open; no statement starts from this PREV alone. -/
def Chains.nil : Chains := Chains.afterReset []

/-- Inserting position `q` of hash `h` (R28). -/
def insertPos (h q : Nat) (c : Chains) : Chains := ⟨(h, q) :: c.head, (q % 32768, c.head.lookup h) :: c.prev⟩

/-- The tables before MF_SEARCH at position `p` of the stream (R28): "every position below `p` has been inserted, in
increasing order, and none at or above `p`". `start` is what the session's reset left. Where `p + 3 ≤ |stream|` every
inserted position has its three bytes, and the default hash 0 is never taken (41_match_finder.md R78). -/
def chainsBefore (start : Chains) (stream : List Byte) (p : Nat) : Chains :=
  (List.range p).foldl (fun c q => insertPos ((hashAt (stream.drop q)).getD 0) q c) start

/-- The walk (R28): from `q`, while it is not NIL, within `maxdist`, and probes are left; the probed positions. -/
def chainWalk (c : Chains) (p maxdist : Nat) : (probes : Nat) → Option Nat → List Nat
  | 0, _ => []
  | _ + 1, none => []
  | probes + 1, some q =>
    if p - q ≤ maxdist then q :: chainWalk c p maxdist probes ((c.prev.lookup (q % 32768)).join) else []

/-- The positions MF_SEARCH at `p` probes by walking the chain of the cursor's hash (R28, R78), the session's reset having
left `start`. -/
def chainProbes (start : Chains) (ws mc : Nat) (stream : List Byte) (p : Nat) : List Nat :=
  let c := chainsBefore start stream p
  chainWalk c p (min p ws) mc (c.head.lookup ((hashAt (stream.drop p)).getD 0))

end Sys2Proof.Machine
end

