-- ==== Sys2Proof/WellFormed.lean ====
section
/-! DEFINITION. Which instructions have operands in their legal ranges (30_encoding.md R48, R49). Every term of
`Instr` has a word; an ill-formed one is a word R49 calls *refused*: the block decodes it and fails it with
ERR_CONFIG. -/

namespace Sys2Proof

/-- The legal values of VAL for each PSEL (R48: 0: 0..32768; 1: 3..258; 2: 0..65535; 3: 0..2; 4..15 select nothing). -/
def valInRange (psel : BitVec 4) (val : BitVec 16) : Bool :=
  match psel.toNat with
  | 0 => val.toNat ≤ 32768
  | 1 => 3 ≤ val.toNat && val.toNat ≤ 258
  | 2 => true
  | 3 => val.toNat ≤ 2
  | _ => false

/-- An instruction whose immediates are legal (R48: LEVEL legal 0..9; PSEL and VAL as above). -/
def wellFormed : Instr → Bool
  | .cfgLevel level => level.toNat ≤ 9
  | .cfgSet psel val => valInRange psel val
  | .nop => true
  | .reset => true
  | .chunk _ => true
  | .winExtend => true
  | .winSlice => true
  | .mfSearch => true
  | .mfStep => true
  | .mfEncode => true
  | .hcCount => true
  | .hcBuild => true
  | .hcAssign => true
  | .hcSelect => true
  | .hcEmitHdr => true
  | .hcEmitToken => true
  | .hcEmitEob => true
  | .hcEncode => true
  | .bpWriteBits => true
  | .bpFlush => true
  | .bpDrain => true

end Sys2Proof
end

