-- ==== Sys2Proof/Safety.lean ====
section
/-! DEFINITION. What a good state of the block is (10_state.md R29), and the history of a session in whose terms the
whole-stream guarantees are stated (10_state.md R21, R22, R29; 44_pipeline.md R108, R109). -/

namespace Sys2Proof.Machine

/-- Every CFG field is within its legal range (R29 (a), 00_scope.md R5). -/
abbrev Cfg.legal (cfg : Cfg) : Prop :=
  cfg.level.toNat ≤ 9 ∧ cfg.ws ≤ 32768 ∧ 3 ≤ cfg.mm ∧ cfg.mm ≤ 258 ∧ cfg.tblMode.toNat ≤ 2

/-- A token within the configuration's bounds (R29 (e), 41_match_finder.md R75). -/
def Token.legal (cfg : Cfg) : Token → Bool
  | .lit _ => true
  | .backref l3 d1 => 3 ≤ lengthOf l3 && lengthOf l3 ≤ cfg.mm && 1 ≤ distanceOf d1 && distanceOf d1 ≤ cfg.ws

/-- The counters count TOKBUF (R29 (f), R24). -/
abbrev Session.counted (ses : Session) : Prop :=
  (∀ s < 286, (ses.freqL.getD s 0).toNat = ses.tokbuf.countP fun t => symL t == s) ∧
  (∀ j < 30, (ses.freqD.getD j 0).toNat = ses.tokbuf.countP fun t => symD t == some j)

/-- The packer between unit operations (R26, 43_bit_packer.md R96). -/
abbrev BitPacker.ok (p : BitPacker) : Prop := p.nbits ≤ 7 ∧ p.acc < 2 ^ p.nbits

/-- The session between commands (R29 (b) to (h)). -/
abbrev Session.good (unitTokens : Nat) (cfg : Cfg) (ses : Session) : Prop :=
  ses.win.length ≤ cfg.ws ∧ ses.pend.length ≤ cfg.mm ∧ ses.tokbuf.length < unitTokens ∧
  ses.tokbuf.all (Token.legal cfg) = true ∧ ses.counted ∧ ses.bp.ok ∧ ses.bp.outq = [] ∧
  (ses.finished = true → ses.pend = [] ∧ ses.tokbuf = [] ∧ ses.bp.nbits = 0 ∧ ses.bp.acc = 0)

/-- The codes STATUS.CODE can hold (60_exceptions.md R111). -/
def StatusCode.raised : StatusCode → Bool
  | .ok => true
  | .outputCapacity => true
  | .illegalCmd => true
  | .config => true
  | .insufficientInput => false
  | .invalidData => false
  | .notComplete => false
  | .timeBudget => false

/-- The block between commands, in every reachable state (R29 (a) to (h), R111); the unit-operation bus is idle. -/
abbrev State.good (s : State) : Prop :=
  s.cfg.legal ∧ s.ses.good Config.unitTokens s.cfg ∧ s.code.raised = true ∧ s.unitWord = none

/-- What every step keeps, a unit operation issued alone included: the configuration's ranges, the window's bound and
the packer's bound (R29 (a), (b), (g), R96). -/
abbrev State.sound (s : State) : Prop := s.cfg.legal ∧ s.ses.win.length ≤ s.cfg.ws ∧ s.ses.bp.ok

/-- A session from its reset through successful CHUNK commands in the Active state (R108): the stream of input bytes,
the bytes output, and the session they leave. -/
inductive SessionRun (unitTokens : Nat) (cfg : Cfg) : List Byte → List Byte → Session → Prop where
  | start : SessionRun unitTokens cfg [] [] Session.fresh
  | chunk {stream out : List Byte} {ses : Session} {fin : Bool} {input : List Byte} {cap : Nat} {r : ChunkOk} :
      SessionRun unitTokens cfg stream out ses → ses.finished = false →
      chunkSession unitTokens cfg ses fin input cap = some r →
      SessionRun unitTokens cfg (stream ++ input) (out ++ r.bytes) r.ses

/-- The bits a packer has taken in, oldest first: the queued bytes' bits, then the pending ones (R96). -/
def BitPacker.bits (p : BitPacker) : List Bool :=
  streamBits p.outq ++ (List.range p.nbits).map fun k => p.acc.testBit k

/-- An access the block decodes: aligned, 32 bits wide, within its 256 bytes (20_memory.md R35, R36). -/
def accessOk (width offset : Nat) : Bool := width == 4 && offset % 4 == 0 && offset < 256

/-- The host's next event, if any, is one the interface has. -/
def nextEventOk (s : State) : Bool :=
  match s.host with
  | [] => true
  | .hardReset :: _ => true
  | .read width offset :: _ => accessOk width offset
  | .write width offset _ :: _ => accessOk width offset

/-- The block takes the host's next event in this step: no unit operation is issued and no running command is ready. -/
def takesEvent (s : State) : Prop := s.unitWord = none ∧ readyChunk s = none

/-- The block takes the host's word `w` from CMD in this step (10_state.md R14). -/
def takesCommand (w : Word) (rest : List HostEvent) (s : State) : Prop :=
  s.unitWord = none ∧ s.running = none ∧ s.host = .write 4 0 w :: rest

/-- The bits of an `n`-bit integer, least significant first (20_memory.md R39). -/
def intBits (n v : Nat) : List Bool := (List.range n).map fun k => v.testBit k

/-- The bits of a code as they enter the stream, root bit first (20_memory.md R40). -/
def CodeEntry.bits (e : CodeEntry) : List Bool :=
  (List.range e.len.toNat).map fun k => e.code.toNat.testBit (e.len.toNat - 1 - k)

/-- The stream bits of a block header and, for BTYPE 2, of its custom table (30_encoding.md R56, R57). -/
def headerBits (codeL : Vector CodeEntry 286) (codeD : Vector CodeEntry 30) (final : Bool) (btype : BitVec 2) :
    List Bool :=
  [final] ++ intBits 2 btype.toNat ++
    if btype = 2 then
      codeL.toList.flatMap (fun e => intBits 4 e.len.toNat) ++ codeD.toList.flatMap (fun e => intBits 4 e.len.toNat)
    else []

/-- The stream bits of a token (30_encoding.md R59). -/
def tokenBits (codeL : Vector CodeEntry 286) (codeD : Vector CodeEntry 30) : Token → List Bool
  | .lit b => (entry codeL b.toNat).bits
  | .backref l3 d1 =>
    let i := lengthClass (lengthOf l3)
    let j := distanceClass (distanceOf d1)
    (entry codeL (257 + i)).bits ++ intBits (lenExtra.getD i 0) (lengthOf l3 - lenBase.getD i 0) ++
      (entry codeD j).bits ++ intBits (distExtra.getD j 0) (distanceOf d1 - distBase.getD j 0)

/-- The number of bytes a token covers (41_match_finder.md R70). -/
def tokenCovers : Token → Nat
  | .lit _ => 1
  | .backref l3 _ => lengthOf l3

/-- The space the codes of these lengths take, in units of `2 ^ -15` (42_entropy_coder.md R82 (b), R85). -/
def kraft15 (lens : List Nat) : Nat := ((lens.filter (0 < ·)).map fun l => 2 ^ (15 - l)).sum

/-- A row of the class tables (30_encoding.md R52, R53): the values `base..last` share `symbol` and are told apart by
`extra` bits. -/
structure ClassRow where
  symbol : Nat
  base : Nat
  extra : Nat
  last : Nat
deriving DecidableEq, Repr

/-- The value falls in the row. -/
abbrev ClassRow.covers (r : ClassRow) (x : Nat) : Prop := r.base ≤ x ∧ x ≤ r.last

/-- The rows of R52's table, for the statements to hold the model's class functions against. -/
def lengthRows : List ClassRow :=
  [⟨257, 3, 0, 3⟩, ⟨258, 4, 0, 4⟩, ⟨259, 5, 0, 5⟩, ⟨260, 6, 0, 6⟩, ⟨261, 7, 0, 7⟩, ⟨262, 8, 0, 8⟩, ⟨263, 9, 0, 9⟩,
   ⟨264, 10, 0, 10⟩, ⟨265, 11, 1, 12⟩, ⟨266, 13, 1, 14⟩, ⟨267, 15, 1, 16⟩, ⟨268, 17, 1, 18⟩, ⟨269, 19, 2, 22⟩,
   ⟨270, 23, 2, 26⟩, ⟨271, 27, 2, 30⟩, ⟨272, 31, 2, 34⟩, ⟨273, 35, 3, 42⟩, ⟨274, 43, 3, 50⟩, ⟨275, 51, 3, 58⟩,
   ⟨276, 59, 3, 66⟩, ⟨277, 67, 4, 82⟩, ⟨278, 83, 4, 98⟩, ⟨279, 99, 4, 114⟩, ⟨280, 115, 4, 130⟩, ⟨281, 131, 5, 162⟩,
   ⟨282, 163, 5, 194⟩, ⟨283, 195, 5, 226⟩, ⟨284, 227, 5, 257⟩, ⟨285, 258, 0, 258⟩]

/-- The rows of R53's table. -/
def distanceRows : List ClassRow :=
  [⟨0, 1, 0, 1⟩, ⟨1, 2, 0, 2⟩, ⟨2, 3, 0, 3⟩, ⟨3, 4, 0, 4⟩, ⟨4, 5, 1, 6⟩, ⟨5, 7, 1, 8⟩, ⟨6, 9, 2, 12⟩, ⟨7, 13, 2, 16⟩,
   ⟨8, 17, 3, 24⟩, ⟨9, 25, 3, 32⟩, ⟨10, 33, 4, 48⟩, ⟨11, 49, 4, 64⟩, ⟨12, 65, 5, 96⟩, ⟨13, 97, 5, 128⟩,
   ⟨14, 129, 6, 192⟩, ⟨15, 193, 6, 256⟩, ⟨16, 257, 7, 384⟩, ⟨17, 385, 7, 512⟩, ⟨18, 513, 8, 768⟩, ⟨19, 769, 8, 1024⟩,
   ⟨20, 1025, 9, 1536⟩, ⟨21, 1537, 9, 2048⟩, ⟨22, 2049, 10, 3072⟩, ⟨23, 3073, 10, 4096⟩, ⟨24, 4097, 11, 6144⟩,
   ⟨25, 6145, 11, 8192⟩, ⟨26, 8193, 12, 12288⟩, ⟨27, 12289, 12, 16384⟩, ⟨28, 16385, 13, 24576⟩,
   ⟨29, 24577, 13, 32768⟩]

/-- The order `(weight, id)` on nodes (42_entropy_coder.md R81). -/
abbrev lighter (a b : Nat × Nat) : Prop := a.1 < b.1 ∨ a.1 = b.1 ∧ a.2 < b.2

/-- R81's merge from a set of live nodes `(weight, id)` on, `next` being the next id, as a relation: `depth` gives every
node its number of parent links to the root. While two nodes live, the two least are merged. -/
inductive MergeDepths : (next : Nat) → (live : List (Nat × Nat)) → (depth : Nat → Nat) → Prop where
  | root {next w id : Nat} {depth : Nat → Nat} : depth id = 0 → MergeDepths next [(w, id)] depth
  | merge {next : Nat} {live rest : List (Nat × Nat)} {a b : Nat × Nat} {depth : Nat → Nat} :
      live.Perm (a :: b :: rest) → lighter a b → (∀ x ∈ rest, lighter b x) →
      MergeDepths (next + 1) ((a.1 + b.1, next) :: rest) depth →
      depth a.2 = depth next + 1 → depth b.2 = depth next + 1 → MergeDepths next live depth

end Sys2Proof.Machine
end

