-- ==== Sys2Proof/Certificates/Slice0/Obligations.lean ====
section
/-! DEFINITION. The statements for the provers, each formalising numbered rules of spec/. `takesCommand w rest s` says
that the block takes the word `w` from CMD in this step, `takesEvent s` that it takes the host's next event. -/

open Sys2Proof Sys2Proof.Machine

/-! ### Encodings -/

/-- O1. Decoding the word of any instruction gives it back, at every value of every field (R46, R47, R48). -/
def Obligations.DecodeOfEncode : Prop := ∀ i : Instr, decode (encode i) = .ok i

/-- O2. A word that decodes has one meaning: encoding it gives the word back (R46, R47, R49). -/
def Obligations.EncodeOfDecode : Prop := ∀ (w : Word) (i : Instr), decode w = .ok i → encode i = w

/-- O3. A word of each of the 21 operations, written out from R46's opcodes and R47's formats, decodes to what it stands
for (R46, R47, R48; 95_test_vectors.md 2.1). -/
def Obligations.SampleWordsDecode : Prop :=
  decode 0x00000000 = .ok .nop ∧ decode 0x00000001 = .ok .reset ∧ decode 0x00000902 = .ok (.cfgLevel 9) ∧
  decode 0x01020103 = .ok (.cfgSet 1 258) ∧ decode 0x00000104 = .ok (.chunk true) ∧
  decode 0x00000004 = .ok (.chunk false) ∧
  decode 0x00000010 = .ok .winExtend ∧ decode 0x00000011 = .ok .winSlice ∧
  decode 0x00000020 = .ok .mfSearch ∧ decode 0x00000021 = .ok .mfStep ∧ decode 0x00000022 = .ok .mfEncode ∧
  decode 0x00000030 = .ok .hcCount ∧ decode 0x00000031 = .ok .hcBuild ∧ decode 0x00000032 = .ok .hcAssign ∧
  decode 0x00000033 = .ok .hcSelect ∧ decode 0x00000034 = .ok .hcEmitHdr ∧ decode 0x00000035 = .ok .hcEmitToken ∧
  decode 0x00000036 = .ok .hcEmitEob ∧ decode 0x00000037 = .ok .hcEncode ∧
  decode 0x00000040 = .ok .bpWriteBits ∧ decode 0x00000041 = .ok .bpFlush ∧ decode 0x00000042 = .ok .bpDrain

/-- O4. A word written to CMD is illegal exactly when it matches none of the five host rows of the opcode table: its
opcode is reserved or a unit operation's, or a bit its format marks `0` is 1 (R46, R47, R49). -/
def Obligations.HostWordIllegal : Prop :=
  ∀ w : Word,
    (∃ e, hostDecode w = .error e) ↔
      w ≠ 0 ∧ w ≠ 1 ∧ w &&& 0xFFFFF0FF ≠ 2 ∧ w &&& 0x0000F0FF ≠ 3 ∧ w &&& 0xFFFFFEFF ≠ 4

/-- O5. The token word (R50): it has R50's fields, for a literal and for every length 3..258 and distance 1..32768, and
it decodes to its token; any word that decodes to a token is that token's word. -/
def Obligations.TokenWordRoundTrip : Prop :=
  (∀ b : Byte, tokenWord (.lit b) = b.setWidth 32) ∧
  (∀ l3 d1, (tokenWord (.backref l3 d1)).toNat = 2 ^ 31 + d1.toNat * 2 ^ 16 + (l3.toNat + 3)) ∧
  (∀ length distance, 3 ≤ length → length ≤ 258 → 1 ≤ distance → distance ≤ 32768 →
    (tokenWord (matchToken length distance)).toNat = 2 ^ 31 + (distance - 1) * 2 ^ 16 + length) ∧
  (∀ t : Token, wordToken (tokenWord t) = some t) ∧ ∀ (w : Word) (t : Token), wordToken w = some t → tokenWord t = w

/-! ### The step -/

/-- O6. A word the block takes from CMD runs as the instruction it decodes to, on the state with the event taken; an
illegal one ends with ERR_ILLEGAL_CMD and changes nothing else (R14, R49, R97, R115). -/
def Obligations.StepRunsCommandWord : Prop :=
  ∀ (s : State) (w : Word) (rest : List HostEvent), takesCommand w rest s →
    (∀ i, hostDecode w = .ok i → step s = exec i { s with host := rest }) ∧
    ∀ e, hostDecode w = .error e →
      step s = .next { s with
        host := rest, code := .illegalCmd, consumed := 0, written := 0, inPort := [], outPort := [], running := none }

/-- O7. A word on the unit-operation bus runs as the unit operation it decodes to, on the state with the bus idle
(R46; log entry 3: the bus as a field of State is the model's). -/
def Obligations.StepRunsUnitWord : Prop :=
  ∀ (s : State) (w : Word) (i : Instr), s.unitWord = some w → unitDecode w = some i →
    step s = exec i { s with unitWord := none }

/-- O8. A CHUNK whose input is not all there waits with BUSY = 1 and the operands of its CMD write; once it is all
there, a step does what the CHUNK does with those operands, IN_LEN and OUT_CAP kept as they are now (R14, R42, U6; log entry 6: that it waits is the model's reading). -/
def Obligations.ChunkWaitsAndResumes : Prop :=
  (∀ (fin : Bool) (s : State), s.inPort.length < s.inLen.toNat →
    exec (.chunk fin) s = .next { s with outPort := [], running := some ⟨fin, s.inLen, s.outCap⟩ }) ∧
  ∀ (s : State) (r : RunningChunk), s.unitWord = none → s.running = some r → r.inLen.toNat ≤ s.inPort.length →
    ∃ t, exec (.chunk r.fin) { s with inLen := r.inLen, outCap := r.outCap } = .next t ∧
      step s = .next { t with inLen := s.inLen, outCap := s.outCap }

/-- O9. Outside unit operations, a step ends in a next state whenever the host's next event is an access the interface
has: the block never hangs on a command word and never traps (R9, R35, R49). -/
def Obligations.StepAlwaysAnswers : Prop :=
  ∀ s : State, s.unitWord = none → nextEventOk s = true → ∃ t, step s = .next t

/-! ### Reset -/

/-- O10. Hard reset, from any state, leaves the values R30 and R31 list, and `State.reset` is that state (the model's own
fields `host`, `readData` and the unit bus: log entries 1, 2, 3). -/
def Obligations.HardResetValues : Prop :=
  ∀ (s : State) (rest : List HostEvent), takesEvent s → s.host = .hardReset :: rest →
    ∃ t, step s = .next t ∧ t.host = rest ∧ { t with host := [] } = State.reset ∧
      t.cfg.level = 6 ∧ t.cfg.windowSize = 32768 ∧ t.cfg.maxLazyMatch = 258 ∧ t.cfg.maxChainLength = 256 ∧
      t.cfg.tblMode = 1 ∧ t.inLen = 0 ∧ t.outCap = 0 ∧ t.consumed = 0 ∧ t.written = 0 ∧ t.code = .ok ∧
      t.running = none ∧ t.ses = Session.fresh ∧ t.inPort = [] ∧ t.outPort = [] ∧ t.finished = false ∧ t.ses.win = [] ∧ t.ses.pend = [] ∧
      t.ses.tokbuf = [] ∧ (∀ k < 286, t.ses.freqL[k]? = some 0) ∧ (∀ k < 30, t.ses.freqD[k]? = some 0) ∧
      t.ses.codeL = fixedCodeL ∧ t.ses.codeD = fixedCodeD ∧ t.ses.bp = ⟨0, 0, []⟩ ∧
      t.ses.bytesProcessed = 0 ∧ t.ses.bytesOutput = 0

/-- O11. The state after reset is good (R29). -/
def Obligations.ResetIsGood : Prop := State.reset.good

/-! ### Invariants and whole sessions -/

/-- O12. Every step from a good state leads to a good state (R29 (a) to (h), R111). -/
def Obligations.StepKeepsGood : Prop := ∀ s t : State, s.good → step s = .next t → t.good

/-- O13. Every step, a unit operation issued alone included, keeps the configuration in range, the window within
`window_size` and the packer within 7 pending bits (R21, R26, R29, R96). -/
def Obligations.StepKeepsSound : Prop := ∀ s t : State, s.sound → step s = .next t → t.sound

/-- O14. At any point of a session, with `T` the number of tokenised bytes, PEND is the stream from `T` on, WIN the
last `min(T, window_size)` bytes before it, and the counters count what went in and out (R21, R22, R29 (i), (j)). -/
def Obligations.SessionHistory : Prop :=
  ∀ (u : Nat) (cfg : Cfg) (stream out : List Byte) (ses : Session), SessionRun u cfg stream out ses →
    ses.pend.length ≤ stream.length ∧
    let tokenised := stream.length - ses.pend.length
    ses.pend = stream.drop tokenised ∧
    ses.win = (stream.take tokenised).drop (tokenised - min tokenised cfg.ws) ∧
    ses.bytesProcessed = BitVec.ofNat 64 stream.length ∧ ses.bytesOutput = BitVec.ofNat 64 out.length

/-- O15. Slicing independence: however a stream was cut into successful CHUNK commands, the last one finishing, the
output is that of the single finishing command on the whole stream, for every UNIT_TOKENS (R108). -/
def Obligations.SlicingIndependence : Prop :=
  ∀ (u cap : Nat) (cfg : Cfg) (stream out : List Byte) (ses : Session), cfg.legal → SessionRun u cfg stream out ses →
    ses.finished = true → out.length ≤ cap →
    ∃ r, chunkSession u cfg Session.fresh true stream cap = some r ∧ r.bytes = out

/-- O16. Round trip: R109's inverse gives back the stream a finished session was fed, for every legal configuration and
every UNIT_TOKENS in its range 1..2582 (R4, R109). -/
def Obligations.StreamRoundTrip : Prop :=
  ∀ (u : Nat) (cfg : Cfg) (stream out : List Byte) (ses : Session), 1 ≤ u → u ≤ 2582 → cfg.legal →
    SessionRun u cfg stream out ses → ses.finished = true → inflate out = some stream

/-! ### Host commands -/

/-- O17. NOP: code 0, zero results, both ports empty, nothing else (R97, R98). -/
def Obligations.NopResult : Prop :=
  ∀ s : State, exec .nop s =
    .next { s with code := .ok, consumed := 0, written := 0, inPort := [], outPort := [], running := none }

/-- O18. RESET: a fresh session; CFG, IN_LEN and OUT_CAP keep their values (R31, R97, R99). -/
def Obligations.ResetCommandResult : Prop :=
  ∀ s : State, exec .reset s = .next { s with
    ses := { finished := false, win := [], pend := [], tokbuf := [], freqL := Vector.replicate 286 0,
             freqD := Vector.replicate 30 0, codeL := fixedCodeL, codeD := fixedCodeD, bp := ⟨0, 0, []⟩,
             bytesProcessed := 0, bytesOutput := 0 }
    code := .ok, consumed := 0, written := 0, inPort := [], outPort := [], running := none }

/-- O19. CFG_LEVEL loads R100's row and resets the session for LEVEL 0..9, and is refused with ERR_CONFIG, changing
nothing else, for LEVEL 10..15 (R97, R100, R115). -/
def Obligations.CfgLevelResult : Prop :=
  ∀ (s : State) (level : BitVec 4),
    (∀ ws mm mc tm, (level.toNat, ws, mm, mc, tm) ∈
        ([(0, 0, 258, 0, 0), (1, 4096, 32, 4, 0), (2, 8192, 64, 8, 1), (3, 8192, 128, 16, 1), (4, 16384, 258, 32, 1),
          (5, 32768, 258, 64, 1), (6, 32768, 258, 256, 1), (7, 32768, 258, 512, 1), (8, 32768, 258, 1024, 1),
          (9, 32768, 258, 4096, 1)] : List (Nat × BitVec 16 × BitVec 9 × BitVec 16 × BitVec 2)) →
      exec (.cfgLevel level) s = .next { s with
        cfg := ⟨level, ws, mm, mc, tm⟩, ses := Session.fresh
        code := .ok, consumed := 0, written := 0, inPort := [], outPort := [], running := none }) ∧
    (9 < level.toNat → exec (.cfgLevel level) s = .next { s with
      code := .config, consumed := 0, written := 0, inPort := [], outPort := [], running := none })

/-- O20. CFG_SET sets the one parameter PSEL names, if VAL is in its range, and resets the session; otherwise it is
refused with ERR_CONFIG and changes nothing else (R97, R101, R115). -/
def Obligations.CfgSetResult : Prop :=
  ∀ (s : State) (psel : BitVec 4) (val : BitVec 16),
    let accepted := fun cfg : Cfg => Host.Outcome.next { s with
      cfg := cfg, ses := Session.fresh
      code := .ok, consumed := 0, written := 0, inPort := [], outPort := [], running := none }
    let refused := Host.Outcome.next { s with
      code := .config, consumed := 0, written := 0, inPort := [], outPort := [], running := none }
    exec (.cfgSet psel val) s =
      if psel = 0 then if val.toNat ≤ 32768 then accepted { s.cfg with windowSize := val } else refused
      else if psel = 1 then
        if 3 ≤ val.toNat ∧ val.toNat ≤ 258 then accepted { s.cfg with maxLazyMatch := val.setWidth 9 } else refused
      else if psel = 2 then accepted { s.cfg with maxChainLength := val }
      else if psel = 3 then
        if val.toNat ≤ 2 then accepted { s.cfg with tblMode := val.setWidth 2 } else refused
      else refused

/-- O21. The host commands the block refuses with ERR_CONFIG are exactly the ill-formed ones (R48, R49, R112). -/
def Obligations.RefusedIffIllFormed : Prop :=
  ∀ (s : State) (i : Instr), i.isUnitOp = false → s.code ≠ .config →
    ((∃ t, exec i s = .next t ∧ t.code = .config) ↔ wellFormed i = false)

/-- O22. A CHUNK in the Finished state is an `ok` no-op whatever its input and capacity; in the Active state non-empty
input with OUT_CAP = 0, and output that does not fit OUT_CAP, are ERR_OUTPUT_CAPACITY with nothing else changed (R102
steps 1, 2 and 7, R103, R106, R114). -/
def Obligations.ChunkTurnedAway : Prop :=
  ∀ (s : State) (fin : Bool), s.inLen.toNat ≤ s.inPort.length →
    (s.ses.finished = true → exec (.chunk fin) s = .next { s with
      code := .ok, consumed := 0, written := 0, inPort := [], outPort := [], running := none }) ∧
    (s.ses.finished = false →
      (s.inLen ≠ 0 ∧ s.outCap = 0) ∨
        s.outCap.toNat < (compressSlice 2048 s.cfg s.ses fin (s.inPort.take s.inLen.toNat)).bp.outq.length →
      exec (.chunk fin) s = .next { s with
        code := .outputCapacity, consumed := 0, written := 0, inPort := [], outPort := [], running := none })

/-- O23. CHUNK's operation: match finding, tokens counted and cut into units of 2048, the final block and the flush when
FIN = 1, the drain, the counters and the flag (R97, R102, R104, R105). -/
def Obligations.ChunkOperation : Prop :=
  ∀ (s : State) (fin : Bool), s.inLen.toNat ≤ s.inPort.length → s.ses.finished = false →
    ¬(s.inLen ≠ 0 ∧ s.outCap = 0) →
    let out := mfEncode s.cfg s.ses.win s.ses.pend (s.inPort.take s.inLen.toNat) fin
    let cut := out.tokens.foldl
      (fun ses tok =>
        let ses := hcCount { ses with tokbuf := ses.tokbuf ++ [tok] } tok
        if ses.tokbuf.length = 2048 then hcEncode s.cfg false ses else ses)
      { s.ses with win := out.win, pend := out.pend }
    let done :=
      if fin = true then
        let last := hcEncode s.cfg true cut
        { last with bp := ⟨0, 0, last.bp.outq ++ [BitVec.ofNat 8 (last.bp.acc &&& 0xFF)]⟩ }
      else cut
    done.bp.outq.length ≤ s.outCap.toNat →
    exec (.chunk fin) s = .next { s with
      ses := { done with
        bp := ⟨done.bp.acc, done.bp.nbits, []⟩
        bytesProcessed := s.ses.bytesProcessed + s.inLen.setWidth 64
        bytesOutput := s.ses.bytesOutput + BitVec.ofNat 64 done.bp.outq.length
        finished := fin }
      code := .ok, consumed := s.inLen, written := BitVec.ofNat 32 done.bp.outq.length
      inPort := [], outPort := done.bp.outq, running := none }

/-- O24. A CHUNK does to the session what `chunkSession` with UNIT_TOKENS = 2048 does, the function whose runs O14, O15 and
O16 speak of. It ends `ok` or with ERR_OUTPUT_CAPACITY; on `ok` in the Active state it has consumed all its
input, written no more than OUT_CAP, advanced both counters by exactly those numbers, and set FINISHED iff FIN = 1;
CFG, IN_LEN, OUT_CAP and everything outside the session and the results are unchanged (R16, R105, R107). -/
def Obligations.ChunkAccounting : Prop :=
  ∀ (s : State) (fin : Bool), s.inLen.toNat ≤ s.inPort.length → s.ses.finished = false →
    ∃ t, exec (.chunk fin) s = .next t ∧
      (∀ r, chunkSession 2048 s.cfg s.ses fin (s.inPort.take s.inLen.toNat) s.outCap.toNat = some r →
        t.code = .ok ∧ t.ses = r.ses ∧ t.outPort = r.bytes) ∧
      (chunkSession 2048 s.cfg s.ses fin (s.inPort.take s.inLen.toNat) s.outCap.toNat = none →
        t.code = .outputCapacity) ∧
      t = { s with ses := t.ses, code := t.code, consumed := t.consumed, written := t.written, inPort := [],
                   outPort := t.outPort, running := none } ∧
      (t.code = .ok ∧ t.consumed = s.inLen ∧ t.written.toNat = t.outPort.length ∧
          t.outPort.length ≤ s.outCap.toNat ∧
          t.ses.bytesProcessed = s.ses.bytesProcessed + s.inLen.setWidth 64 ∧
          t.ses.bytesOutput = s.ses.bytesOutput + t.written.setWidth 64 ∧ t.ses.finished = fin ∧ t.ses.bp.outq = []
        ∨ t.code = .outputCapacity ∧ t.consumed = 0 ∧ t.written = 0 ∧ t.outPort = [] ∧ t.ses = s.ses)

/-- O25. Output bound: a CHUNK that is offered R126's bound ends `ok`, with table mode FIXED or AUTO (31, 11 and 10 bits
a buffered token, a new byte and a block) and with CUSTOM (48, 16 and 1282 bits); the last block counts only when
finishing (R126). -/
def Obligations.ChunkFitsBound : Prop :=
  ∀ (s : State) (fin : Bool), s.good → s.inLen.toNat ≤ s.inPort.length → s.ses.finished = false →
    let t0 := s.ses.tokbuf.length
    let p0 := s.ses.pend.length
    let n := s.inLen.toNat
    let blocks := (t0 + p0 + n) / 2048 + if fin = true then 1 else 0
    let bits :=
      if s.cfg.tblMode = 2 then s.ses.bp.nbits + 48 * t0 + 16 * (p0 + n) + 1282 * blocks
      else s.ses.bp.nbits + 31 * t0 + 11 * (p0 + n) + 10 * blocks
    bits / 8 + 1 ≤ s.outCap.toNat →
    ∃ t, exec (.chunk fin) s = .next t ∧ t.code = .ok ∧ t.consumed = s.inLen

/-- O26. A command that ends with an error has changed STATUS.CODE, CONSUMED, WRITTEN and emptied both ports, and
nothing else, whether it ran when CMD was written or after waiting for its input (R115). -/
def Obligations.FailedCommandChangesNothing : Prop :=
  ∀ s t : State, s.unitWord = none → step s = .next t → t.running = none → t.code ≠ .ok →
    (∀ w rest, takesCommand w rest s → t = { s with
      host := rest, code := t.code, consumed := 0, written := 0, inPort := [], outPort := [], running := none }) ∧
    (∀ r, readyChunk s = some r → t = { s with
      code := t.code, consumed := 0, written := 0, inPort := [], outPort := [], running := none })

/-! ### Unit WIN -/

/-- O27. WIN_EXTEND writes the last `min(|X|, window_size)` bytes of `X = WIN ++ bytes` to WIN, and nothing else
(R64). -/
def Obligations.WinExtendResult : Prop :=
  ∀ s : State,
    let x := s.ses.win ++ s.unitArgs.bytes
    exec .winExtend s = .next { s with
      ses := { s.ses with win := x.drop (x.length - min x.length s.cfg.windowSize.toNat) }
      unitResult := .none }

/-- O28. Extending by `a` and then by `b` is extending once by `a ++ b`, and the window never exceeds its capacity
(R21, R64). -/
def Obligations.WindowExtendPiecewise : Prop :=
  ∀ (ws : Nat) (win a b : List Byte),
    windowExtend ws (windowExtend ws win a) b = windowExtend ws win (a ++ b) ∧ (windowExtend ws win a).length ≤ ws

/-- O29. WIN_SLICE returns WIN, changes no other state; it returns [] after a reset and, in a sound state, whenever
window_size is 0 (R65). -/
def Obligations.WinSliceResult : Prop :=
  (∀ s : State, exec .winSlice s = .next { s with unitResult := .slice s.ses.win }) ∧
  exec .winSlice State.reset = .next { State.reset with unitResult := .slice [] } ∧
  ∀ s : State, s.sound → s.cfg.windowSize = 0 → exec .winSlice s = .next { s with unitResult := .slice [] }

/-! ### Unit MF -/

/-- O30. The hash of a buffer position is R66's function of its three bytes, a 15-bit value, none where fewer than three
bytes are left; it is not injective (R66). -/
def Obligations.PositionHash : Prop :=
  (∀ (buf : List Byte) (i : Nat) (b0 b1 b2 : Byte),
    buf[i]? = some b0 → buf[i + 1]? = some b1 → buf[i + 2]? = some b2 →
    hashAt (buf.drop i) =
      some (((b0.toNat <<< 10) ^^^ (b1.toNat <<< 5) ^^^ b2.toNat) &&& 0x7FFF)) ∧
  (∀ (buf : List Byte) (i : Nat), buf.length ≤ i + 2 → hashAt (buf.drop i) = none) ∧
  (∀ b0 b1 b2 : Byte, hash3 b0 b1 b2 < 2 ^ 15) ∧
  hash3 0x61 0x62 0x63 = 0x0823 ∧ hash3 0x41 0x62 0x63 = 0x0823

/-- O31. The candidate list of a cursor: the positions `p - maxdist .. p - 1` with the cursor's hash, in decreasing
order, cut to the first `mc`, each with the buffer from that position on (R67). -/
def Obligations.CandidateList : Prop :=
  ∀ (ws mc p : Nat) (buf : List Byte), p + 3 ≤ buf.length →
    candidates ws mc (buf.take p).reverse (buf.drop p) =
      ((((List.range' (p - min p ws) (min p ws)).reverse.filter
          fun q => hashAt (buf.drop q) == hashAt (buf.drop p)).take mc).map fun q => (p - q, buf.drop q))

/-- O32. The candidate length is the greatest `n` in `0..cap` such that the two byte sequences agree in their first `n`
bytes, the comparison running on into the lookahead but never past the buffer's end; `cap` is at least 3 where three
bytes are ahead and `mm` is at least 3 (R68). -/
def Obligations.CandidateLength : Prop :=
  ∀ (buf : List Byte) (mm q p : Nat), q < p → p ≤ buf.length →
    let cap := min mm (buf.length - p)
    let n := matchLen cap (buf.drop q) (buf.drop p)
    n ≤ cap ∧ (∀ k < n, buf[q + k]? = buf[p + k]?) ∧
    (∀ m ≤ cap, (∀ k < m, buf[q + k]? = buf[p + k]?) → m ≤ n) ∧
    (∀ more : List Byte, matchLen cap ((buf ++ more).drop q) ((buf ++ more).drop p) = n) ∧
    (3 ≤ mm → p + 3 ≤ buf.length → 3 ≤ cap)

/-- O33. MF_SEARCH finds the longest candidate, among equally long ones the nearest, within its bounds, and NONE exactly
when no candidate reaches length 3 (R69). -/
def Obligations.SearchFindsNearestLongest : Prop :=
  ∀ (cfg : Cfg) (buf : List Byte) (p e : Nat), e ≤ buf.length →
    let ahead := (buf.take e).drop p
    let cap := min cfg.mm (e - p)
    let cands := candidates cfg.ws cfg.mc (buf.take p).reverse ahead
    (∀ l d, mfSearch cfg buf p e = some (l, d) →
      3 ≤ l ∧ l ≤ cap ∧ 1 ≤ d ∧ d ≤ min p cfg.ws ∧
      (∃ c ∈ cands, c.1 = d ∧ matchLen cap c.2 ahead = l) ∧
      ∀ c ∈ cands, matchLen cap c.2 ahead ≤ l ∧ (matchLen cap c.2 ahead = l → d ≤ c.1)) ∧
    (mfSearch cfg buf p e = none → ∀ c ∈ cands, matchLen cap c.2 ahead < 3)

/-- O34. MF_SEARCH and MF_STEP issued with a cursor inside a buffer return R69's and R70's results and change no state;
one that would read outside its buffer is a fault (R33, R69, R70, R74; log entry 13). -/
def Obligations.SearchAndStepComplete : Prop :=
  ∀ s : State,
    let a := s.unitArgs
    (a.limit ≤ a.buf.length →
      exec .mfSearch s = .next { s with unitResult := .found (mfSearch s.cfg a.buf a.cursor a.limit) }) ∧
    (a.limit ≤ a.buf.length → a.cursor < a.limit →
      exec .mfStep s = .next { s with
        unitResult := .stepped (mfStep s.cfg a.buf a.cursor a.limit).1 (mfStep s.cfg a.buf a.cursor a.limit).2 }) ∧
    (a.buf.length < a.limit → 3 ≤ a.limit - a.cursor → s.cfg.windowSize ≠ 0 → s.cfg.maxChainLength ≠ 0 →
      exec .mfSearch s = .fault .readOutside ∧ exec .mfStep s = .fault .readOutside)

/-- O35. MF_STEP's decision (R70): a literal when the search finds nothing or when, the match being shorter than
`max_lazy_match` and a next position existing, the search one byte later finds a strictly longer one; else the match.
Its token is valid and within the window's bound, and covers at most the lookahead (R70, R75, R76). -/
def Obligations.StepDecidesAndIsValid : Prop :=
  ∀ (cfg : Cfg) (buf : List Byte) (p e : Nat), cfg.legal → p < e → e ≤ buf.length →
    let literal := (Token.lit (buf.getD p 0), 1)
    (mfSearch cfg buf p e = none → mfStep cfg buf p e = literal) ∧
    (∀ l d, mfSearch cfg buf p e = some (l, d) →
      ((l < cfg.mm ∧ p + 1 < e ∧ ∃ l1 d1, mfSearch cfg buf (p + 1) e = some (l1, d1) ∧ l < l1) →
        mfStep cfg buf p e = literal) ∧
      (¬(l < cfg.mm ∧ p + 1 < e ∧ ∃ l1 d1, mfSearch cfg buf (p + 1) e = some (l1, d1) ∧ l < l1) →
        mfStep cfg buf p e = (matchToken l d, l))) ∧
    Token.legal cfg (mfStep cfg buf p e).1 = true ∧
    tokenCovers (mfStep cfg buf p e).1 = (mfStep cfg buf p e).2 ∧
    (mfStep cfg buf p e).2 ≤ e - p ∧
    ∀ l3 d1, (mfStep cfg buf p e).1 = .backref l3 d1 → distanceOf d1 ≤ min p cfg.ws

/-- O36. Hold-back: with `max_lazy_match + 1` bytes of lookahead MF_STEP returns what it returns with any longer
lookahead (R71). -/
def Obligations.HoldBackSeesEnough : Prop :=
  ∀ (cfg : Cfg) (buf more : List Byte) (p : Nat), cfg.legal → cfg.mm + 1 ≤ buf.length - p →
    mfStep cfg buf p buf.length = mfStep cfg (buf ++ more) p (buf ++ more).length

/-- O37. With window_size = 0 or max_chain_length = 0 MF_SEARCH returns NONE and MF_STEP a literal at every position,
and MF_ENCODE emits one literal per byte, the hold-back still applying; level 0 selects this mode (R73). -/
def Obligations.LiteralOnlyFallback : Prop :=
  (∀ (cfg : Cfg), cfg.windowSize = 0 ∨ cfg.maxChainLength = 0 →
    (∀ buf p e, mfSearch cfg buf p e = none ∧ mfStep cfg buf p e = (.lit (buf.getD p 0), 1)) ∧
    ∀ (win pend input : List Byte) (finish : Bool),
      let ahead := pend ++ input
      let n := if finish = true then ahead.length else ahead.length - cfg.mm
      (mfEncode cfg win pend input finish).tokens = (ahead.take n).map Token.lit ∧
      (mfEncode cfg win pend input finish).pend = ahead.drop n) ∧
  ∀ cfg, preset 0 = some cfg → cfg.windowSize = 0 ∧ cfg.maxChainLength = 0

/-- O38. MF_ENCODE returns the token sequence and writes WIN and PEND alone (R72). -/
def Obligations.MfEncodeResult : Prop :=
  ∀ s : State,
    let out := mfEncode s.cfg s.ses.win s.ses.pend s.unitArgs.input s.unitArgs.finish
    exec .mfEncode s = .next { s with
      ses := { s.ses with win := out.win, pend := out.pend }, unitResult := .tokens out.tokens }

/-- O39. MF_ENCODE is R72's loop: each token is MF_STEP's at the cursor the tokens before it lead to, a cursor that is
decidable, that is before the end and, unless finishing, with `max_lazy_match + 1` bytes ahead (R71), and the cursor
after the last token is not decidable. WIN is the last `min(p, window_size)` bytes up to that cursor, PEND is the rest;
the rest is empty when finishing and at most `max_lazy_match` long when not (R71, R72). -/
def Obligations.MfEncodeConsumes : Prop :=
  ∀ (cfg : Cfg) (win pend input : List Byte) (finish : Bool), cfg.legal → win.length ≤ cfg.ws →
    let out := mfEncode cfg win pend input finish
    let buf := win ++ pend ++ input
    let e := buf.length
    let decidableCursor := fun p => p < e ∧ (finish = true ∨ cfg.mm + 1 ≤ e - p)
    (∀ ts tok rest, out.tokens = ts ++ tok :: rest →
      let p := win.length + (ts.map tokenCovers).sum
      decidableCursor p ∧ mfStep cfg buf p e = (tok, tokenCovers tok)) ∧
    let last := win.length + (out.tokens.map tokenCovers).sum
    ¬ decidableCursor last ∧ last ≤ e ∧ out.pend = buf.drop last ∧
      out.win = (buf.take last).drop (last - min last cfg.ws) ∧
      (finish = true → out.pend = []) ∧ (finish = false → out.pend.length ≤ cfg.mm)

/-- O40. LZ77 round trip: expanding MF_ENCODE's tokens behind the window gives back the bytes they were made from; no
match refers to a byte outside them (R76, R109). -/
def Obligations.TokensExpandToInput : Prop :=
  ∀ (cfg : Cfg) (win pend input : List Byte) (finish : Bool), cfg.legal →
    let out := mfEncode cfg win pend input finish
    expandTokens win.reverse out.tokens =
      some (win ++ (pend ++ input).take ((pend ++ input).length - out.pend.length)).reverse

/-! ### Unit HC -/

/-- O41. HC_COUNT adds one to the counter of the token's literal/length symbol and, for a match, of its distance symbol,
and changes nothing else; the symbols are those of R79 with the rows of R52 and R53 (R52, R53, R79, R80). -/
def Obligations.HcCountResult : Prop :=
  (∀ s : State, ∃ freqL freqD,
    exec .hcCount s = .next { s with ses := { s.ses with freqL := freqL, freqD := freqD }, unitResult := .none } ∧
    (∀ k < 286, freqL.getD k 0 = s.ses.freqL.getD k 0 + if k = symL s.unitArgs.tok then 1 else 0) ∧
    (∀ k < 30, freqD.getD k 0 = s.ses.freqD.getD k 0 + if some k = symD s.unitArgs.tok then 1 else 0)) ∧
  (∀ b : Byte, symL (.lit b) = b.toNat ∧ symD (.lit b) = none) ∧
  ∀ length distance, 3 ≤ length → length ≤ 258 → 1 ≤ distance → distance ≤ 32768 →
    ∃ r ∈ lengthRows, ∃ q ∈ distanceRows, r.covers length ∧ q.covers distance ∧
      symL (matchToken length distance) = r.symbol ∧ symD (matchToken length distance) = some q.symbol

/-- O42. HC_BUILD, HC_ASSIGN, HC_SELECT, HC_EMIT_HDR, HC_EMIT_TOKEN, HC_EMIT_EOB and HC_ENCODE complete in every state:
the first two return their result and change nothing; HC_SELECT writes the two tables; the emitters write the packer
alone; HC_ENCODE writes the tables and the packer and empties TOKBUF and the counters (R81, R83, R86 to R90). -/
def Obligations.EntropyOperationsComplete : Prop :=
  ∀ s : State,
    exec .hcBuild s = .next { s with unitResult := .lens (hcBuild s.unitArgs.freq) } ∧
    exec .hcAssign s = .next { s with unitResult := .codes (hcAssign (s.unitArgs.lens.map BitVec.toNat)) } ∧
    exec .hcSelect s = .next { s with
      ses := { s.ses with codeL := (hcSelect s.cfg s.ses).1.codeL, codeD := (hcSelect s.cfg s.ses).1.codeD }
      unitResult := .btype (hcSelect s.cfg s.ses).2 } ∧
    exec .hcEmitHdr s = .next { s with
      ses := { s.ses with
        bp := emitHdr s.ses.codeL s.ses.codeD s.unitArgs.final s.unitArgs.btype s.ses.bp }
      unitResult := .none } ∧
    exec .hcEmitToken s = .next { s with
      ses := { s.ses with bp := emitToken s.ses.codeL s.ses.codeD s.ses.bp s.unitArgs.tok }, unitResult := .none } ∧
    exec .hcEmitEob s = .next { s with
      ses := { s.ses with bp := emitEob s.ses.codeL s.ses.bp }, unitResult := .none } ∧
    exec .hcEncode s = .next { s with
      ses := { s.ses with
        codeL := (hcEncode s.cfg s.unitArgs.final s.ses).codeL
        codeD := (hcEncode s.cfg s.unitArgs.final s.ses).codeD
        bp := (hcEncode s.cfg s.unitArgs.final s.ses).bp
        tokbuf := [], freqL := Vector.replicate 286 0, freqD := Vector.replicate 30 0 }
      unitResult := .none }

/-- O43. HC_BUILD is R81's merge: a symbol gets a code length iff it is used; with one used symbol that length is 1; with
more, the length of the `m`-th used symbol is the number of parent links from leaf `m` to the root, the two least nodes
in the order `(weight, id)` being merged until one lives (R81, R82 (a)). -/
def Obligations.HcBuildUsedSymbols : Prop :=
  ∀ freq : List Nat,
    let used := (List.range freq.length).filter fun s => 0 < freq.getD s 0
    (hcBuild freq).length = freq.length ∧
    (∀ s < freq.length, 0 < (hcBuild freq).getD s 0 ↔ 0 < freq.getD s 0) ∧
    (used.length = 1 → ∀ s ∈ used, (hcBuild freq).getD s 0 = 1) ∧
    (2 ≤ used.length →
      ∃ depth, MergeDepths used.length ((List.range used.length).map fun m => (freq.getD (used.getD m 0) 0, m)) depth ∧
        ∀ m < used.length, (hcBuild freq).getD (used.getD m 0) 0 = depth m)

/-- O44. Minimum redundancy: with at least two used symbols the code lengths satisfy the Kraft equality, and no lengths
that give every used symbol a positive length within the Kraft bound have a smaller weighted length (R82 (b), (c)). -/
def Obligations.HcBuildKraft : Prop :=
  ∀ freq : List Nat,
    (2 ≤ freq.countP (0 < ·) →
      (((hcBuild freq).filter (0 < ·)).map fun l => 2 ^ (freq.length - l)).sum = 2 ^ freq.length ∧
      ∀ l ∈ hcBuild freq, l < freq.length) ∧
    ∀ lens : List Nat, (∀ s < freq.length, 0 < freq.getD s 0 → 0 < lens.getD s 0) →
      ((List.range freq.length).map fun s =>
        if 0 < freq.getD s 0 then (1 / 2 : ℚ) ^ lens.getD s 0 else 0).sum ≤ 1 →
      ((List.range freq.length).map fun s => freq.getD s 0 * (hcBuild freq).getD s 0).sum ≤
        ((List.range freq.length).map fun s => freq.getD s 0 * lens.getD s 0).sum

/-- O45. A code of length `L` needs frequencies that sum to at least `F(L + 2)`, so no code of a block is longer than 15
bits (R84; log entry 18: the first clause is stated for two used symbols or more). -/
def Obligations.HcBuildLengthBound : Prop :=
  ∀ freq : List Nat,
    (2 ≤ freq.countP (0 < ·) → ∀ l ∈ hcBuild freq, 0 < l → Nat.fib (l + 2) ≤ freq.sum) ∧
    (freq.sum < 2584 → ∀ l ∈ hcBuild freq, l ≤ 15)

/-- O46. HC_ASSIGN gives R83's codes: the code of a used symbol is the room, in units of its own length, of the codes
before it, shorter lengths first and within a length in ascending symbol order, and an unused symbol's entry is 0. For
any lengths within the Kraft bound the codes fit their lengths, take consecutive values within a length, shorter codes
come numerically first, and no code is a bit-prefix of another symbol's (R83, R85). -/
def Obligations.CanonicalPrefixFree : Prop :=
  ∀ lens : List Nat, (∀ l ∈ lens, l ≤ 15) →
    let codes := hcAssign lens
    codes.length = lens.length ∧
    (∀ j < lens.length, codes.getD j 0 =
      if lens.getD j 0 = 0 then 0
      else (((List.range lens.length).filter fun t =>
          0 < lens.getD t 0 ∧ (lens.getD t 0 < lens.getD j 0 ∨ lens.getD t 0 = lens.getD j 0 ∧ t < j)).map
        fun t => 2 ^ (lens.getD j 0 - lens.getD t 0)).sum) ∧
    (kraft15 lens ≤ 2 ^ 15 →
      (∀ i < lens.length, codes.getD i 0 < 2 ^ lens.getD i 0) ∧
      (∀ i j, i < j → j < lens.length → 0 < lens.getD i 0 → lens.getD j 0 = lens.getD i 0 →
        (∀ k, i < k → k < j → lens.getD k 0 ≠ lens.getD i 0) → codes.getD j 0 = codes.getD i 0 + 1) ∧
      (∀ i j, i < lens.length → j < lens.length → 0 < lens.getD i 0 → lens.getD i 0 < lens.getD j 0 →
        codes.getD i 0 < codes.getD j 0 >>> (lens.getD j 0 - lens.getD i 0)) ∧
      ∀ i j, i < lens.length → j < lens.length → i ≠ j → 0 < lens.getD i 0 → lens.getD i 0 ≤ lens.getD j 0 →
        codes.getD j 0 >>> (lens.getD j 0 - lens.getD i 0) ≠ codes.getD i 0)

/-- O47. The fixed default table holds R54's rows, and they are the canonical codes of R54's lengths over 288 and 32
symbols (R54, R83). -/
def Obligations.FixedTableIsCanonical : Prop :=
  let rowL := fun s : Nat =>
    if s ≤ 143 then (0x30 + s, 8) else if s ≤ 255 then (0x190 + (s - 144), 9)
    else if s ≤ 279 then (s - 256, 7) else (0xC0 + (s - 280), 8)
  (∀ s < 288, fixLenL s = (rowL s).2 ∧ (hcAssign ((List.range 288).map fun s => (rowL s).2)).getD s 0 = (rowL s).1) ∧
  (∀ s < 32, (hcAssign (List.replicate 32 5)).getD s 0 = s) ∧
  (∀ s < 286, ((entry fixedCodeL s).code.toNat, (entry fixedCodeL s).len.toNat) = rowL s) ∧
  (∀ s < 30, ((entry fixedCodeD s).code.toNat, (entry fixedCodeD s).len.toNat) = (s, 5))

/-- O48. HC_SELECT takes the custom table in mode CUSTOM, never in mode FIXED, and in mode AUTO exactly when its bits,
header included, are strictly fewer; it installs the whole table it takes (R86). -/
def Obligations.SelectChoosesCheaper : Prop :=
  ∀ (cfg : Cfg) (ses : Session), cfg.tblMode.toNat ≤ 2 →
    let fl := ses.freqL.toList.map BitVec.toNat
    let fd := ses.freqD.toList.map BitVec.toNat
    let fixed := ((List.range 286).map fun s => fl.getD s 0 * fixLenL s).sum + 5 * fd.sum
    let custom := 1264 + ((List.range 286).map fun s => fl.getD s 0 * (hcBuild fl).getD s 0).sum +
      ((List.range 30).map fun s => fd.getD s 0 * (hcBuild fd).getD s 0).sum
    ((hcSelect cfg ses).2 = 1 ∨ (hcSelect cfg ses).2 = 2) ∧
    ((hcSelect cfg ses).2 = 2 ↔ cfg.tblMode = 2 ∨ cfg.tblMode = 1 ∧ custom < fixed) ∧
    ((hcSelect cfg ses).2 = 1 → (hcSelect cfg ses).1 = { ses with codeL := fixedCodeL, codeD := fixedCodeD }) ∧
    ((hcSelect cfg ses).2 = 2 →
      (∀ s < 286, entry (hcSelect cfg ses).1.codeL s =
        ⟨BitVec.ofNat 15 ((hcAssign (hcBuild fl)).getD s 0), BitVec.ofNat 4 ((hcBuild fl).getD s 0)⟩) ∧
      ∀ s < 30, entry (hcSelect cfg ses).1.codeD s =
        ⟨BitVec.ofNat 15 ((hcAssign (hcBuild fd)).getD s 0), BitVec.ofNat 4 ((hcBuild fd).getD s 0)⟩)

/-- O49. HC_EMIT_HDR writes BFINAL, BTYPE and, for BTYPE 2, the 316 lengths, 3 or 1267 bits (R56, R57, R87). -/
def Obligations.HeaderBits : Prop :=
  ∀ codeL codeD final btype (p : BitPacker), p.ok →
    (emitHdr codeL codeD final btype p).bits = p.bits ++ headerBits codeL codeD final btype ∧
    (emitHdr codeL codeD final btype p).ok ∧
    (headerBits codeL codeD final btype).length = if btype = 2 then 1267 else 3

/-- O50. HC_EMIT_TOKEN writes the token's codes root bit first and its extra bits least significant bit first; a match's
symbols, bases and extra bits are those of the rows of R52 and R53 its length and distance fall in (R40, R52, R53, R58,
R59, R88). -/
def Obligations.TokenBitsAppended : Prop :=
  ∀ codeL codeD (p : BitPacker), p.ok →
    (∀ tok, (emitToken codeL codeD p tok).bits = p.bits ++ tokenBits codeL codeD tok ∧
      (emitToken codeL codeD p tok).ok) ∧
    (∀ b : Byte, (emitToken codeL codeD p (.lit b)).bits = p.bits ++ (entry codeL b.toNat).bits) ∧
    ∀ length distance, 3 ≤ length → length ≤ 258 → 1 ≤ distance → distance ≤ 32768 →
      ∃ r ∈ lengthRows, ∃ q ∈ distanceRows, r.covers length ∧ q.covers distance ∧
        (emitToken codeL codeD p (matchToken length distance)).bits =
          p.bits ++ (entry codeL r.symbol).bits ++ intBits r.extra (length - r.base) ++
            (entry codeD q.symbol).bits ++ intBits q.extra (distance - q.base)

/-- O51. HC_ENCODE writes the bits of one block, header, tokens in order, EOB, with the table HC_SELECT installs for
counters in which EOB counts once (R55, R60, R90). -/
def Obligations.EncodeWritesBlock : Prop :=
  ∀ (cfg : Cfg) (final : Bool) (ses : Session), ses.bp.ok →
    let sel := hcSelect cfg { ses with freqL := ses.freqL.setIfInBounds 256 1 }
    let after := hcEncode cfg final ses
    after.codeL = sel.1.codeL ∧ after.codeD = sel.1.codeD ∧
    after.bp.bits = ses.bp.bits ++ headerBits sel.1.codeL sel.1.codeD final sel.2 ++
      ses.tokbuf.flatMap (tokenBits sel.1.codeL sel.1.codeD) ++ (entry sel.1.codeL 256).bits ∧ after.bp.ok

/-- O52. A unit with zero tokens: with the fixed table, which every mode but CUSTOM takes, the 3 header bits and the
7-bit EOB code; in mode CUSTOM 1268 bits, in which EOB alone has a code, of length 1 and value 0, and no distance has
one (R91). -/
def Obligations.EmptyUnitBits : Prop :=
  ∀ (cfg : Cfg) (final : Bool) (ses : Session), ses.bp.ok → ses.tokbuf = [] →
    ses.freqL = Vector.replicate 286 0 → ses.freqD = Vector.replicate 30 0 →
    let after := hcEncode cfg final ses
    (cfg.tblMode ≠ 2 → after.bp.bits = ses.bp.bits ++ [final, true, false] ++ List.replicate 7 false) ∧
    (cfg.tblMode = 2 →
      after.bp.bits = ses.bp.bits ++ [final, false, true] ++
        (List.range 286).flatMap (fun s => [s == 256, false, false, false]) ++ List.replicate 120 false ++ [false] ∧
      after.bp.bits.length = ses.bp.bits.length + 1268 ∧
      (∀ s < 286, entry after.codeL s = ⟨0, if s = 256 then 1 else 0⟩) ∧
      ∀ s < 30, entry after.codeD s = ⟨0, 0⟩)

/-! ### Unit BP -/

/-- O53. BP_WRITE_BITS appends the low `width` bits of the value, least significant first, to the stream; it leaves at
most 7 pending bits and appends `floor((NBITS + width) / 8)` bytes; bit `8k + i` of a byte stream is bit `i` of its
`k`-th byte (R39, R93, R96). -/
def Obligations.WriteBitsAppends : Prop :=
  (∀ (p : BitPacker) (value width : Nat), p.ok →
    (bpWrite p value width).bits = p.bits ++ intBits width value ∧ (bpWrite p value width).ok ∧
    (bpWrite p value width).outq.length = p.outq.length + (p.nbits + width) / 8) ∧
  ∀ (bytes : List Byte) (k : Nat), k < bytes.length →
    (bytes.getD k 0).toNat = ((List.range 8).map fun i => ((streamBits bytes).getD (8 * k + i) false).toNat * 2 ^ i).sum

/-- O54. BP_WRITE_BITS completes for every width up to 32 and is refused above it (U1); BP_FLUSH appends exactly one
byte and clears ACC and NBITS; BP_DRAIN takes all queued bytes if they fit `cap` and else fails and leaves the packer
untouched; none of them changes anything else (R93, R94, R95). -/
def Obligations.PackerOperations : Prop :=
  ∀ s : State,
    let p := s.ses.bp
    let a := s.unitArgs
    (a.width ≤ 32 → exec .bpWriteBits s = .next { s with
      ses := { s.ses with bp := bpWrite p a.value.toNat a.width }, unitResult := .none }) ∧
    (32 < a.width → exec .bpWriteBits s = .refused .widthAbove32) ∧
    exec .bpFlush s = .next { s with
      ses := { s.ses with bp := ⟨0, 0, p.outq ++ [BitVec.ofNat 8 (p.acc &&& 0xFF)]⟩ }, unitResult := .none } ∧
    (p.outq.length ≤ a.cap.toNat → exec .bpDrain s = .next { s with
      ses := { s.ses with bp := ⟨p.acc, p.nbits, []⟩ }, unitResult := .drained p.outq }) ∧
    (a.cap.toNat < p.outq.length → exec .bpDrain s = .next { s with unitResult := .failed .outputCapacity })

/-! ### The register space -/

/-- O55. What every register reads, in R13's map; a read changes nothing but the bus value, except that a read of
OUT_DATA removes the byte it returns; STATUS.CODE reads R111's numbers (R13, R15 to R18, R36, R41, R43, R111; log entries
2 and 7). -/
def Obligations.RegisterReads : Prop :=
  ([.ok, .insufficientInput, .outputCapacity, .invalidData, .notComplete, .timeBudget, .illegalCmd, .config].map
    fun c => (statusBits c).toNat) = [0, 1, 2, 3, 4, 5, 6, 7] ∧
  ∀ (s : State) (offset : Nat) (rest : List HostEvent), takesEvent s → s.host = .read 4 offset :: rest →
    (∀ v : Word, (offset, v) ∈
        ([(0x00, 0),
          (0x04, BitVec.ofNat 32
            (s.running.isSome.toNat + 2 * s.ses.finished.toNat + 16 * (statusBits s.code).toNat)),
          (0x08, s.inLen), (0x0C, s.outCap), (0x10, s.consumed), (0x14, s.written),
          (0x18, BitVec.ofNat 32 (s.ses.bytesProcessed.toNat % 2 ^ 32)),
          (0x1C, BitVec.ofNat 32 (s.ses.bytesProcessed.toNat / 2 ^ 32)),
          (0x20, BitVec.ofNat 32 (s.ses.bytesOutput.toNat % 2 ^ 32)),
          (0x24, BitVec.ofNat 32 (s.ses.bytesOutput.toNat / 2 ^ 32)),
          (0x28, BitVec.ofNat 32 s.cfg.level.toNat), (0x2C, BitVec.ofNat 32 s.cfg.windowSize.toNat),
          (0x30, BitVec.ofNat 32 s.cfg.maxLazyMatch.toNat), (0x34, BitVec.ofNat 32 s.cfg.maxChainLength.toNat),
          (0x38, BitVec.ofNat 32 s.cfg.tblMode.toNat), (0x3C, 0), (0x40, 0)] : List (Nat × Word)) →
      step s = .next { s with host := rest, readData := v }) ∧
    (0x48 ≤ offset → offset < 256 → offset % 4 = 0 → step s = .next { s with host := rest, readData := 0 }) ∧
    (offset = 0x44 → s.outPort = [] → step s = .next { s with host := rest, readData := 0 }) ∧
    (offset = 0x44 → ∀ b bytes, s.outPort = b :: bytes →
      step s = .next { s with host := rest, readData := BitVec.ofNat 32 b.toNat, outPort := bytes })

/-- O56. What every register write but CMD's does: IN_LEN and OUT_CAP take the word, IN_DATA adds one byte to the input
port, every other register ignores it (R13, R16, R41, R42; log entry 7: the byte is bits 7:0). -/
def Obligations.RegisterWrites : Prop :=
  ∀ (s : State) (offset : Nat) (data : Word) (rest : List HostEvent), takesEvent s →
    s.host = .write 4 offset data :: rest → offset % 4 = 0 → 0 < offset → offset < 256 →
    step s = .next
      (if offset = 0x08 then { s with host := rest, inLen := data }
       else if offset = 0x0C then { s with host := rest, outCap := data }
       else if offset = 0x40 then { s with host := rest, inPort := s.inPort ++ [BitVec.ofNat 8 (data.toNat % 256)] }
       else { s with host := rest })

/-- O57. An access that is not an aligned 32-bit one is refused (R35), and so, as the model has it, is an aligned one at an
offset of 256 or more, which R36 says the block does not decode (log entry 12); a CMD write while BUSY = 1 stalls, the
state unchanged (R14), unless the reset input comes next, which, as the model has it, abandons both (log entry 8). -/
def Obligations.AccessRefusedOrStalled : Prop :=
  ∀ (s : State) (width offset : Nat) (data : Word) (rest : List HostEvent), takesEvent s →
    (s.host = .read width offset :: rest ∨ s.host = .write width offset data :: rest →
      (width ≠ 4 ∨ offset % 4 ≠ 0 → step s = .refused .notAlignedWordAccess) ∧
      (width = 4 → offset % 4 = 0 → 256 ≤ offset → step s = .refused .outsideTheBlock)) ∧
    (s.host = .write 4 0 data :: rest → s.busy = true →
      ((∀ later, rest ≠ .hardReset :: later) → step s = .next s) ∧
      ∀ later, rest = .hardReset :: later → step s = .next { State.reset with host := later })

/-- O58. FINISHED is set only by a CHUNK with FIN = 1, and cleared only by RESET, CFG_LEVEL, CFG_SET or hard reset taken in
this step, as the next event or behind a stalled CMD write (R19, R103, R122; log entry 8: the stalled write is abandoned
with the running command). -/
def Obligations.FinishedSetOnlyByChunk : Prop :=
  ∀ s t : State, step s = .next t →
    (s.ses.finished = false → t.ses.finished = true →
      (∃ r, readyChunk s = some r ∧ r.fin = true) ∨
      ∃ w rest, takesCommand w rest s ∧ hostDecode w = .ok (.chunk true)) ∧
    (s.ses.finished = true → t.ses.finished = false →
      (takesEvent s ∧ ∃ later, s.host = .hardReset :: later) ∨
      (takesEvent s ∧ s.busy = true ∧ ∃ w later, s.host = .write 4 0 w :: .hardReset :: later) ∨
      ∃ w rest i, takesCommand w rest s ∧ hostDecode w = .ok i ∧
        (i = .reset ∨ (∃ level, i = .cfgLevel level) ∨ ∃ psel val, i = .cfgSet psel val))

/-! ### Realisations -/

/-- O59. The ring of R37 holds the window: a ring of length 0 holds the empty window, whatever its RAM and its write
pointer, and appending a byte to a ring that holds WIN gives one that holds `WIN_EXTEND`'s result, its pointers and its
memory's canonical form kept (R37, R64). -/
def Obligations.RingRefinesWindow : Prop :=
  (∀ (ws : Nat) (ram : Memory) (wp : Nat), Memory.wf ram = true → (wp < ws ∨ ws = 0) →
    Ring.ok ws ⟨ram, wp, 0⟩ ∧ Ring.holds ws ⟨ram, wp, 0⟩ []) ∧
  ∀ (ws : Nat) (r : Ring) (win : List Byte) (b : Byte), Ring.ok ws r → Ring.holds ws r win →
    Ring.ok ws (ringAppend ws r b) ∧ Ring.holds ws (ringAppend ws r b) (windowExtend ws win [b])

/-- O60. Walking the hash chains HEAD and PREV visits exactly R67's candidates, in its order, whatever PREV holds after the
session's reset (R28, R67, R78). -/
def Obligations.ChainsYieldCandidates : Prop :=
  ∀ (prev : List (Nat × Option Nat)) (ws mc p : Nat) (stream : List Byte), ws ≤ 32768 → p + 3 ≤ stream.length →
    chainProbes (Chains.afterReset prev) ws mc stream p =
      (candidates ws mc (stream.take p).reverse (stream.drop p)).map fun c => p - c.1
end

