-- ==== Sys2Proof/Laws/Memory.lean ====
section
/-! SUPPORT. Memory (20_memory.md R37): writing keeps the canonical form, a read after a write to the same address
gives the byte written, and a write leaves every other address alone. -/

namespace Sys2Proof.Machine

@[simp] theorem Memory.wf_nil : Memory.wf [] = true := rfl

theorem memRead_none_of_below {mem : Memory} {addr : Nat} (h : ∀ c ∈ mem, addr < c.1) : memRead mem addr = none := by
  induction mem with
  | nil => rfl
  | cons c mem ih =>
    obtain ⟨a, b⟩ := c
    have ha : addr < a := h (a, b) (by simp)
    have hne : a ≠ addr := by omega
    simp only [memRead, hne, if_false]
    exact ih fun c hc => h c (by simp [hc])

theorem memWrite_all_above {mem : Memory} {a addr : Nat} {v : Byte} (h : ∀ c ∈ mem, a < c.1) (ha : a < addr) :
    ∀ c ∈ memWrite mem addr v, a < c.1 := by
  induction mem with
  | nil => simpa [memWrite] using ha
  | cons c mem ih =>
    obtain ⟨a', b⟩ := c
    have h' : a < a' := h (a', b) (by simp)
    have ht : ∀ c ∈ mem, a < c.1 := fun c hc => h c (by simp [hc])
    intro c hc
    simp only [memWrite] at hc
    split at hc
    · rcases List.mem_cons.1 hc with rfl | hc
      · exact ha
      · exact h c hc
    · split at hc
      · rcases List.mem_cons.1 hc with rfl | hc
        · exact ha
        · exact ht c hc
      · rcases List.mem_cons.1 hc with rfl | hc
        · exact h'
        · exact ih ht c hc

theorem memWrite_wf {mem : Memory} (addr : Nat) (v : Byte) (h : Memory.wf mem = true) :
    Memory.wf (memWrite mem addr v) = true := by
  induction mem with
  | nil => rfl
  | cons c mem ih =>
    obtain ⟨a, b⟩ := c
    simp only [Memory.wf, Bool.and_eq_true, List.all_eq_true, decide_eq_true_eq] at h
    obtain ⟨hall, hwf⟩ := h
    simp only [memWrite]
    split
    · next hlt =>
      simp only [Memory.wf, Bool.and_eq_true, List.all_eq_true, decide_eq_true_eq]
      refine ⟨?_, hall, hwf⟩
      intro c hc
      rcases List.mem_cons.1 hc with rfl | hc
      · exact hlt
      · have := hall c hc
        omega
    · split
      · next heq =>
        subst heq
        simp only [Memory.wf, Bool.and_eq_true, List.all_eq_true, decide_eq_true_eq]
        exact ⟨hall, hwf⟩
      · next h1 h2 =>
        simp only [Memory.wf, Bool.and_eq_true, List.all_eq_true, decide_eq_true_eq]
        exact ⟨memWrite_all_above hall (by omega), ih hwf⟩

theorem memRead_memWrite_same (mem : Memory) (addr : Nat) (v : Byte) : memRead (memWrite mem addr v) addr = some v := by
  induction mem with
  | nil => simp [memWrite, memRead]
  | cons c mem ih =>
    obtain ⟨a, b⟩ := c
    simp only [memWrite]
    split
    · simp [memRead]
    · split
      · simp [memRead]
      · next _ h => simpa [memRead, Ne.symm h] using ih

theorem memRead_memWrite_other (mem : Memory) {addr other : Nat} (v : Byte) (h : other ≠ addr) :
    memRead (memWrite mem addr v) other = memRead mem other := by
  induction mem with
  | nil => simp [memWrite, memRead, h.symm]
  | cons c mem ih =>
    obtain ⟨a, b⟩ := c
    simp only [memWrite]
    split
    · simp [memRead, h.symm]
    · split
      · next heq =>
        subst heq
        simp [memRead, h.symm]
      · simp only [memRead, ih]

end Sys2Proof.Machine
end

