-- ==== Sys2Proof/Laws/PerInstr.lean ====
section
/-! SUPPORT. Per instruction: its word carries its row's opcode in bits 7:0 and zeros where its row's format marks `0`
(30_encoding.md R46, R47; spec/opcode_table.json's match and mask). -/

namespace Sys2Proof.Laws

/-- The row's `mask` and `match` in spec/opcode_table.json. -/
def tableRow : Instr → Word × Word
  | .nop => (0xFFFFFFFF, 0x00000000)
  | .reset => (0xFFFFFFFF, 0x00000001)
  | .cfgLevel _ => (0xFFFFF0FF, 0x00000002)
  | .cfgSet _ _ => (0x0000F0FF, 0x00000003)
  | .chunk _ => (0xFFFFFEFF, 0x00000004)
  | .winExtend => (0xFFFFFFFF, 0x00000010)
  | .winSlice => (0xFFFFFFFF, 0x00000011)
  | .mfSearch => (0xFFFFFFFF, 0x00000020)
  | .mfStep => (0xFFFFFFFF, 0x00000021)
  | .mfEncode => (0xFFFFFFFF, 0x00000022)
  | .hcCount => (0xFFFFFFFF, 0x00000030)
  | .hcBuild => (0xFFFFFFFF, 0x00000031)
  | .hcAssign => (0xFFFFFFFF, 0x00000032)
  | .hcSelect => (0xFFFFFFFF, 0x00000033)
  | .hcEmitHdr => (0xFFFFFFFF, 0x00000034)
  | .hcEmitToken => (0xFFFFFFFF, 0x00000035)
  | .hcEmitEob => (0xFFFFFFFF, 0x00000036)
  | .hcEncode => (0xFFFFFFFF, 0x00000037)
  | .bpWriteBits => (0xFFFFFFFF, 0x00000040)
  | .bpFlush => (0xFFFFFFFF, 0x00000041)
  | .bpDrain => (0xFFFFFFFF, 0x00000042)

/-- The instruction's word matches its row of the opcode table. -/
def WordMatchesRow.Statement (i : Instr) : Prop := encode i &&& (tableRow i).1 = (tableRow i).2

namespace WordMatchesRow

theorem nop : Statement .nop := by unfold Statement; decide
theorem reset : Statement .reset := by unfold Statement; decide
theorem cfgLevel (level : BitVec 4) : Statement (.cfgLevel level) := by unfold Statement; revert level; decide +kernel
theorem cfgSet (psel : BitVec 4) (val : BitVec 16) : Statement (.cfgSet psel val) := by
  simp only [Statement, encode, tableRow]
  apply BitVec.eq_of_getElem_eq
  intro k hk
  simp only [BitVec.getElem_and, BitVec.getElem_append]
  by_cases h1 : k < 8
  · interval_cases k <;> simp
  · by_cases h2 : k < 12
    · interval_cases k <;> simp
    · by_cases h3 : k < 16
      · interval_cases k <;> simp
      · interval_cases k <;> simp
theorem chunk (fin : Bool) : Statement (.chunk fin) := by unfold Statement; revert fin; decide
theorem winExtend : Statement .winExtend := by unfold Statement; decide
theorem winSlice : Statement .winSlice := by unfold Statement; decide
theorem mfSearch : Statement .mfSearch := by unfold Statement; decide
theorem mfStep : Statement .mfStep := by unfold Statement; decide
theorem mfEncode : Statement .mfEncode := by unfold Statement; decide
theorem hcCount : Statement .hcCount := by unfold Statement; decide
theorem hcBuild : Statement .hcBuild := by unfold Statement; decide
theorem hcAssign : Statement .hcAssign := by unfold Statement; decide
theorem hcSelect : Statement .hcSelect := by unfold Statement; decide
theorem hcEmitHdr : Statement .hcEmitHdr := by unfold Statement; decide
theorem hcEmitToken : Statement .hcEmitToken := by unfold Statement; decide
theorem hcEmitEob : Statement .hcEmitEob := by unfold Statement; decide
theorem hcEncode : Statement .hcEncode := by unfold Statement; decide
theorem bpWriteBits : Statement .bpWriteBits := by unfold Statement; decide
theorem bpFlush : Statement .bpFlush := by unfold Statement; decide
theorem bpDrain : Statement .bpDrain := by unfold Statement; decide

end WordMatchesRow

end Sys2Proof.Laws
end

