-- ==== Sys2Proof/Laws/State.lean ====
section
/-! SUPPORT. The small lemmas of the state: what each shared update gives in each field, and what it leaves unchanged
(10_state.md R12). -/

namespace Sys2Proof.Machine

/-! `hardReset` -/

@[simp] theorem hardReset_cfg (s : State) : (hardReset s).cfg = State.reset.cfg := rfl
@[simp] theorem hardReset_ses (s : State) : (hardReset s).ses = State.reset.ses := rfl
@[simp] theorem hardReset_inLen (s : State) : (hardReset s).inLen = State.reset.inLen := rfl
@[simp] theorem hardReset_outCap (s : State) : (hardReset s).outCap = State.reset.outCap := rfl
@[simp] theorem hardReset_consumed (s : State) : (hardReset s).consumed = State.reset.consumed := rfl
@[simp] theorem hardReset_written (s : State) : (hardReset s).written = State.reset.written := rfl
@[simp] theorem hardReset_code (s : State) : (hardReset s).code = State.reset.code := rfl
@[simp] theorem hardReset_running (s : State) : (hardReset s).running = State.reset.running := rfl
@[simp] theorem hardReset_inPort (s : State) : (hardReset s).inPort = State.reset.inPort := rfl
@[simp] theorem hardReset_outPort (s : State) : (hardReset s).outPort = State.reset.outPort := rfl
@[simp] theorem hardReset_host (s : State) : (hardReset s).host = s.host := rfl
@[simp] theorem hardReset_readData (s : State) : (hardReset s).readData = State.reset.readData := rfl
@[simp] theorem hardReset_unitWord (s : State) : (hardReset s).unitWord = State.reset.unitWord := rfl
@[simp] theorem hardReset_unitArgs (s : State) : (hardReset s).unitArgs = State.reset.unitArgs := rfl
@[simp] theorem hardReset_unitResult (s : State) : (hardReset s).unitResult = State.reset.unitResult := rfl

/-! `sessionReset` -/

@[simp] theorem sessionReset_cfg (s : State) : (sessionReset s).cfg = s.cfg := rfl
@[simp] theorem sessionReset_ses (s : State) : (sessionReset s).ses = Session.fresh := rfl
@[simp] theorem sessionReset_inLen (s : State) : (sessionReset s).inLen = s.inLen := rfl
@[simp] theorem sessionReset_outCap (s : State) : (sessionReset s).outCap = s.outCap := rfl
@[simp] theorem sessionReset_consumed (s : State) : (sessionReset s).consumed = s.consumed := rfl
@[simp] theorem sessionReset_written (s : State) : (sessionReset s).written = s.written := rfl
@[simp] theorem sessionReset_code (s : State) : (sessionReset s).code = s.code := rfl
@[simp] theorem sessionReset_running (s : State) : (sessionReset s).running = s.running := rfl
@[simp] theorem sessionReset_inPort (s : State) : (sessionReset s).inPort = s.inPort := rfl
@[simp] theorem sessionReset_outPort (s : State) : (sessionReset s).outPort = s.outPort := rfl
@[simp] theorem sessionReset_host (s : State) : (sessionReset s).host = s.host := rfl
@[simp] theorem sessionReset_readData (s : State) : (sessionReset s).readData = s.readData := rfl
@[simp] theorem sessionReset_unitWord (s : State) : (sessionReset s).unitWord = s.unitWord := rfl
@[simp] theorem sessionReset_unitArgs (s : State) : (sessionReset s).unitArgs = s.unitArgs := rfl
@[simp] theorem sessionReset_unitResult (s : State) : (sessionReset s).unitResult = s.unitResult := rfl

/-! `reconfigure` -/

@[simp] theorem reconfigure_cfg (cfg : Cfg) (s : State) : (reconfigure cfg s).cfg = cfg := rfl
@[simp] theorem reconfigure_ses (cfg : Cfg) (s : State) : (reconfigure cfg s).ses = Session.fresh := rfl
@[simp] theorem reconfigure_inLen (cfg : Cfg) (s : State) : (reconfigure cfg s).inLen = s.inLen := rfl
@[simp] theorem reconfigure_outCap (cfg : Cfg) (s : State) : (reconfigure cfg s).outCap = s.outCap := rfl
@[simp] theorem reconfigure_consumed (cfg : Cfg) (s : State) : (reconfigure cfg s).consumed = s.consumed := rfl
@[simp] theorem reconfigure_written (cfg : Cfg) (s : State) : (reconfigure cfg s).written = s.written := rfl
@[simp] theorem reconfigure_code (cfg : Cfg) (s : State) : (reconfigure cfg s).code = s.code := rfl
@[simp] theorem reconfigure_running (cfg : Cfg) (s : State) : (reconfigure cfg s).running = s.running := rfl
@[simp] theorem reconfigure_inPort (cfg : Cfg) (s : State) : (reconfigure cfg s).inPort = s.inPort := rfl
@[simp] theorem reconfigure_outPort (cfg : Cfg) (s : State) : (reconfigure cfg s).outPort = s.outPort := rfl
@[simp] theorem reconfigure_host (cfg : Cfg) (s : State) : (reconfigure cfg s).host = s.host := rfl
@[simp] theorem reconfigure_readData (cfg : Cfg) (s : State) : (reconfigure cfg s).readData = s.readData := rfl
@[simp] theorem reconfigure_unitWord (cfg : Cfg) (s : State) : (reconfigure cfg s).unitWord = s.unitWord := rfl
@[simp] theorem reconfigure_unitArgs (cfg : Cfg) (s : State) : (reconfigure cfg s).unitArgs = s.unitArgs := rfl
@[simp] theorem reconfigure_unitResult (cfg : Cfg) (s : State) : (reconfigure cfg s).unitResult = s.unitResult := rfl

/-! `beginCommand` -/

@[simp] theorem beginCommand_cfg (s : State) : (beginCommand s).cfg = s.cfg := rfl
@[simp] theorem beginCommand_ses (s : State) : (beginCommand s).ses = s.ses := rfl
@[simp] theorem beginCommand_inLen (s : State) : (beginCommand s).inLen = s.inLen := rfl
@[simp] theorem beginCommand_outCap (s : State) : (beginCommand s).outCap = s.outCap := rfl
@[simp] theorem beginCommand_consumed (s : State) : (beginCommand s).consumed = s.consumed := rfl
@[simp] theorem beginCommand_written (s : State) : (beginCommand s).written = s.written := rfl
@[simp] theorem beginCommand_code (s : State) : (beginCommand s).code = s.code := rfl
@[simp] theorem beginCommand_running (s : State) : (beginCommand s).running = s.running := rfl
@[simp] theorem beginCommand_inPort (s : State) : (beginCommand s).inPort = s.inPort := rfl
@[simp] theorem beginCommand_outPort (s : State) : (beginCommand s).outPort = [] := rfl
@[simp] theorem beginCommand_host (s : State) : (beginCommand s).host = s.host := rfl
@[simp] theorem beginCommand_readData (s : State) : (beginCommand s).readData = s.readData := rfl
@[simp] theorem beginCommand_unitWord (s : State) : (beginCommand s).unitWord = s.unitWord := rfl
@[simp] theorem beginCommand_unitArgs (s : State) : (beginCommand s).unitArgs = s.unitArgs := rfl
@[simp] theorem beginCommand_unitResult (s : State) : (beginCommand s).unitResult = s.unitResult := rfl

/-! `waitForInput` -/

@[simp] theorem waitForInput_cfg (fin : Bool) (s : State) : (waitForInput fin s).cfg = s.cfg := rfl
@[simp] theorem waitForInput_ses (fin : Bool) (s : State) : (waitForInput fin s).ses = s.ses := rfl
@[simp] theorem waitForInput_inLen (fin : Bool) (s : State) : (waitForInput fin s).inLen = s.inLen := rfl
@[simp] theorem waitForInput_outCap (fin : Bool) (s : State) : (waitForInput fin s).outCap = s.outCap := rfl
@[simp] theorem waitForInput_consumed (fin : Bool) (s : State) : (waitForInput fin s).consumed = s.consumed := rfl
@[simp] theorem waitForInput_written (fin : Bool) (s : State) : (waitForInput fin s).written = s.written := rfl
@[simp] theorem waitForInput_code (fin : Bool) (s : State) : (waitForInput fin s).code = s.code := rfl
@[simp] theorem waitForInput_running (fin : Bool) (s : State) : (waitForInput fin s).running = some ⟨fin, s.inLen, s.outCap⟩ := rfl
@[simp] theorem waitForInput_inPort (fin : Bool) (s : State) : (waitForInput fin s).inPort = s.inPort := rfl
@[simp] theorem waitForInput_outPort (fin : Bool) (s : State) : (waitForInput fin s).outPort = s.outPort := rfl
@[simp] theorem waitForInput_host (fin : Bool) (s : State) : (waitForInput fin s).host = s.host := rfl
@[simp] theorem waitForInput_readData (fin : Bool) (s : State) : (waitForInput fin s).readData = s.readData := rfl
@[simp] theorem waitForInput_unitWord (fin : Bool) (s : State) : (waitForInput fin s).unitWord = s.unitWord := rfl
@[simp] theorem waitForInput_unitArgs (fin : Bool) (s : State) : (waitForInput fin s).unitArgs = s.unitArgs := rfl
@[simp] theorem waitForInput_unitResult (fin : Bool) (s : State) : (waitForInput fin s).unitResult = s.unitResult := rfl

/-! `finishOk` -/

@[simp] theorem finishOk_cfg (n w : Nat) (bytes : List Byte) (s : State) : (finishOk n w bytes s).cfg = s.cfg := rfl
@[simp] theorem finishOk_ses (n w : Nat) (bytes : List Byte) (s : State) : (finishOk n w bytes s).ses = s.ses := rfl
@[simp] theorem finishOk_inLen (n w : Nat) (bytes : List Byte) (s : State) : (finishOk n w bytes s).inLen = s.inLen := rfl
@[simp] theorem finishOk_outCap (n w : Nat) (bytes : List Byte) (s : State) : (finishOk n w bytes s).outCap = s.outCap := rfl
@[simp] theorem finishOk_consumed (n w : Nat) (bytes : List Byte) (s : State) : (finishOk n w bytes s).consumed = BitVec.ofNat 32 n := rfl
@[simp] theorem finishOk_written (n w : Nat) (bytes : List Byte) (s : State) : (finishOk n w bytes s).written = BitVec.ofNat 32 w := rfl
@[simp] theorem finishOk_code (n w : Nat) (bytes : List Byte) (s : State) : (finishOk n w bytes s).code = .ok := rfl
@[simp] theorem finishOk_running (n w : Nat) (bytes : List Byte) (s : State) : (finishOk n w bytes s).running = none := rfl
@[simp] theorem finishOk_inPort (n w : Nat) (bytes : List Byte) (s : State) : (finishOk n w bytes s).inPort = [] := rfl
@[simp] theorem finishOk_outPort (n w : Nat) (bytes : List Byte) (s : State) : (finishOk n w bytes s).outPort = bytes := rfl
@[simp] theorem finishOk_host (n w : Nat) (bytes : List Byte) (s : State) : (finishOk n w bytes s).host = s.host := rfl
@[simp] theorem finishOk_readData (n w : Nat) (bytes : List Byte) (s : State) : (finishOk n w bytes s).readData = s.readData := rfl
@[simp] theorem finishOk_unitWord (n w : Nat) (bytes : List Byte) (s : State) : (finishOk n w bytes s).unitWord = s.unitWord := rfl
@[simp] theorem finishOk_unitArgs (n w : Nat) (bytes : List Byte) (s : State) : (finishOk n w bytes s).unitArgs = s.unitArgs := rfl
@[simp] theorem finishOk_unitResult (n w : Nat) (bytes : List Byte) (s : State) : (finishOk n w bytes s).unitResult = s.unitResult := rfl

/-! `finishFail` -/

@[simp] theorem finishFail_cfg (c : StatusCode) (s : State) : (finishFail c s).cfg = s.cfg := rfl
@[simp] theorem finishFail_ses (c : StatusCode) (s : State) : (finishFail c s).ses = s.ses := rfl
@[simp] theorem finishFail_inLen (c : StatusCode) (s : State) : (finishFail c s).inLen = s.inLen := rfl
@[simp] theorem finishFail_outCap (c : StatusCode) (s : State) : (finishFail c s).outCap = s.outCap := rfl
@[simp] theorem finishFail_consumed (c : StatusCode) (s : State) : (finishFail c s).consumed = 0 := rfl
@[simp] theorem finishFail_written (c : StatusCode) (s : State) : (finishFail c s).written = 0 := rfl
@[simp] theorem finishFail_code (c : StatusCode) (s : State) : (finishFail c s).code = c := rfl
@[simp] theorem finishFail_running (c : StatusCode) (s : State) : (finishFail c s).running = none := rfl
@[simp] theorem finishFail_inPort (c : StatusCode) (s : State) : (finishFail c s).inPort = [] := rfl
@[simp] theorem finishFail_outPort (c : StatusCode) (s : State) : (finishFail c s).outPort = [] := rfl
@[simp] theorem finishFail_host (c : StatusCode) (s : State) : (finishFail c s).host = s.host := rfl
@[simp] theorem finishFail_readData (c : StatusCode) (s : State) : (finishFail c s).readData = s.readData := rfl
@[simp] theorem finishFail_unitWord (c : StatusCode) (s : State) : (finishFail c s).unitWord = s.unitWord := rfl
@[simp] theorem finishFail_unitArgs (c : StatusCode) (s : State) : (finishFail c s).unitArgs = s.unitArgs := rfl
@[simp] theorem finishFail_unitResult (c : StatusCode) (s : State) : (finishFail c s).unitResult = s.unitResult := rfl

/-! `unitDone` -/

@[simp] theorem unitDone_cfg (x : Session) (r : UnitResult) (s : State) : (unitDone x r s).cfg = s.cfg := rfl
@[simp] theorem unitDone_ses (x : Session) (r : UnitResult) (s : State) : (unitDone x r s).ses = x := rfl
@[simp] theorem unitDone_inLen (x : Session) (r : UnitResult) (s : State) : (unitDone x r s).inLen = s.inLen := rfl
@[simp] theorem unitDone_outCap (x : Session) (r : UnitResult) (s : State) : (unitDone x r s).outCap = s.outCap := rfl
@[simp] theorem unitDone_consumed (x : Session) (r : UnitResult) (s : State) : (unitDone x r s).consumed = s.consumed := rfl
@[simp] theorem unitDone_written (x : Session) (r : UnitResult) (s : State) : (unitDone x r s).written = s.written := rfl
@[simp] theorem unitDone_code (x : Session) (r : UnitResult) (s : State) : (unitDone x r s).code = s.code := rfl
@[simp] theorem unitDone_running (x : Session) (r : UnitResult) (s : State) : (unitDone x r s).running = s.running := rfl
@[simp] theorem unitDone_inPort (x : Session) (r : UnitResult) (s : State) : (unitDone x r s).inPort = s.inPort := rfl
@[simp] theorem unitDone_outPort (x : Session) (r : UnitResult) (s : State) : (unitDone x r s).outPort = s.outPort := rfl
@[simp] theorem unitDone_host (x : Session) (r : UnitResult) (s : State) : (unitDone x r s).host = s.host := rfl
@[simp] theorem unitDone_readData (x : Session) (r : UnitResult) (s : State) : (unitDone x r s).readData = s.readData := rfl
@[simp] theorem unitDone_unitWord (x : Session) (r : UnitResult) (s : State) : (unitDone x r s).unitWord = s.unitWord := rfl
@[simp] theorem unitDone_unitArgs (x : Session) (r : UnitResult) (s : State) : (unitDone x r s).unitArgs = s.unitArgs := rfl
@[simp] theorem unitDone_unitResult (x : Session) (r : UnitResult) (s : State) : (unitDone x r s).unitResult = r := rfl

/-! `withPacker` -/

@[simp] theorem withPacker_finished (x : Session) (p : BitPacker) : (withPacker x p).finished = x.finished := rfl
@[simp] theorem withPacker_win (x : Session) (p : BitPacker) : (withPacker x p).win = x.win := rfl
@[simp] theorem withPacker_pend (x : Session) (p : BitPacker) : (withPacker x p).pend = x.pend := rfl
@[simp] theorem withPacker_tokbuf (x : Session) (p : BitPacker) : (withPacker x p).tokbuf = x.tokbuf := rfl
@[simp] theorem withPacker_freqL (x : Session) (p : BitPacker) : (withPacker x p).freqL = x.freqL := rfl
@[simp] theorem withPacker_freqD (x : Session) (p : BitPacker) : (withPacker x p).freqD = x.freqD := rfl
@[simp] theorem withPacker_codeL (x : Session) (p : BitPacker) : (withPacker x p).codeL = x.codeL := rfl
@[simp] theorem withPacker_codeD (x : Session) (p : BitPacker) : (withPacker x p).codeD = x.codeD := rfl
@[simp] theorem withPacker_bp (x : Session) (p : BitPacker) : (withPacker x p).bp = p := rfl
@[simp] theorem withPacker_bytesProcessed (x : Session) (p : BitPacker) : (withPacker x p).bytesProcessed = x.bytesProcessed := rfl
@[simp] theorem withPacker_bytesOutput (x : Session) (p : BitPacker) : (withPacker x p).bytesOutput = x.bytesOutput := rfl

/-! `mfUpdate` -/

@[simp] theorem mfUpdate_finished (x : Session) (o : MfOut) : (mfUpdate x o).finished = x.finished := rfl
@[simp] theorem mfUpdate_win (x : Session) (o : MfOut) : (mfUpdate x o).win = o.win := rfl
@[simp] theorem mfUpdate_pend (x : Session) (o : MfOut) : (mfUpdate x o).pend = o.pend := rfl
@[simp] theorem mfUpdate_tokbuf (x : Session) (o : MfOut) : (mfUpdate x o).tokbuf = x.tokbuf := rfl
@[simp] theorem mfUpdate_freqL (x : Session) (o : MfOut) : (mfUpdate x o).freqL = x.freqL := rfl
@[simp] theorem mfUpdate_freqD (x : Session) (o : MfOut) : (mfUpdate x o).freqD = x.freqD := rfl
@[simp] theorem mfUpdate_codeL (x : Session) (o : MfOut) : (mfUpdate x o).codeL = x.codeL := rfl
@[simp] theorem mfUpdate_codeD (x : Session) (o : MfOut) : (mfUpdate x o).codeD = x.codeD := rfl
@[simp] theorem mfUpdate_bp (x : Session) (o : MfOut) : (mfUpdate x o).bp = x.bp := rfl
@[simp] theorem mfUpdate_bytesProcessed (x : Session) (o : MfOut) : (mfUpdate x o).bytesProcessed = x.bytesProcessed := rfl
@[simp] theorem mfUpdate_bytesOutput (x : Session) (o : MfOut) : (mfUpdate x o).bytesOutput = x.bytesOutput := rfl

/-! `account` -/

@[simp] theorem account_finished (fin : Bool) (n w : Nat) (x : Session) : (account fin n w x).finished = (x.finished || fin) := rfl
@[simp] theorem account_win (fin : Bool) (n w : Nat) (x : Session) : (account fin n w x).win = x.win := rfl
@[simp] theorem account_pend (fin : Bool) (n w : Nat) (x : Session) : (account fin n w x).pend = x.pend := rfl
@[simp] theorem account_tokbuf (fin : Bool) (n w : Nat) (x : Session) : (account fin n w x).tokbuf = x.tokbuf := rfl
@[simp] theorem account_freqL (fin : Bool) (n w : Nat) (x : Session) : (account fin n w x).freqL = x.freqL := rfl
@[simp] theorem account_freqD (fin : Bool) (n w : Nat) (x : Session) : (account fin n w x).freqD = x.freqD := rfl
@[simp] theorem account_codeL (fin : Bool) (n w : Nat) (x : Session) : (account fin n w x).codeL = x.codeL := rfl
@[simp] theorem account_codeD (fin : Bool) (n w : Nat) (x : Session) : (account fin n w x).codeD = x.codeD := rfl
@[simp] theorem account_bp (fin : Bool) (n w : Nat) (x : Session) : (account fin n w x).bp = x.bp := rfl
@[simp] theorem account_bytesProcessed (fin : Bool) (n w : Nat) (x : Session) : (account fin n w x).bytesProcessed = x.bytesProcessed + BitVec.ofNat 64 n := rfl
@[simp] theorem account_bytesOutput (fin : Bool) (n w : Nat) (x : Session) : (account fin n w x).bytesOutput = x.bytesOutput + BitVec.ofNat 64 w := rfl

/-! `hcCount` -/

@[simp] theorem hcCount_finished (x : Session) (t : Token) : (hcCount x t).finished = x.finished := rfl
@[simp] theorem hcCount_win (x : Session) (t : Token) : (hcCount x t).win = x.win := rfl
@[simp] theorem hcCount_pend (x : Session) (t : Token) : (hcCount x t).pend = x.pend := rfl
@[simp] theorem hcCount_tokbuf (x : Session) (t : Token) : (hcCount x t).tokbuf = x.tokbuf := rfl
@[simp] theorem hcCount_freqL (x : Session) (t : Token) : (hcCount x t).freqL = bump x.freqL (symL t) := rfl
@[simp] theorem hcCount_codeL (x : Session) (t : Token) : (hcCount x t).codeL = x.codeL := rfl
@[simp] theorem hcCount_codeD (x : Session) (t : Token) : (hcCount x t).codeD = x.codeD := rfl
@[simp] theorem hcCount_bp (x : Session) (t : Token) : (hcCount x t).bp = x.bp := rfl
@[simp] theorem hcCount_bytesProcessed (x : Session) (t : Token) : (hcCount x t).bytesProcessed = x.bytesProcessed := rfl
@[simp] theorem hcCount_bytesOutput (x : Session) (t : Token) : (hcCount x t).bytesOutput = x.bytesOutput := rfl

/-! `countEob` -/

@[simp] theorem countEob_finished (x : Session) : (countEob x).finished = x.finished := rfl
@[simp] theorem countEob_win (x : Session) : (countEob x).win = x.win := rfl
@[simp] theorem countEob_pend (x : Session) : (countEob x).pend = x.pend := rfl
@[simp] theorem countEob_tokbuf (x : Session) : (countEob x).tokbuf = x.tokbuf := rfl
@[simp] theorem countEob_freqL (x : Session) : (countEob x).freqL = x.freqL.setIfInBounds 256 1 := rfl
@[simp] theorem countEob_freqD (x : Session) : (countEob x).freqD = x.freqD := rfl
@[simp] theorem countEob_codeL (x : Session) : (countEob x).codeL = x.codeL := rfl
@[simp] theorem countEob_codeD (x : Session) : (countEob x).codeD = x.codeD := rfl
@[simp] theorem countEob_bp (x : Session) : (countEob x).bp = x.bp := rfl
@[simp] theorem countEob_bytesProcessed (x : Session) : (countEob x).bytesProcessed = x.bytesProcessed := rfl
@[simp] theorem countEob_bytesOutput (x : Session) : (countEob x).bytesOutput = x.bytesOutput := rfl

/-! `hcEncode` -/

@[simp] theorem hcEncode_finished (cfg : Cfg) (final : Bool) (x : Session) : (hcEncode cfg final x).finished = x.finished := by
  simp only [hcEncode, hcSelect]; split <;> rfl
@[simp] theorem hcEncode_win (cfg : Cfg) (final : Bool) (x : Session) : (hcEncode cfg final x).win = x.win := by
  simp only [hcEncode, hcSelect]; split <;> rfl
@[simp] theorem hcEncode_pend (cfg : Cfg) (final : Bool) (x : Session) : (hcEncode cfg final x).pend = x.pend := by
  simp only [hcEncode, hcSelect]; split <;> rfl
@[simp] theorem hcEncode_tokbuf (cfg : Cfg) (final : Bool) (x : Session) : (hcEncode cfg final x).tokbuf = [] := rfl
@[simp] theorem hcEncode_freqL (cfg : Cfg) (final : Bool) (x : Session) : (hcEncode cfg final x).freqL = Vector.replicate 286 0 := rfl
@[simp] theorem hcEncode_freqD (cfg : Cfg) (final : Bool) (x : Session) : (hcEncode cfg final x).freqD = Vector.replicate 30 0 := rfl
@[simp] theorem hcEncode_bytesProcessed (cfg : Cfg) (final : Bool) (x : Session) : (hcEncode cfg final x).bytesProcessed = x.bytesProcessed := by
  simp only [hcEncode, hcSelect]; split <;> rfl
@[simp] theorem hcEncode_bytesOutput (cfg : Cfg) (final : Bool) (x : Session) : (hcEncode cfg final x).bytesOutput = x.bytesOutput := by
  simp only [hcEncode, hcSelect]; split <;> rfl

end Sys2Proof.Machine
end

