-- ==== Sys2Proof/Laws/Step.lean ====
section
/-! SUPPORT. Everything a step, a host event, a chunk can do, said once, for later proofs to cite instead of unfolding
the step. -/

namespace Sys2Proof.Machine

/-- What a refused or accepted access is (20_memory.md R35, R36). -/
theorem accessRefusal_eq_none {width offset : Nat} :
    accessRefusal width offset = none ↔ width = 4 ∧ offset % 4 = 0 ∧ offset < 256 := by
  unfold accessRefusal
  split
  · next h => simp only [reduceCtorEq, false_iff]; omega
  · next h => split <;> simp <;> omega

theorem busRead_cases {width offset : Nat} {s t : State} (h : busRead width offset s = .next t) :
    accessRefusal width offset = none ∧ t = afterRead offset { s with readData := readReg offset s } := by
  unfold busRead at h
  split at h
  · cases h
  · next hn => exact ⟨hn, by injection h with h; exact h.symm⟩

theorem busWrite_cases {width offset : Nat} {data : Word} {s t : State} (h : busWrite width offset data s = .next t) :
    accessRefusal width offset = none ∧ t = writeReg offset data s := by
  unfold busWrite at h
  split at h
  · cases h
  · next hn => exact ⟨hn, by injection h with h; exact h.symm⟩

/-- A read changes the data port and the bus value alone. -/
theorem afterRead_cases (offset : Nat) (s : State) :
    afterRead offset s = s ∨ (offset = 0x44 ∧ afterRead offset s = { s with outPort := s.outPort.tail }) := by
  unfold afterRead
  split
  · exact .inr ⟨rfl, rfl⟩
  · exact .inl rfl

/-- A write changes IN_LEN, OUT_CAP or the input port, or nothing. -/
theorem writeReg_cases (offset : Nat) (data : Word) (s : State) :
    writeReg offset data s = s ∨
    (offset = 0x08 ∧ writeReg offset data s = { s with inLen := data }) ∨
    (offset = 0x0C ∧ writeReg offset data s = { s with outCap := data }) ∨
    (offset = 0x40 ∧ writeReg offset data s = { s with inPort := s.inPort ++ [data.extractLsb' 0 8] }) := by
  unfold writeReg
  split
  · exact .inr (.inl ⟨rfl, rfl⟩)
  · exact .inr (.inr (.inl ⟨rfl, rfl⟩))
  · exact .inr (.inr (.inr ⟨rfl, rfl⟩))
  · exact .inl rfl

theorem stalledWrite_cases (rest : List HostEvent) (s : State) :
    stalledWrite rest s = s ∨ ∃ later, rest = .hardReset :: later ∧
      stalledWrite rest s = hardReset { s with host := later } := by
  unfold stalledWrite
  split
  · exact .inr ⟨_, rfl, rfl⟩
  · exact .inl rfl

/-- A word taken from CMD runs an instruction of the host's or ends in ERR_ILLEGAL_CMD. -/
theorem runCommandWord_cases (w : Word) (s : State) :
    (∃ i, hostDecode w = .ok i ∧ runCommandWord w s = exec i s) ∨
    (∃ e, hostDecode w = .error e ∧ runCommandWord w s = .next (illegalCommand s)) := by
  unfold runCommandWord
  split
  · next i h => exact .inl ⟨i, h, rfl⟩
  · next e h => exact .inr ⟨e, h, rfl⟩

theorem hostDecode_isHost {w : Word} {i : Instr} (h : hostDecode w = .ok i) :
    decode w = .ok i ∧ i.isUnitOp = false := by
  unfold hostDecode at h
  split at h
  · next j hj =>
    split at h
    · cases h
    · next hu => cases h; exact ⟨hj, by simpa using hu⟩
  · cases h

theorem unitDecode_isUnit {w : Word} {i : Instr} (h : unitDecode w = some i) :
    decode w = .ok i ∧ i.isUnitOp = true := by
  unfold unitDecode at h
  split at h
  · next j hj =>
    split at h
    · next hu => cases h; exact ⟨hj, hu⟩
    · cases h
  · cases h

theorem readyChunk_eq_some {s : State} {r : RunningChunk} :
    readyChunk s = some r ↔ s.running = some r ∧ inputReady r.inLen s = true := by
  unfold readyChunk
  split
  · next h => simp [h]
  · next q h =>
    split <;> simp_all
    · intro e; subst e; assumption
    · intro e; subst e; simpa using ‹_›

/-- Everything the host's next event can do. -/
theorem takeEvent_cases {s t : State} (h : takeEvent s = .next t) :
    (s.host = [] ∧ t = s) ∨
    (∃ rest, s.host = .hardReset :: rest ∧ t = hardReset { s with host := rest }) ∨
    (∃ width offset rest, s.host = .read width offset :: rest ∧ accessRefusal width offset = none ∧
      t = afterRead offset { s with host := rest, readData := readReg offset { s with host := rest } }) ∨
    (∃ data rest, s.host = .write 4 0 data :: rest ∧ s.busy = true ∧ t = stalledWrite rest s) ∨
    (∃ data rest, s.host = .write 4 0 data :: rest ∧ s.busy = false ∧
      runCommandWord data { s with host := rest } = .next t) ∨
    (∃ width offset data rest, s.host = .write width offset data :: rest ∧ accessRefusal width offset = none ∧
      isCommandWrite width offset = false ∧ t = writeReg offset data { s with host := rest }) := by
  unfold takeEvent at h
  split at h
  · next hh => injection h with h; exact .inl ⟨hh, h.symm⟩
  · next rest hh => injection h with h; exact .inr (.inl ⟨rest, hh, h.symm⟩)
  · next width offset rest hh =>
    obtain ⟨ha, ht⟩ := busRead_cases h
    exact .inr (.inr (.inl ⟨width, offset, rest, hh, ha, ht⟩))
  · next width offset data rest hh =>
    split at h
    · next hc =>
      simp only [isCommandWrite, Bool.and_eq_true, beq_iff_eq] at hc
      obtain ⟨rfl, rfl⟩ := hc
      split at h
      · next hb => injection h with h; exact .inr (.inr (.inr (.inl ⟨data, rest, hh, hb, h.symm⟩)))
      · next hb => exact .inr (.inr (.inr (.inr (.inl ⟨data, rest, hh, by simpa using hb, h⟩))))
    · next hc =>
      obtain ⟨ha, ht⟩ := busWrite_cases h
      exact .inr (.inr (.inr (.inr (.inr ⟨width, offset, data, rest, hh, ha, by simpa using hc, ht⟩))))

/-- Everything a step can do: a unit operation, a running CHUNK whose input has arrived, or the host's next event. -/
theorem step_cases {s t : State} (h : step s = .next t) :
    (∃ w i, s.unitWord = some w ∧ unitDecode w = some i ∧ exec i { s with unitWord := none } = .next t) ∨
    (s.unitWord = none ∧ ∃ r, readyChunk s = some r ∧ t = resumeChunk r s) ∨
    (s.unitWord = none ∧ readyChunk s = none ∧ takeEvent s = .next t) := by
  unfold step turn at h
  split at h
  · next w hw =>
    unfold runUnitWord at h
    split at h
    · next i hi => exact .inl ⟨w, i, hw, hi, h⟩
    · cases h
  · next hw =>
    split at h
    · next r hr => injection h with h; exact .inr (.inl ⟨hw, r, hr, h.symm⟩)
    · next hr => exact .inr (.inr ⟨hw, hr, h⟩)

/-- Everything CHUNK can do on a session (44_pipeline.md R102). -/
theorem chunkSession_cases {u : Nat} {cfg : Cfg} {ses : Session} {fin : Bool} {input : List Byte} {cap : Nat}
    {r : ChunkOk} (h : chunkSession u cfg ses fin input cap = some r) :
    (ses.finished = true ∧ r = ⟨ses, 0, []⟩) ∨
    (ses.finished = false ∧ ¬(input ≠ [] ∧ cap = 0) ∧ (compressSlice u cfg ses fin input).bp.outq.length ≤ cap ∧
      let done := compressSlice u cfg ses fin input
      r = ⟨account fin input.length done.bp.outq.length (withPacker done { done.bp with outq := [] }), input.length,
        done.bp.outq⟩) := by
  unfold chunkSession at h
  split at h
  · next hf => injection h with h; exact .inl ⟨hf, h.symm⟩
  · next hf =>
    split at h
    · cases h
    · next hc =>
      simp only [bpDrain] at h
      split at h
      · cases h
      · next p bytes hd =>
        split at hd
        · cases hd
        · next hlt =>
          simp only [Option.some.injEq, Prod.mk.injEq] at hd
          obtain ⟨rfl, rfl⟩ := hd
          injection h with h
          exact .inr ⟨by simpa using hf, hc, by omega, h.symm⟩

/-- The two outcomes of a CHUNK that runs (R97, R102, R106). -/
theorem runChunk_cases (fin : Bool) (input : List Byte) (cap : Nat) (s : State) :
    (chunkSession Config.unitTokens s.cfg s.ses fin input cap = none ∧
      runChunk fin input cap s = finishFail .outputCapacity s) ∨
    (∃ r, chunkSession Config.unitTokens s.cfg s.ses fin input cap = some r ∧
      runChunk fin input cap s = finishOk r.consumed r.bytes.length r.bytes { s with ses := r.ses }) := by
  unfold runChunk
  split
  · next h => exact .inl ⟨h, rfl⟩
  · next r h => exact .inr ⟨r, h, rfl⟩

/-- CHUNK runs or waits (20_memory.md R42). -/
theorem execChunk_cases (fin : Bool) (s : State) :
    (inputReady s.inLen s = true ∧
      execChunk fin s = .next (runChunk fin (chunkInput s.inLen s) s.outCap.toNat (beginCommand s))) ∨
    (inputReady s.inLen s = false ∧ execChunk fin s = .next (waitForInput fin (beginCommand s))) := by
  have he : inputReady (beginCommand s).inLen (beginCommand s) = inputReady s.inLen s := rfl
  unfold execChunk
  simp only [he]
  split
  · next h => exact .inl ⟨h, rfl⟩
  · next h => exact .inr ⟨by simpa using h, rfl⟩

/-- A unit operation's next state differs in the session and the result bus alone. -/
theorem execUnit_frame {i : Instr} {s t : State} (hu : i.isUnitOp = true) (h : exec i s = .next t) :
    ∃ ses result, t = unitDone ses result s := by
  cases i <;> simp only [Instr.isUnitOp, Bool.false_eq_true] at hu <;> simp only [exec] at h
  case winExtend => injection h with h; exact ⟨_, _, h.symm⟩
  case winSlice => injection h with h; exact ⟨_, _, h.symm⟩
  case mfSearch =>
    unfold execMfSearch at h
    simp only at h
    split at h
    · injection h with h; exact ⟨_, _, h.symm⟩
    · cases h
  case mfStep =>
    unfold execMfStep at h
    simp only at h
    split at h
    · injection h with h; exact ⟨_, _, h.symm⟩
    · cases h
  case mfEncode => injection h with h; exact ⟨_, _, h.symm⟩
  case hcCount => injection h with h; exact ⟨_, _, h.symm⟩
  case hcBuild => injection h with h; exact ⟨_, _, h.symm⟩
  case hcAssign => injection h with h; exact ⟨_, _, h.symm⟩
  case hcSelect => injection h with h; exact ⟨_, _, h.symm⟩
  case hcEmitHdr => injection h with h; exact ⟨_, _, h.symm⟩
  case hcEmitToken => injection h with h; exact ⟨_, _, h.symm⟩
  case hcEmitEob => injection h with h; exact ⟨_, _, h.symm⟩
  case hcEncode => injection h with h; exact ⟨_, _, h.symm⟩
  case bpWriteBits =>
    unfold execBpWriteBits at h
    simp only at h
    split at h
    · injection h with h; exact ⟨_, _, h.symm⟩
    · cases h
  case bpFlush => injection h with h; exact ⟨_, _, h.symm⟩
  case bpDrain =>
    unfold execBpDrain at h
    split at h
    · injection h with h; exact ⟨_, _, h.symm⟩
    · injection h with h; exact ⟨_, _, h.symm⟩

theorem searchInside_inContract (cfg : Cfg) (a : UnitArgs) :
    searchInside cfg (a.inContract .mfSearch cfg) = true := by
  simp only [UnitArgs.inContract]
  split
  · assumption
  · rfl

theorem stepInside_inContract (cfg : Cfg) (a : UnitArgs) : stepInside cfg (a.inContract .mfStep cfg) = true := by
  simp only [UnitArgs.inContract]
  split
  · assumption
  · rfl

/-- The operands `issueUnit` puts on the buses are ones the operation has a meaning for (log entry 3). -/
theorem exec_inContract {i : Instr} (hu : i.isUnitOp = true) (s : State) :
    ∃ t, exec i { s with unitArgs := s.unitArgs.inContract i s.cfg } = .next t := by
  cases i <;> simp only [Instr.isUnitOp, Bool.false_eq_true] at hu <;> simp only [exec]
  case mfSearch => exact ⟨_, if_pos (searchInside_inContract s.cfg s.unitArgs)⟩
  case mfStep => exact ⟨_, if_pos (stepInside_inContract s.cfg s.unitArgs)⟩
  case bpWriteBits => exact ⟨_, if_pos (Nat.min_le_right s.unitArgs.width 32)⟩
  case bpDrain => unfold execBpDrain; split <;> exact ⟨_, rfl⟩
  all_goals exact ⟨_, rfl⟩

/-- Operands an operation completes on are kept as they are (log entry 3). -/
theorem inContract_eq_self {i : Instr} {s t : State} (h : exec i s = .next t) :
    s.unitArgs.inContract i s.cfg = s.unitArgs := by
  cases i <;> simp only [exec] at h <;> simp only [UnitArgs.inContract]
  case mfSearch => unfold execMfSearch at h; simp only at h; split at h <;> simp_all
  case mfStep => unfold execMfStep at h; simp only at h; split at h <;> simp_all
  case bpWriteBits =>
    unfold execBpWriteBits at h
    simp only at h
    split at h
    · next hw => rw [Nat.min_eq_left hw]
    · cases h

end Sys2Proof.Machine
end

