-- ==== Sys2Proof/Laws/Units.lean ====
section
/-! SUPPORT. One lemma per shared function of the units WIN, MF, HC, BP: what it can give, for later proofs to cite. -/

namespace Sys2Proof.Machine

/-! WIN -/

theorem windowExtend_length (ws : Nat) (win bytes : List Byte) :
    (windowExtend ws win bytes).length = min (win.length + bytes.length) ws := by
  simp only [windowExtend, List.length_drop, List.length_append]
  omega

theorem windowAtDistance_eq_some {win : List Byte} {d : Nat} {b : Byte} (h : windowAtDistance win d = some b) :
    1 ≤ d ∧ d ≤ win.length ∧ win[win.length - d]? = some b := by
  unfold windowAtDistance windowRead at h
  split at h
  · next hd => exact ⟨hd.1, hd.2, h⟩
  · cases h

/-! MF -/

@[simp] theorem hashAt_cons3 (a b c : Byte) (l : List Byte) : hashAt (a :: b :: c :: l) = some (hash3 a b c) := rfl

theorem hash3_lt (a b c : Byte) : hash3 a b c < 2 ^ 15 := Nat.and_lt_two_pow _ (by decide)

theorem earlier_length (back suffix : List Byte) (d : Nat) : (earlier back suffix d).length = back.length := by
  induction back generalizing suffix d with
  | nil => rfl
  | cons b back ih => simp [earlier, ih]

/-- The distances of the earlier positions. -/
theorem earlier_fst (back suffix : List Byte) (d : Nat) :
    (earlier back suffix d).map Prod.fst = List.range' d back.length := by
  induction back generalizing suffix d with
  | nil => rfl
  | cons b back ih => simp [earlier, ih, List.range'_succ]

theorem candidates_length_le (ws mc : Nat) (back ahead : List Byte) : (candidates ws mc back ahead).length ≤ mc := by
  simp only [candidates, List.length_take]
  omega

theorem matchLen_le_cap (cap : Nat) (a b : List Byte) : matchLen cap a b ≤ cap := by
  induction cap generalizing a b with
  | zero => simp [matchLen]
  | succ cap ih =>
    match a, b with
    | [], _ => simp [matchLen]
    | _ :: _, [] => simp [matchLen]
    | x :: xs, y :: ys =>
      simp only [matchLen]
      split
      · have := ih xs ys
        omega
      · omega

/-- A probe keeps the best or takes the candidate for being strictly longer (41_match_finder.md R69). -/
theorem probe_cases (cap : Nat) (ahead : List Byte) (best : Nat × Nat) (c : Nat × List Byte) :
    (matchLen cap c.2 ahead ≤ best.1 ∧ probe cap ahead best c = best) ∨
    (best.1 < matchLen cap c.2 ahead ∧ probe cap ahead best c = (matchLen cap c.2 ahead, c.1)) := by
  unfold probe
  by_cases h : best.1 < matchLen cap c.2 ahead
  · exact .inr ⟨h, by simp [h]⟩
  · exact .inl ⟨by omega, by simp [h]⟩

/-- A match found is the best candidate and at least 3 long. -/
theorem mfSearch_eq_some {cfg : Cfg} {buf : List Byte} {p e : Nat} {m : Nat × Nat} (h : mfSearch cfg buf p e = some m) :
    searchNeedsNoRead cfg p e = false ∧ 3 ≤ m.1 ∧ m = searchBest cfg (buf.take p).reverse ((buf.take e).drop p) := by
  unfold mfSearch at h
  split at h
  · cases h
  · next hn =>
    simp only at h
    split at h
    · next h3 =>
      injection h with h
      subst h
      exact ⟨by simpa using hn, h3, rfl⟩
    · cases h

/-- MF_STEP gives the cursor's byte as a literal, or the match its search found (R70). -/
theorem mfStep_cases (cfg : Cfg) (buf : List Byte) (p e : Nat) :
    mfStep cfg buf p e = (.lit (buf.getD p 0), 1) ∨
    ∃ l d, mfSearch cfg buf p e = some (l, d) ∧ mfStep cfg buf p e = (matchToken l d, l) := by
  unfold mfStep
  simp only
  split
  · exact .inl rfl
  · next m0 hm =>
    split
    · exact .inl rfl
    · exact .inr ⟨m0.1, m0.2, hm, rfl⟩

/-- MF_STEP always advances (R72: the loop ends). -/
theorem mfStep_advance_pos (cfg : Cfg) (buf : List Byte) (p e : Nat) : 1 ≤ (mfStep cfg buf p e).2 := by
  rcases mfStep_cases cfg buf p e with h | ⟨l, d, hs, h⟩
  · rw [h]
  · rw [h]
    have h3 : 3 ≤ l := (mfSearch_eq_some hs).2.1
    show 1 ≤ l
    omega

/-! HC -/

theorem depths_length_pos (t : HTree) (d : Nat) : 0 < (depths t d).length := by
  induction t generalizing d with
  | leaf s => simp [depths]
  | node a b iha ihb => simp only [depths, List.length_append]; have := iha (d + 1); omega

theorem addLive_perm (x : HNode) (live : List HNode) : (addLive x live).Perm (x :: live) := by
  induction live with
  | nil => exact .refl _
  | cons y ys ih =>
    simp only [addLive]
    split
    · exact .refl _
    · exact (ih.cons y).trans (.swap x y ys)

@[simp] theorem hcBuild_length (freq : List Nat) : (hcBuild freq).length = freq.length := by simp [hcBuild]

@[simp] theorem assignLoop_length (next lens : List Nat) : (assignLoop next lens).length = lens.length := by
  induction lens generalizing next with
  | nil => rfl
  | cons l lens ih =>
    simp only [assignLoop]
    split <;> simp [ih]

@[simp] theorem hcAssign_length (lens : List Nat) : (hcAssign lens).length = lens.length := by simp [hcAssign]

@[simp] theorem counts_length {n : Nat} (freq : Vector (BitVec 12) n) : (counts freq).length = n := by simp [counts]

/-- HC_SELECT installs a whole table and changes nothing else (42_entropy_coder.md R86). -/
theorem hcSelect_cases (cfg : Cfg) (ses : Session) :
    (wantsCustom cfg.tblMode (counts ses.freqL) (counts ses.freqD) = true ∧
      hcSelect cfg ses = ({ ses with codeL := customTable 286 (hcBuild (counts ses.freqL)),
                                     codeD := customTable 30 (hcBuild (counts ses.freqD)) }, 2)) ∨
    (wantsCustom cfg.tblMode (counts ses.freqL) (counts ses.freqD) = false ∧
      hcSelect cfg ses = ({ ses with codeL := fixedCodeL, codeD := fixedCodeD }, 1)) := by
  unfold hcSelect
  simp only
  split
  · next h => exact .inl ⟨h, rfl⟩
  · next h => exact .inr ⟨by simpa using h, rfl⟩

/-! BP -/

/-- The low `k` bytes of a number, least significant first. -/
def lowBytes : (k acc : Nat) → List Byte
  | 0, _ => []
  | k + 1, acc => BitVec.ofNat 8 (acc &&& 0xFF) :: lowBytes k (acc >>> 8)

@[simp] theorem lowBytes_length (k acc : Nat) : (lowBytes k acc).length = k := by
  induction k generalizing acc with
  | zero => rfl
  | succ k ih => simp [lowBytes, ih]

theorem flushWhole_eq (k : Nat) (p : BitPacker) :
    flushWhole k p = ⟨p.acc >>> (8 * k), p.nbits - 8 * k, p.outq ++ lowBytes k p.acc⟩ := by
  induction k generalizing p with
  | zero => simp [flushWhole, lowBytes]
  | succ k ih =>
    simp only [flushWhole, ih, lowBytes]
    congr 1
    · rw [← Nat.shiftRight_add]; congr 1; omega
    · omega
    · simp

/-- BP_WRITE_BITS in closed form (43_bit_packer.md R93). -/
theorem bpWrite_eq (p : BitPacker) (value width : Nat) :
    bpWrite p value width =
      let a := p.acc ||| ((value &&& (2 ^ width - 1)) <<< p.nbits)
      let k := (p.nbits + width) / 8
      ⟨a >>> (8 * k), (p.nbits + width) % 8, p.outq ++ lowBytes k a⟩ := by
  simp only [bpWrite, flushWhole_eq]
  congr 1
  omega

theorem bpWrite_nbits (p : BitPacker) (value width : Nat) : (bpWrite p value width).nbits = (p.nbits + width) % 8 := by
  rw [bpWrite_eq]

theorem bpDrain_eq_some {p q : BitPacker} {cap : Nat} {bytes : List Byte} (h : bpDrain p cap = some (q, bytes)) :
    p.outq.length ≤ cap ∧ q = { p with outq := [] } ∧ bytes = p.outq := by
  unfold bpDrain at h
  split at h
  · cases h
  · next hlt =>
    simp only [Option.some.injEq, Prod.mk.injEq] at h
    exact ⟨by omega, h.1.symm, h.2.symm⟩

end Sys2Proof.Machine
end

