-- ==== Sys2Proof/Tests/Slice0.lean ====
section
/-! SUPPORT. The model's own tests: expected values from spec/95_test_vectors.md or worked out from the rule cited, and a
witness for every statement with hypotheses. -/

set_option Elab.async false

namespace Sys2Proof.Tests

open Sys2Proof.Machine

/-- A field of the next state. -/
def nextField {α : Type} (o : Host.Outcome State Fault Refusal) (f : State → α) : Option α :=
  match o with
  | .next s => some (f s)
  | .fault _ => none
  | .refused _ => none

/-- The fault of a step. -/
def faultOf (o : Host.Outcome State Fault Refusal) : Option Fault :=
  match o with
  | .next _ => none
  | .fault r => some r
  | .refused _ => none

/-- The refusal of a step. -/
def refusalOf (o : Host.Outcome State Fault Refusal) : Option Refusal :=
  match o with
  | .next _ => none
  | .fault _ => none
  | .refused r => some r

/-! ### Well-formedness: an ill-formed term for each check -/

theorem test_wellFormed_level_bound : wellFormed (.cfgLevel 9) = true ∧ wellFormed (.cfgLevel 10) = false := by decide
theorem test_wellFormed_window_bound :
    wellFormed (.cfgSet 0 32768) = true ∧ wellFormed (.cfgSet 0 32769) = false := by decide
theorem test_wellFormed_lazy_low : wellFormed (.cfgSet 1 3) = true ∧ wellFormed (.cfgSet 1 2) = false := by decide
theorem test_wellFormed_lazy_high : wellFormed (.cfgSet 1 258) = true ∧ wellFormed (.cfgSet 1 259) = false := by decide
theorem test_wellFormed_mode_bound : wellFormed (.cfgSet 3 2) = true ∧ wellFormed (.cfgSet 3 3) = false := by decide
theorem test_wellFormed_psel_bound : wellFormed (.cfgSet 2 65535) = true ∧ wellFormed (.cfgSet 4 0) = false := by decide

/-! ### Decoding: each constructor's word written from R47's formats -/

theorem test_decode_nop : decode 0b00000000000000000000000000000000#32 = .ok .nop := by decide
theorem test_decode_reset : decode 0b00000000000000000000000000000001#32 = .ok .reset := by decide
theorem test_decode_cfgLevel : decode 0b00000000000000000000100100000010#32 = .ok (.cfgLevel 9) := by decide
theorem test_decode_cfgSet : decode 0b00000001000000100000000100000011#32 = .ok (.cfgSet 1 258) := by decide
theorem test_decode_chunk : decode 0b00000000000000000000000100000100#32 = .ok (.chunk true) := by decide
theorem test_decode_winExtend : decode 0b00000000000000000000000000010000#32 = .ok .winExtend := by decide
theorem test_decode_winSlice : decode 0b00000000000000000000000000010001#32 = .ok .winSlice := by decide
theorem test_decode_mfSearch : decode 0b00000000000000000000000000100000#32 = .ok .mfSearch := by decide
theorem test_decode_mfStep : decode 0b00000000000000000000000000100001#32 = .ok .mfStep := by decide
theorem test_decode_mfEncode : decode 0b00000000000000000000000000100010#32 = .ok .mfEncode := by decide
theorem test_decode_hcCount : decode 0b00000000000000000000000000110000#32 = .ok .hcCount := by decide
theorem test_decode_hcBuild : decode 0b00000000000000000000000000110001#32 = .ok .hcBuild := by decide
theorem test_decode_hcAssign : decode 0b00000000000000000000000000110010#32 = .ok .hcAssign := by decide
theorem test_decode_hcSelect : decode 0b00000000000000000000000000110011#32 = .ok .hcSelect := by decide
theorem test_decode_hcEmitHdr : decode 0b00000000000000000000000000110100#32 = .ok .hcEmitHdr := by decide
theorem test_decode_hcEmitToken : decode 0b00000000000000000000000000110101#32 = .ok .hcEmitToken := by decide
theorem test_decode_hcEmitEob : decode 0b00000000000000000000000000110110#32 = .ok .hcEmitEob := by decide
theorem test_decode_hcEncode : decode 0b00000000000000000000000000110111#32 = .ok .hcEncode := by decide
theorem test_decode_bpWriteBits : decode 0b00000000000000000000000001000000#32 = .ok .bpWriteBits := by decide
theorem test_decode_bpFlush : decode 0b00000000000000000000000001000001#32 = .ok .bpFlush := by decide
theorem test_decode_bpDrain : decode 0b00000000000000000000000001000010#32 = .ok .bpDrain := by decide

/-- V2, V4, V8, V9, V15d, V15f: must-be-zero bits. -/
theorem test_decode_must_be_zero :
    [0x00000100, 0x80000001, 0x00001002, 0x00010A02, 0x00001003, 0x00000204].all
      (fun w => (decode w).toOption.isNone) = true := by decide
/-- V15g: reserved opcodes; V15h: unit-operation opcodes from the host. -/
theorem test_hostDecode_refuses :
    [0x00000005, 0x000000FF, 0x00000010, 0x00000022, 0x00000037, 0x00000042].all
      (fun w => (hostDecode w).toOption.isNone) = true := by decide
theorem test_decodeTableWord : decodeTableWord 32 0x00000902 = some (.cfgLevel 9) := by decide
/-- Rows of R52 and R53 at their ends, and the length and distance their least and greatest symbols stand for. -/
theorem witness_class_rows :
    (⟨284, 227, 5, 257⟩ : ClassRow) ∈ lengthRows ∧ (⟨285, 258, 0, 258⟩ : ClassRow) ∈ lengthRows ∧
    (⟨284, 227, 5, 257⟩ : ClassRow).covers 257 ∧ ¬ (⟨284, 227, 5, 257⟩ : ClassRow).covers 258 ∧
    (⟨29, 24577, 13, 32768⟩ : ClassRow) ∈ distanceRows ∧ (⟨29, 24577, 13, 32768⟩ : ClassRow).covers 32768 := by decide
/-- R50's token words. -/
theorem test_tokenWord :
    [.lit 0x41, matchToken 9 1, matchToken 3 3, matchToken 258 32768].map tokenWord =
      [0x00000041, 0x80000009, 0x80020003, 0xFFFF0102] := by decide

/-! ### Host commands (V1 to V15, V61 to V67, P1, P4) -/

/-- A state in which the block takes `w` from CMD. -/
def commandState (w : Word) : State := { State.reset with host := [.write 4 0 w] }

/-- A state in which a CHUNK finds `input` in the input port. -/
def chunkState (input : List Byte) (cap : Word) : State :=
  { State.reset with inLen := BitVec.ofNat 32 input.length, outCap := cap, inPort := input }

/-- "AAAAAAAAAA". -/
def tenAs : List Byte := List.replicate 10 0x41

theorem test_nop_ok : nextField (step (commandState 0)) (fun t => (t.code, t.host)) = some (.ok, []) := by
  decide +kernel
/-- V5. -/
theorem test_cfgLevel_9 : nextField (step (commandState 0x00000902)) (·.cfg) = some ⟨9, 32768, 258, 4096, 1⟩ := by
  decide +kernel
/-- V6, V66. -/
theorem test_cfgLevel_10 :
    nextField (step (commandState 0x00000A02)) (fun t => (t.code, t.cfg)) = some (.config, Cfg.powerOn) := by
  decide +kernel
/-- R101's example. -/
theorem test_cfgSet_lazy_4 : nextField (step (commandState 0x00040103)) (·.cfg) = some ⟨6, 32768, 4, 256, 1⟩ := by
  decide +kernel
/-- V15, V11, V15b, V15c. -/
theorem test_cfgSet_refused :
    [0x00020103, 0x80010003, 0x00030303, 0x00000403].map (fun w => nextField (step (commandState w)) (·.code)) =
      [some .config, some .config, some .config, some .config] := by decide +kernel
/-- V67. -/
theorem test_unit_opcode_in_cmd : nextField (step (commandState 0x00000020)) (·.code) = some .illegalCmd := by
  decide +kernel
/-- R99's example: the Finished state is left, level kept. -/
theorem test_reset_leaves_finished :
    nextField (exec .reset { State.reset with ses := { Session.fresh with finished := true, bytesOutput := 4 } })
      (fun t => (t.ses.finished, t.ses.bytesOutput, t.cfg.level)) = some (false, 0, 6) := by decide +kernel
/-- V43, R102's example: "AAAAAAAAAA" finished at once. -/
theorem test_chunk_finish :
    nextField (exec (.chunk true) (chunkState tenAs 16)) (fun t => (t.code, t.consumed, t.outPort, t.ses.finished)) =
      some (.ok, 10, [0x73, 0x84, 0x03, 0x00], true) := by decide +kernel
/-- V64: one byte too few. -/
theorem test_chunk_capacity :
    nextField (exec (.chunk true) (chunkState tenAs 3)) (fun t => (t.code, t.consumed, t.outPort, t.ses.pend)) =
      some (.outputCapacity, 0, [], []) := by decide +kernel

/-! ### WIN (V16, WIN_SLICE after it) -/

theorem test_windowExtend_v16 : windowExtend 4 [0x61, 0x62, 0x63] [0x64, 0x65, 0x66, 0x67, 0x68] =
    [0x65, 0x66, 0x67, 0x68] := by decide
theorem test_winExtend_window_zero :
    nextField (exec .winExtend { State.reset with
      cfg := { Cfg.powerOn with windowSize := 0 }, unitArgs := { UnitArgs.idle with bytes := [0x63] } })
      (·.ses.win) = some [] := by decide +kernel
theorem test_winSlice_distance :
    (windowAtDistance [0x65, 0x66, 0x67, 0x68] 1, windowAtDistance [0x65, 0x66, 0x67, 0x68] 4,
      windowAtDistance [0x65, 0x66, 0x67, 0x68] 5) = (some 0x68, some 0x65, none) := by decide

/-! ### MF (section 2.3) -/

/-- "abcXbcdeYabcde". -/
def lazyText : List Byte :=
  [0x61, 0x62, 0x63, 0x58, 0x62, 0x63, 0x64, 0x65, 0x59, 0x61, 0x62, 0x63, 0x64, 0x65]

theorem test_hash : (hash3 0x61 0x62 0x63, hash3 0x41 0x41 0x41, hash3 0xFF 0xFF 0xFF, hash3 0x48 0x65 0x6C) =
    (0x0823, 0x0C61, 0x631F, 0x2CCC) := by decide
theorem test_mfSearch : (mfSearch Cfg.powerOn lazyText 9 14, mfSearch Cfg.powerOn lazyText 10 14,
    mfSearch Cfg.powerOn lazyText 11 14) = (some (3, 9), some (4, 6), some (3, 6)) := by decide +kernel
/-- "abcXAbcabcX" at 7: the collision at 4 uses up the one probe. -/
theorem test_mfSearch_probe_count :
    let buf : List Byte := [0x61, 0x62, 0x63, 0x58, 0x41, 0x62, 0x63, 0x61, 0x62, 0x63, 0x58]
    (mfSearch { Cfg.powerOn with maxChainLength := 1 } buf 7 11, mfSearch { Cfg.powerOn with maxChainLength := 2 } buf 7 11)
      = (none, some (4, 7)) := by decide +kernel
theorem test_mfStep_defers :
    nextField (exec .mfStep { State.reset with unitArgs := { UnitArgs.idle with buf := lazyText, cursor := 9, limit := 14 } })
      (·.unitResult) = some (.stepped (.lit 0x61) 1) := by decide +kernel
theorem test_mfStep_matches : mfStep Cfg.powerOn lazyText 10 14 = (matchToken 4 6, 4) := by decide +kernel
/-- V21. -/
theorem test_mfEncode_v21 : (mfEncode Cfg.powerOn [] [] tenAs true).tokens = [.lit 0x41, matchToken 9 1] := by
  decide +kernel
/-- V30d: hold-back with `max_lazy_match = 4`. -/
theorem test_mfEncode_v30d :
    mfEncode { Cfg.powerOn with maxLazyMatch := 4 } [] [] tenAs false =
      ⟨[.lit 0x41, matchToken 4 1, matchToken 4 1], List.replicate 9 0x41, [0x41]⟩ := by decide +kernel
theorem test_mfSearch_outside :
    faultOf (exec .mfSearch { State.reset with unitArgs := { UnitArgs.idle with buf := [1, 2], limit := 3 } }) =
      some .readOutside := by decide +kernel

/-! ### HC (section 2.4) -/

theorem test_lengthClass : [3, 10, 11, 12, 226, 227, 257, 258].map lengthClass = [0, 7, 8, 8, 26, 27, 27, 28] := by decide
theorem test_distanceClass :
    [1, 4, 5, 6, 7, 24576, 24577, 32768].map distanceClass = [0, 3, 4, 4, 5, 28, 29, 29] := by decide
/-- R54: literal 65, EOB, 263, 285, distance 29. -/
theorem test_fixed_codes :
    ([65, 256, 263, 285].map fun s => ((entry fixedCodeL s).code, (entry fixedCodeL s).len)) =
      [(0b01110001, 8), (0, 7), (0b0000111, 7), (0b11000101, 8)] ∧ (entry fixedCodeD 29).code = 0b11101 := by
  decide +kernel
theorem test_hcCount :
    let t := exec .hcCount { State.reset with unitArgs := { UnitArgs.idle with tok := matchToken 9 1 } }
    nextField t (fun s => (s.ses.freqL.getD 263 0, s.ses.freqD.getD 0 0, s.ses.freqL.getD 9 0)) = some (1, 1, 0) := by
  decide +kernel
/-- V31, V33, V35. -/
theorem test_hcBuild : ([[5, 9, 12, 13, 16, 45], [1, 1, 1, 1, 1], [0, 7, 0, 0]].map hcBuild) =
    [[4, 4, 3, 3, 3, 1], [3, 3, 2, 2, 2], [0, 1, 0, 0]] := by decide +kernel
/-- V36a, V36b. -/
theorem test_hcBuild_ties : ([[1, 1, 2], [10, 1, 1, 1, 1, 1, 1]].map hcBuild) = [[2, 2, 1], [1, 4, 4, 4, 4, 3, 3]] := by
  decide +kernel
theorem test_hcAssign : hcAssign [4, 4, 3, 3, 3, 1] = [0b1110, 0b1111, 0b100, 0b101, 0b110, 0] := by decide +kernel
theorem test_hcAssign_gaps : hcAssign [1, 0, 2, 2] = [0, 0, 0b10, 0b11] := by decide +kernel
/-- R86's example: 179 and 180 literals 'a'. -/
theorem test_select_tie_break :
    let freq := fun n => (List.range 286).map fun s => if s = 97 then n else if s = 256 then 1 else 0
    (wantsCustom 1 (freq 179) (List.replicate 30 0), wantsCustom 1 (freq 180) (List.replicate 30 0)) = (false, true) := by
  decide +kernel
theorem test_hcSelect_fixed : nextField (exec .hcSelect State.reset) (·.unitResult) = some (.btype 1) := by
  decide +kernel
/-- R87: HC_EMIT_HDR(1, 1) writes `1 1 0`; R88: Literal(0x41) writes `0 1 1 1 0 0 0 1`. -/
theorem test_emitHdr : (emitHdr fixedCodeL fixedCodeD true 1 ⟨0, 0, []⟩).bits = [true, true, false] := by decide +kernel
theorem test_emitHdr_length : (headerBits fixedCodeL fixedCodeD true 2).length = 1267 := by decide +kernel
theorem test_emitToken_literal : (emitToken fixedCodeL fixedCodeD ⟨0, 0, []⟩ (.lit 0x41)).bits =
    [false, true, true, true, false, false, false, true] := by decide +kernel
/-- R88: Match(12, 6) writes `0 0 0 1 0 0 1`, `1`, `0 0 1 0 0`, `1`. -/
theorem test_emitToken_match : (emitToken fixedCodeL fixedCodeD ⟨0, 0, []⟩ (matchToken 12 6)).bits =
    [false, false, false, true, false, false, true, true, false, false, true, false, false, true] := by decide +kernel
theorem test_emitEob : (emitEob fixedCodeL ⟨0, 0, []⟩).bits = List.replicate 7 false := by decide +kernel
/-- R90's example. -/
theorem test_hcEncode :
    let ses := [Token.lit 0x41, matchToken 9 1].foldl (takeToken 2048 Cfg.powerOn) Session.fresh
    ((hcEncode Cfg.powerOn true ses).bp, (hcEncode Cfg.powerOn true ses).tokbuf) =
      (⟨0, 6, [0x73, 0x84, 0x03]⟩, []) := by decide +kernel

/-! ### BP (section 2.5) -/

/-- V51b. -/
theorem test_bpWrite_v51b : bpWrite ⟨0x3, 3, []⟩ 0x8E 8 = ⟨0x4, 3, [0x73]⟩ := by decide
/-- V53, V54. -/
theorem test_bpWrite_32 : bpWrite ⟨5, 3, []⟩ 0xFFFFFFFF 32 = ⟨0x7, 3, [0xFD, 0xFF, 0xFF, 0xFF]⟩ := by decide
theorem test_bpWrite_masks : bpWrite ⟨0, 0, []⟩ 0x1FF 4 = ⟨0xF, 4, []⟩ := by decide
theorem test_bpWrite_width_33 :
    refusalOf (exec .bpWriteBits { State.reset with unitArgs := { UnitArgs.idle with width := 33 } }) =
      some .widthAbove32 := by decide +kernel
/-- V55, V51f. -/
theorem test_bpFlush : (bpFlush ⟨0, 0, []⟩, bpFlush ⟨0x3, 2, []⟩) = (⟨0, 0, [0x00]⟩, ⟨0, 0, [0x03]⟩) := by decide
/-- V57, V58. -/
theorem test_bpDrain : (bpDrain ⟨0, 0, [0x73, 0x84, 0x03, 0x00]⟩ 3, bpDrain ⟨0, 0, [0x73, 0x84, 0x03, 0x00]⟩ 4) =
    (none, some (⟨0, 0, []⟩, [0x73, 0x84, 0x03, 0x00])) := by decide

/-! ### Units of another size, the register space, the decoder -/

/-- V48: UNIT_TOKENS = 2 (conflict C9), "abcabcabcabc". -/
theorem test_units_of_two :
    (chunkSession 2 Cfg.powerOn Session.fresh true (List.replicate 4 [0x61, 0x62, 0x63]).flatten 16).map (·.bytes) =
      some [0x4A, 0x4C, 0x02, 0x28, 0x19, 0x8E, 0x00, 0x03, 0x00] := by decide +kernel
/-- R109 on V43's and V41's streams. -/
theorem test_inflate_v43 : inflate [0x73, 0x84, 0x03, 0x00] = some tenAs := by decide +kernel
theorem test_inflate_v41 : inflate [0x03, 0x00] = some [] := by decide +kernel
/-- U4: BTYPE 0 and 3 are refused. -/
theorem test_inflate_reserved_btype : (inflate [0x01, 0x00], inflate [0x07, 0x00]) = (none, none) := by decide +kernel
/-- R15: FINISHED in bit 1, CODE in bits 6:4. -/
theorem test_statusWord :
    statusWord { State.reset with code := .config, ses := { Session.fresh with finished := true } } = 0x72 := by
  decide +kernel
/-- R43: a read of OUT_DATA with no byte there returns zero and removes nothing. -/
theorem test_outData_empty :
    nextField (step { State.reset with host := [load 0x44] }) (fun t => (t.readData, t.outPort)) = some (0, []) := by
  decide +kernel
/-- R124's order of a CHUNK, and R63's COMPRESS with a RESET before it. -/
theorem test_compressLine : compressLine [0x41] 16 =
    [.write 4 0x00 0x00000001, .write 4 0x08 1, .write 4 0x0C 16, .write 4 0x00 0x00000104, .write 4 0x40 0x41] := by
  decide
/-- The chunk's bytes may follow its CMD write (R124). -/
theorem test_chunk_waits :
    nextField (exec (.chunk false) { State.reset with inLen := 1 }) (fun t => (t.busy, t.ses.pend)) = some (true, []) := by
  decide +kernel
/-- The host's next event after `withFetchWord` is the word; a unit operation's word goes to its bus. -/
theorem test_withFetchWord_runs :
    (nextField (step (State.reset.withFetchWord 32 0x00000902)) (·.cfg.level),
     nextField (step (State.reset.withFetchWord 32 0x00000041)) (·.ses.bp.outq)) = (some 9, some [0x00]) := by
  decide +kernel

/-- Operands the operation itself completes on are kept (log entry 3): BP_WRITE_BITS(5, 3) with no search buffer. -/
theorem test_issueUnit_keeps_operands :
    let s : State := { State.reset with unitArgs := { UnitArgs.idle with value := 5, width := 3 } }
    nextField (step (s.withFetchWord 32 0x00000040)) (·.ses.bp) = some ⟨5, 3, []⟩ := by decide +kernel

/-! ### Witnesses: a state and operands that meet each statement's hypotheses -/

theorem witness_EncodeOfDecode : decode 0x00000902 = .ok (.cfgLevel 9) := by decide
theorem witness_TokenWordRoundTrip : wordToken 0x80000009 = some (matchToken 9 1) ∧ wordToken 0x00000100 = none := by
  decide
theorem witness_StepRunsCommandWord_legal :
    takesCommand 0x00000104 [] (commandState 0x00000104) ∧ hostDecode 0x00000104 = .ok (.chunk true) :=
  ⟨⟨rfl, rfl, rfl⟩, by decide⟩
theorem witness_StepRunsCommandWord_illegal :
    takesCommand 0x00000005 [] (commandState 0x00000005) ∧ (hostDecode 0x00000005).toOption = none :=
  ⟨⟨rfl, rfl, rfl⟩, by decide⟩
theorem witness_StepRunsUnitWord :
    ({ State.reset with unitWord := some 0x00000042 } : State).unitWord = some 0x00000042 ∧
      unitDecode 0x00000042 = some .bpDrain := by decide
/-- The latched operands run, and IN_LEN and OUT_CAP keep what the host has written since (R14). -/
theorem test_resume_keeps_registers :
    nextField (step { State.reset with running := some ⟨true, 1, 16⟩, inPort := [0x41], inLen := 5, outCap := 0 })
      (fun t => (t.code, t.consumed, t.inLen, t.outCap)) = some (.ok, 1, 5, 0) := by decide +kernel
theorem witness_ChunkWaitsAndResumes_waits :
    ({ State.reset with inLen := 1 } : State).inPort.length < ({ State.reset with inLen := 1 } : State).inLen.toNat := by
  decide

/-- A CHUNK that has waited for one byte, which is there now. -/
def resumable : State := { State.reset with running := some ⟨true, 1, 16⟩, inPort := [0x41] }

theorem witness_ChunkWaitsAndResumes_resumes :
    resumable.unitWord = none ∧ resumable.running = some ⟨true, 1, 16⟩ ∧ (1 : Word).toNat ≤ resumable.inPort.length :=
  ⟨rfl, rfl, by decide⟩
theorem witness_StepAlwaysAnswers :
    (commandState 0x00000005).unitWord = none ∧ nextEventOk (commandState 0x00000005) = true := by decide
theorem witness_HardResetValues :
    let s : State := { State.reset with inLen := 5, host := [.hardReset] }
    takesEvent s ∧ s.host = .hardReset :: [] := ⟨⟨rfl, rfl⟩, rfl⟩

theorem fresh_counted : Session.fresh.counted := by
  constructor
  · intro s hs
    simp [Session.fresh, Vector.getD, hs]
  · intro j hj
    simp [Session.fresh, Vector.getD, hj]

theorem witness_fresh_good : Session.fresh.good Config.unitTokens Cfg.powerOn :=
  ⟨by decide, by decide, by decide, by decide, fresh_counted, by decide, by decide, by decide⟩
theorem witness_StepKeepsGood : (commandState 0).good ∧ ∃ t, step (commandState 0) = .next t :=
  ⟨⟨by decide, witness_fresh_good, by decide, rfl⟩, _, rfl⟩
theorem witness_StepKeepsSound :
    let s : State := { State.reset with unitWord := some 0x00000041 }
    s.sound ∧ ∃ t, step s = .next t := ⟨by decide, _, rfl⟩

/-- What "AAAAAAAAAA", finished at once, gives. -/
theorem tenAs_accepted : (chunkSession 2048 Cfg.powerOn Session.fresh true tenAs 16).isSome = true := by decide +kernel

/-- A finished session of one slice. -/
theorem witness_session :
    ∃ stream out ses, Cfg.powerOn.legal ∧ SessionRun 2048 Cfg.powerOn stream out ses ∧ ses.finished = true ∧
      out.length ≤ 16 := by
  refine ⟨_, _, _, by decide, .chunk .start rfl (Option.eq_some_of_isSome tenAs_accepted), ?_, ?_⟩
  · decide +kernel
  · decide +kernel
theorem witness_CfgLevelResult_row : ((9 : BitVec 4).toNat, (32768 : BitVec 16), (258 : BitVec 9), (4096 : BitVec 16), (1 : BitVec 2)) ∈
    ([(9, 32768, 258, 4096, 1)] : List (Nat × BitVec 16 × BitVec 9 × BitVec 16 × BitVec 2)) := by decide
theorem witness_CfgLevelResult_refused : 9 < (10 : BitVec 4).toNat := by decide
theorem witness_RefusedIffIllFormed :
    (Instr.cfgLevel 10).isUnitOp = false ∧ State.reset.code ≠ .config ∧ wellFormed (.cfgLevel 10) = false := by decide
theorem witness_ChunkTurnedAway_finished :
    let s : State := { chunkState [0x7A, 0x7A] 0 with ses := { Session.fresh with finished := true } }
    s.inLen.toNat ≤ s.inPort.length ∧ s.ses.finished = true := by decide +kernel
theorem witness_ChunkTurnedAway_zero :
    let s := chunkState [0x48] 0
    s.inLen.toNat ≤ s.inPort.length ∧ s.ses.finished = false ∧ s.inLen ≠ 0 ∧ s.outCap = 0 := by decide +kernel
theorem witness_ChunkTurnedAway_drain :
    let s := chunkState tenAs 3
    s.inLen.toNat ≤ s.inPort.length ∧ s.ses.finished = false ∧
      s.outCap.toNat < (compressSlice 2048 s.cfg s.ses true (s.inPort.take s.inLen.toNat)).bp.outq.length := by
  decide +kernel
theorem witness_ChunkAccounting :
    (chunkSession 2048 Cfg.powerOn Session.fresh true tenAs 16).isSome = true ∧
      chunkSession 2048 Cfg.powerOn Session.fresh true tenAs 3 = none := by decide +kernel
theorem witness_ChunkOperation :
    let s := chunkState tenAs 4
    s.inLen.toNat ≤ s.inPort.length ∧ s.ses.finished = false ∧ ¬(s.inLen ≠ 0 ∧ s.outCap = 0) ∧
      (compressSlice 2048 s.cfg s.ses true (s.inPort.take s.inLen.toNat)).bp.outq.length ≤ s.outCap.toNat := by
  decide +kernel
/-- Ten bytes offered exactly R126's bound: FIXED or AUTO not finishing 110 bits, finishing 120; CUSTOM finishing 1442. -/
theorem witness_ChunkFitsBound :
    (chunkState tenAs 14).good ∧ (chunkState tenAs 14).ses.finished = false ∧
    (chunkState tenAs 14).inLen.toNat ≤ (chunkState tenAs 14).inPort.length ∧
    (chunkState tenAs 14).cfg.tblMode ≠ 2 ∧
    (0 + 31 * 0 + 11 * (0 + 10) + 10 * ((0 + 0 + 10) / 2048 + 0)) / 8 + 1 = (chunkState tenAs 14).outCap.toNat ∧
    (0 + 31 * 0 + 11 * (0 + 10) + 10 * ((0 + 0 + 10) / 2048 + 1)) / 8 + 1 = (chunkState tenAs 16).outCap.toNat :=
  ⟨⟨by decide, witness_fresh_good, by decide, rfl⟩, rfl, by decide, by decide, by decide, by decide⟩
theorem witness_ChunkFitsBound_custom :
    let s : State := { chunkState tenAs 181 with cfg := { Cfg.powerOn with tblMode := 2 } }
    s.good ∧ s.ses.finished = false ∧ s.inLen.toNat ≤ s.inPort.length ∧ s.cfg.tblMode = 2 ∧
    (0 + 48 * 0 + 16 * (0 + 10) + 1282 * ((0 + 0 + 10) / 2048 + 1)) / 8 + 1 = s.outCap.toNat :=
  ⟨⟨by decide, ⟨by decide, by decide, by decide, by decide, fresh_counted, by decide, by decide, by decide⟩, by decide,
    rfl⟩, rfl, by decide, rfl, by decide⟩
theorem witness_FailedCommand_written :
    let s := commandState 0x00000A02
    s.unitWord = none ∧ takesCommand 0x00000A02 [] s ∧
      nextField (step s) (fun t => (t.running, t.code)) = some (none, .config) :=
  ⟨rfl, ⟨rfl, rfl, rfl⟩, by decide +kernel⟩
theorem witness_FailedCommand_resumed :
    let s : State := { resumable with running := some ⟨true, 1, 2⟩ }
    readyChunk s = some ⟨true, 1, 2⟩ ∧ nextField (step s) (fun t => (t.running, t.code)) = some (none, .outputCapacity) :=
  ⟨rfl, by decide +kernel⟩
theorem witness_WinSliceResult :
    let s : State := { State.reset with cfg := { Cfg.powerOn with windowSize := 0 } }
    s.sound ∧ s.cfg.windowSize = 0 := by decide
theorem witness_PositionHash : lazyText[11]? = some 0x63 ∧ lazyText[12]? = some 0x64 ∧ lazyText[13]? = some 0x65 ∧
    lazyText.length ≤ 12 + 2 := by decide
theorem witness_CandidateList : 11 + 3 ≤ lazyText.length := by decide
theorem witness_CandidateLength : 4 < 10 ∧ 10 ≤ lazyText.length ∧ 3 ≤ 258 ∧ 10 + 3 ≤ lazyText.length := by decide
theorem witness_SearchFindsNearestLongest_some : 14 ≤ lazyText.length ∧ mfSearch Cfg.powerOn lazyText 10 14 = some (4, 6) := by
  decide +kernel
theorem witness_SearchFindsNearestLongest_none : mfSearch Cfg.powerOn lazyText 3 14 = none := by decide +kernel
theorem witness_SearchAndStepComplete :
    let a : UnitArgs := { UnitArgs.idle with buf := lazyText, cursor := 13, limit := 14 }
    a.limit ≤ a.buf.length ∧ a.cursor < a.limit := by decide
theorem witness_SearchAndStepComplete_outside :
    let a : UnitArgs := { UnitArgs.idle with buf := lazyText, cursor := 12, limit := 15 }
    a.buf.length < a.limit ∧ 3 ≤ a.limit - a.cursor ∧ State.reset.cfg.windowSize ≠ 0 ∧
      State.reset.cfg.maxChainLength ≠ 0 := by decide
theorem witness_StepDecidesAndIsValid :
    Cfg.powerOn.legal ∧ 9 < 14 ∧ 14 ≤ lazyText.length ∧ mfSearch Cfg.powerOn lazyText 9 14 = some (3, 9) ∧
      3 < Cfg.powerOn.mm ∧ 9 + 1 < 14 ∧ mfSearch Cfg.powerOn lazyText (9 + 1) 14 = some (4, 6) := by decide +kernel
theorem witness_StepDecidesAndIsValid_kept :
    mfSearch Cfg.powerOn lazyText 10 14 = some (4, 6) ∧ mfSearch Cfg.powerOn lazyText (10 + 1) 14 = some (3, 6) := by
  decide +kernel
theorem witness_HoldBackSeesEnough :
    let cfg := { Cfg.powerOn with maxLazyMatch := 4 }
    cfg.legal ∧ cfg.mm + 1 ≤ lazyText.length - 9 := by decide
theorem witness_LiteralOnlyFallback :
    ({ Cfg.powerOn with windowSize := 0 } : Cfg).windowSize = 0 ∧ preset 0 = some ⟨0, 0, 258, 0, 0⟩ := by decide
theorem witness_MfEncodeConsumes : Cfg.powerOn.legal ∧ lazyText.length ≤ Cfg.powerOn.ws := by decide
/-- A token with tokens before it (V21), at a cursor that is decidable, and a non-finishing cursor that is not (V30d). -/
theorem witness_MfEncodeConsumes_split :
    (mfEncode Cfg.powerOn [] [] tenAs true).tokens = [.lit 0x41] ++ matchToken 9 1 :: [] ∧ 1 < tenAs.length ∧
    (mfEncode { Cfg.powerOn with maxLazyMatch := 4 } [] [] tenAs false).tokens =
      [.lit 0x41, matchToken 4 1] ++ matchToken 4 1 :: [] ∧ ¬ 4 + 1 ≤ tenAs.length - 9 := by decide +kernel
theorem witness_HcBuildUsedSymbols :
    ((List.range 4).filter fun s => 0 < [0, 7, 0, 0].getD s 0).length = 1 := by decide
/-- R81's merge by hand on the frequencies 1, 0, 1, 2: leaves 0 and 1 (weight 1 each) meet in node 3, then leaf 2 and
node 3, both of weight 2, in the root, the leaf first. -/
theorem witness_HcBuildUsedSymbols_merge :
    ((List.range 4).filter fun s => 0 < [1, 0, 1, 2].getD s 0) = [0, 2, 3] ∧
    MergeDepths 3 [(1, 0), (1, 1), (2, 2)] (fun n => [2, 2, 1, 1, 0].getD n 0) ∧ hcBuild [1, 0, 1, 2] = [2, 0, 2, 1] := by
  refine ⟨by decide, ?_, by decide⟩
  refine .merge (.refl _) (by decide) (by decide) ?_ rfl rfl
  exact .merge (.swap _ _ _) (by decide) (by decide) (.root rfl) rfl rfl
theorem witness_HcBuildKraft : 2 ≤ [1, 1, 2].countP (0 < ·) := by decide
/-- Lengths 1, 2, 2 meet the Kraft bound for the frequencies 1, 1, 2, and weigh 7 against HC_BUILD's 6. -/
theorem witness_HcBuildKraft_lens :
    (∀ s < 3, 0 < [1, 1, 2].getD s 0 → 0 < [1, 2, 2].getD s 0) ∧
    ((List.range 3).map fun s => if 0 < [1, 1, 2].getD s 0 then (1 / 2 : ℚ) ^ [1, 2, 2].getD s 0 else 0).sum ≤ 1 ∧
    ((List.range 3).map fun s => [1, 1, 2].getD s 0 * (hcBuild [1, 1, 2]).getD s 0).sum = 6 := by
  refine ⟨by decide, ?_, by decide⟩
  norm_num [List.range_succ]
theorem witness_HcBuildLengthBound :
    [1, 1, 2, 3, 5, 8, 13, 21, 34, 55, 89, 144, 233, 377, 610, 987].sum < 2584 := by decide
/-- Lengths beyond the Kraft bound, for which the codes are still R83's. -/
theorem witness_CanonicalPrefixFree_over : (∀ l ∈ [1, 1, 1], l ≤ 15) ∧ ¬ kraft15 [1, 1, 1] ≤ 2 ^ 15 := by decide
theorem witness_CanonicalPrefixFree :
    let lens := [4, 4, 3, 3, 3, 1]
    (∀ l ∈ lens, l ≤ 15) ∧ kraft15 lens ≤ 2 ^ 15 ∧ lens.getD 2 0 = lens.getD 3 0 ∧ 0 < lens.getD 2 0 ∧
      0 < lens.getD 5 0 ∧ lens.getD 5 0 < lens.getD 2 0 := by decide
theorem witness_SelectChoosesCheaper : Cfg.powerOn.tblMode.toNat ≤ 2 := by decide
theorem witness_packer_ok : (⟨0x7F, 7, []⟩ : BitPacker).ok ∧ (⟨0, 0, []⟩ : BitPacker).ok := by decide
theorem witness_EmptyUnitBits :
    Session.fresh.bp.ok ∧ Session.fresh.tokbuf = [] ∧ Session.fresh.freqL = Vector.replicate 286 0 ∧
      Session.fresh.freqD = Vector.replicate 30 0 ∧ Cfg.powerOn.tblMode ≠ 2 ∧
      ({ Cfg.powerOn with tblMode := 2 } : Cfg).tblMode = 2 := ⟨by decide, rfl, rfl, rfl, by decide, rfl⟩
theorem witness_PackerOperations :
    ({ UnitArgs.idle with width := 32 } : UnitArgs).width ≤ 32 ∧ 32 < ({ UnitArgs.idle with width := 33 } : UnitArgs).width ∧
      (⟨0, 0, [0x73]⟩ : BitPacker).outq.length ≤ (1 : Word).toNat ∧ (0 : Word).toNat < (⟨0, 0, [0x73]⟩ : BitPacker).outq.length := by
  decide

/-- A state whose next event is a register read. -/
def readState (offset : Nat) (out : List Byte) : State := { State.reset with host := [.read 4 offset], outPort := out }

theorem witness_RegisterReads : takesEvent (readState 0x2C []) ∧ (readState 0x2C []).host = .read 4 0x2C :: [] :=
  ⟨⟨rfl, rfl⟩, rfl⟩
theorem witness_RegisterReads_reserved :
    takesEvent (readState 0xFC []) ∧ 0x48 ≤ 0xFC ∧ 0xFC < 256 ∧ 0xFC % 4 = 0 := ⟨⟨rfl, rfl⟩, by decide⟩
theorem witness_RegisterReads_outData :
    takesEvent (readState 0x44 [0x73]) ∧ (readState 0x44 [0x73]).outPort = 0x73 :: [] ∧ (readState 0x44 []).outPort = [] :=
  ⟨⟨rfl, rfl⟩, rfl, rfl⟩
theorem witness_RegisterWrites :
    let s : State := { State.reset with host := [.write 4 0x40 0x41] }
    takesEvent s ∧ s.host = .write 4 0x40 0x41 :: [] ∧ 0x40 % 4 = 0 ∧ 0 < 0x40 ∧ 0x40 < 256 :=
  ⟨⟨rfl, rfl⟩, rfl, by decide⟩
/-- A state whose next event is `e`. -/
def eventState (e : HostEvent) : State := { State.reset with host := [e] }

theorem witness_AccessRefused : ∀ e : HostEvent, takesEvent (eventState e) ∧ (eventState e).host = e :: [] :=
  fun _ => ⟨⟨rfl, rfl⟩, rfl⟩
/-- R35: a misaligned offset, a width of 2, the last byte of the block. -/
theorem test_access_not_aligned :
    [.read 4 0x02, .write 2 0x00 0, .read 1 0xFF].map (fun e => refusalOf (step (eventState e))) =
      [some .notAlignedWordAccess, some .notAlignedWordAccess, some .notAlignedWordAccess] := by decide +kernel
/-- R36: the last register is the block's, the next word is not (log entry 12). -/
theorem test_access_outside :
    [.read 4 0xFC, .read 4 0x100, .write 4 0x100 0].map (fun e => refusalOf (step (eventState e))) =
      [none, some .outsideTheBlock, some .outsideTheBlock] := by decide +kernel

/-- A CHUNK waits for a byte, and the host writes CMD again. -/
def stalled (rest : List HostEvent) : State :=
  { State.reset with running := some ⟨true, 1, 16⟩, host := .write 4 0 0 :: rest }

theorem witness_Stalled : takesEvent (stalled [.hardReset]) ∧ (stalled [.hardReset]).busy = true ∧
    takesEvent (stalled []) ∧ ∀ later, ([] : List HostEvent) ≠ .hardReset :: later :=
  ⟨⟨rfl, rfl⟩, rfl, ⟨rfl, rfl⟩, by simp⟩
theorem witness_FinishedSetOnlyByChunk :
    let s : State := { State.reset with host := [.write 4 0 0x00000104], outCap := 2 }
    s.ses.finished = false ∧ nextField (step s) (·.ses.finished) = some true := by decide +kernel
theorem witness_FinishedCleared :
    let s : State := { State.reset with
      host := [.write 4 0 0x00000001], ses := { Session.fresh with finished := true } }
    s.ses.finished = true ∧ nextField (step s) (·.ses.finished) = some false := by decide +kernel
theorem witness_FinishedCleared_reset :
    let s : State := { eventState .hardReset with ses := { Session.fresh with finished := true } }
    s.ses.finished = true ∧ takesEvent s ∧ nextField (step s) (·.ses.finished) = some false :=
  ⟨rfl, ⟨rfl, rfl⟩, by decide +kernel⟩
theorem witness_FinishedCleared_stalled :
    let s : State := { stalled [.hardReset] with ses := { Session.fresh with finished := true } }
    s.ses.finished = true ∧ takesEvent s ∧ s.busy = true ∧ nextField (step s) (·.ses.finished) = some false :=
  ⟨rfl, ⟨rfl, rfl⟩, rfl, by decide +kernel⟩
theorem witness_RingRefinesWindow_empty : Memory.wf [(5, 0x41)] = true ∧ (1 < 2 ∨ 2 = 0) := by decide
theorem witness_RingRefinesWindow : Ring.ok 2 Ring.empty ∧ Ring.holds 2 Ring.empty [] :=
  ⟨⟨by decide, .inl (by decide), rfl⟩, rfl, by simp⟩
/-- R37 at a wrap: three bytes into two slots. -/
theorem test_ring_wraps :
    let r := [0x61, 0x62, 0x63].foldl (ringAppend 2) Ring.empty
    (r.wp, r.wlen, ringRead 2 r 0, ringRead 2 r 1, ringRead 2 r 2) = (1, 2, some 0x62, some 0x63, none) := by decide
/-- With nothing left in PREV, and with stale links in the very slots the positions use (R28: "PREV needs no reset"). -/
theorem witness_ChainsYieldCandidates :
    32768 ≤ 32768 ∧ 10 + 3 ≤ lazyText.length ∧
    [Chains.nil, Chains.afterReset [(4, some 3), (1, some 0), (0, none)]].map
      (fun start => chainProbes start 32768 256 lazyText 10) = [[4], [4]] := by decide +kernel

end Sys2Proof.Tests
end

section
/-! Host commands and whole steps: every host command answers, and what a CHUNK leaves of the session's counters
and flag. Settles O9 and O24. -/

namespace Sys2Proof.Machine

/-! A step answers -/

/-- No host command faults or is refused: its failures are next states (R97, R115). -/
theorem exec_hostCommand_next {i : Instr} (h : i.isUnitOp = false) (s : State) : ∃ t, exec i s = .next t := by
  cases i <;> simp only [Instr.isUnitOp, Bool.true_eq_false] at h <;> simp only [exec]
  case nop => exact ⟨_, rfl⟩
  case reset => exact ⟨_, rfl⟩
  case cfgLevel level => unfold execCfgLevel; split <;> exact ⟨_, rfl⟩
  case cfgSet psel val => unfold execCfgSet; split <;> exact ⟨_, rfl⟩
  case chunk fin =>
    rcases execChunk_cases fin s with ⟨-, h⟩ | ⟨-, h⟩
    · exact ⟨_, h⟩
    · exact ⟨_, h⟩

/-- The block never hangs or traps on a command word, legal or not (R49). -/
theorem runCommandWord_next (w : Word) (s : State) : ∃ t, runCommandWord w s = .next t := by
  rcases runCommandWord_cases w s with ⟨i, hi, h⟩ | ⟨e, -, h⟩
  · obtain ⟨t, ht⟩ := exec_hostCommand_next (hostDecode_isHost hi).2 s
    exact ⟨t, h.trans ht⟩
  · exact ⟨_, h⟩

theorem accessRefusal_eq_none_of_accessOk {width offset : Nat} (h : accessOk width offset = true) :
    accessRefusal width offset = none := by
  simp only [accessOk, Bool.and_eq_true, beq_iff_eq, decide_eq_true_eq] at h
  obtain ⟨⟨hw, ha⟩, ho⟩ := h
  exact accessRefusal_eq_none.mpr ⟨hw, ha, ho⟩

theorem busRead_next {width offset : Nat} (h : accessOk width offset = true) (s : State) :
    ∃ t, busRead width offset s = .next t := by
  simp only [busRead, accessRefusal_eq_none_of_accessOk h]
  exact ⟨_, rfl⟩

theorem busWrite_next {width offset : Nat} (h : accessOk width offset = true) (data : Word) (s : State) :
    ∃ t, busWrite width offset data s = .next t := by
  simp only [busWrite, accessRefusal_eq_none_of_accessOk h]
  exact ⟨_, rfl⟩

theorem takeEvent_next {s : State} (h : nextEventOk s = true) : ∃ t, takeEvent s = .next t := by
  unfold nextEventOk at h
  unfold takeEvent
  split
  · exact ⟨_, rfl⟩
  · exact ⟨_, rfl⟩
  · next hh =>
    rw [hh] at h
    exact busRead_next h _
  · next hh =>
    rw [hh] at h
    split
    · split
      · exact ⟨_, rfl⟩
      · exact runCommandWord_next _ _
    · exact busWrite_next h _ _

/-- Settles O9: each of the three things an idle unit bus lets the block take up ends in a next state. -/
theorem stepAlwaysAnswers : Obligations.StepAlwaysAnswers := by
  intro s hu hok
  simp only [step, turn, hu]
  split
  · exact ⟨_, rfl⟩
  · exact takeEvent_next hok

/-! What CHUNK's work leaves of the session's flag and counters -/

/-- The session's flag and counters, which CHUNK writes in its step 8 alone (R102). -/
def Session.ledger (ses : Session) : Bool × BitVec 64 × BitVec 64 :=
  (ses.finished, ses.bytesProcessed, ses.bytesOutput)

@[simp] theorem takeToken_ledger (u : Nat) (cfg : Cfg) (ses : Session) (tok : Token) :
    (takeToken u cfg ses tok).ledger = ses.ledger := by
  simp only [takeToken]
  split <;> simp [Session.ledger]

theorem foldl_takeToken_ledger (u : Nat) (cfg : Cfg) (ts : List Token) (ses : Session) :
    (ts.foldl (takeToken u cfg) ses).ledger = ses.ledger := by
  induction ts generalizing ses with
  | nil => rfl
  | cons t ts ih => rw [List.foldl_cons, ih, takeToken_ledger]

@[simp] theorem finishStream_ledger (cfg : Cfg) (ses : Session) : (finishStream cfg ses).ledger = ses.ledger := by
  simp [finishStream, Session.ledger]

theorem compressSlice_ledger (u : Nat) (cfg : Cfg) (ses : Session) (fin : Bool) (input : List Byte) :
    (compressSlice u cfg ses fin input).ledger = ses.ledger := by
  simp only [compressSlice]
  split
  · rw [finishStream_ledger, foldl_takeToken_ledger]; rfl
  · rw [foldl_takeToken_ledger]; rfl

/-- A CHUNK that succeeds in the Active state leaves what its work leaves, accounted and with the output drained. -/
theorem chunkSession_of_active {u : Nat} {cfg : Cfg} {ses : Session} {fin : Bool} {input : List Byte} {cap : Nat}
    {r : ChunkOk} (hf : ses.finished = false) (h : chunkSession u cfg ses fin input cap = some r) :
    let done := compressSlice u cfg ses fin input
    done.bp.outq.length ≤ cap ∧
      r = ⟨account fin input.length done.bp.outq.length (withPacker done { done.bp with outq := [] }), input.length,
        done.bp.outq⟩ := by
  rcases chunkSession_cases h with ⟨hf', -⟩ | ⟨-, -, hr⟩
  · rw [hf] at hf'
    cases hf'
  · exact hr

/-- What a CHUNK that succeeds in the Active state returns and leaves (R102 steps 7 to 9, R105, R107). -/
theorem chunkSession_accounts {u : Nat} {cfg : Cfg} {ses : Session} {fin : Bool} {input : List Byte} {cap : Nat}
    {r : ChunkOk} (hf : ses.finished = false) (h : chunkSession u cfg ses fin input cap = some r) :
    r.consumed = input.length ∧ r.bytes.length ≤ cap ∧
      r.ses.bytesProcessed = ses.bytesProcessed + BitVec.ofNat 64 input.length ∧
      r.ses.bytesOutput = ses.bytesOutput + BitVec.ofNat 64 r.bytes.length ∧
      r.ses.finished = fin ∧ r.ses.bp.outq = [] := by
  obtain ⟨hcap, rfl⟩ := chunkSession_of_active hf h
  have hl := compressSlice_ledger u cfg ses fin input
  simp only [Session.ledger, Prod.mk.injEq] at hl
  obtain ⟨hfin, hproc, hout⟩ := hl
  simp [hfin, hproc, hout, hf, hcap]

theorem chunkInput_length {n : Word} {s : State} (h : n.toNat ≤ s.inPort.length) :
    (chunkInput n s).length = n.toNat := by
  simpa [chunkInput] using h

/-- A CHUNK whose input is there runs at once (R42). -/
theorem exec_chunk_of_inputReady {s : State} (fin : Bool) (h : s.inLen.toNat ≤ s.inPort.length) :
    exec (.chunk fin) s = .next (runChunk fin (chunkInput s.inLen s) s.outCap.toNat (beginCommand s)) := by
  rcases execChunk_cases fin s with ⟨-, hr⟩ | ⟨hn, -⟩
  · exact hr
  · simp only [inputReady, decide_eq_false_iff_not] at hn
    omega

/-- Settles O24, by the two outcomes of a CHUNK that runs. -/
theorem chunkAccounting : Obligations.ChunkAccounting := by
  intro s fin hlen hf
  refine ⟨_, exec_chunk_of_inputReady fin hlen, ?_⟩
  rcases runChunk_cases fin (chunkInput s.inLen s) s.outCap.toNat (beginCommand s) with ⟨hn, ht⟩ | ⟨r, hr, ht⟩
  · have hn : chunkSession 2048 s.cfg s.ses fin (s.inPort.take s.inLen.toNat) s.outCap.toNat = none := hn
    rw [ht]
    refine ⟨fun r hr => by simp [hn] at hr, fun _ => rfl, rfl, .inr ⟨rfl, rfl, rfl, rfl, rfl⟩⟩
  · obtain ⟨hcons, hcap, hproc, hout, hfin, hq⟩ := chunkSession_accounts hf hr
    have hr : chunkSession 2048 s.cfg s.ses fin (s.inPort.take s.inLen.toNat) s.outCap.toNat = some r := hr
    rw [chunkInput_length hlen] at hcons hproc
    have hw : (BitVec.ofNat 32 r.bytes.length).toNat = r.bytes.length :=
      Nat.mod_eq_of_lt (Nat.lt_of_le_of_lt hcap s.outCap.isLt)
    rw [ht]
    refine ⟨fun r' h' => ?_, fun h' => by simp [hr] at h', rfl, .inl ⟨rfl, ?_, hw, hcap, ?_, ?_, hfin, hq⟩⟩
    · cases hr.symm.trans h'
      exact ⟨rfl, rfl, rfl⟩
    · simp [hcons]
    · simpa using hproc
    · simpa [← BitVec.ofNat_toNat, hw] using hout

end Sys2Proof.Machine
end

section
/-! Bits of the stream: what the packer appends, and that the decoder's readers take back what was written
(R38 to R40, R92 to R96, R109). -/

namespace Sys2Proof.Machine

/-! Integers, least significant bit first -/

theorem intBits_congr {n v w : Nat} (h : ∀ k < n, v.testBit k = w.testBit k) : intBits n v = intBits n w :=
  List.map_congr_left fun k hk => h k (List.mem_range.mp hk)

theorem intBits_add (m n v : Nat) : intBits (m + n) v = intBits m v ++ intBits n (v >>> m) := by
  simp [intBits, List.range_add, Function.comp_def, Nat.testBit_shiftRight]

theorem intBits_succ (n v : Nat) : intBits (n + 1) v = v.testBit 0 :: intBits n (v / 2) := by
  rw [Nat.add_comm, intBits_add]
  rfl

theorem intBits_zero_right (n : Nat) : intBits n 0 = List.replicate n false := by
  simp [intBits]

theorem readInt_intBits {n v : Nat} (h : v < 2 ^ n) (rest : List Bool) :
    readInt n (intBits n v ++ rest) = some (v, rest) := by
  induction n generalizing v with
  | zero =>
    obtain rfl : v = 0 := by simpa using h
    rfl
  | succ n ih =>
    have hv : (v.testBit 0).toNat + 2 * (v / 2) = v := by
      rw [Nat.testBit_zero]
      rcases Nat.mod_two_eq_zero_or_one v with h0 | h1 <;> simp [*] <;> omega
    simp only [intBits_succ, List.cons_append, readInt, ih (Nat.div_lt_of_lt_mul (by rwa [← Nat.pow_succ'])), hv]

/-! Bytes -/

@[simp] theorem streamBits_append (a b : List Byte) : streamBits (a ++ b) = streamBits a ++ streamBits b := by
  simp [streamBits]

/-- The low byte of a number carries its low eight bits. -/
theorem streamBits_lowByte (v : Nat) : streamBits [BitVec.ofNat 8 (v &&& 0xFF)] = intBits 8 v := by
  simp only [streamBits, List.flatMap_cons, List.flatMap_nil, List.append_nil]
  refine List.map_congr_left fun k hk => ?_
  have hk : k < 8 := List.mem_range.mp hk
  rw [BitVec.getLsbD_ofNat, Nat.testBit_and, show (0xFF : Nat) = 2 ^ 8 - 1 from rfl, Nat.testBit_two_pow_sub_one]
  simp [hk]

theorem streamBits_lowBytes (k v : Nat) : streamBits (lowBytes k v) = intBits (8 * k) v := by
  induction k generalizing v with
  | zero => rfl
  | succ k ih =>
    rw [lowBytes, ← List.singleton_append, streamBits_append, streamBits_lowByte, ih, Nat.mul_succ, Nat.add_comm,
      intBits_add]

/-! The packer -/

theorem BitPacker.bits_eq (p : BitPacker) : p.bits = streamBits p.outq ++ intBits p.nbits p.acc := rfl

/-- The number BP_WRITE_BITS holds before its loop: the pending bits below, the value's `width` bits above (R93). -/
theorem testBit_or_shiftLeft {acc n : Nat} (h : acc < 2 ^ n) (v width k : Nat) :
    (acc ||| ((v &&& (2 ^ width - 1)) <<< n)).testBit k =
      if k < n then acc.testBit k else v.testBit (k - n) && decide (k - n < width) := by
  simp only [Nat.testBit_or, Nat.testBit_shiftLeft, Nat.testBit_and, Nat.testBit_two_pow_sub_one]
  split
  · next hk => simp [Nat.not_le.mpr hk]
  · next hk =>
    have hn : n ≤ k := Nat.not_lt.mp hk
    simp [hn, Nat.testBit_lt_two_pow (Nat.lt_of_lt_of_le h (Nat.pow_le_pow_right (by decide) hn))]

theorem or_shiftLeft_lt {acc n : Nat} (h : acc < 2 ^ n) (v width : Nat) :
    acc ||| ((v &&& (2 ^ width - 1)) <<< n) < 2 ^ (n + width) := by
  refine Nat.lt_pow_two_of_testBit _ fun k hk => ?_
  rw [testBit_or_shiftLeft h, if_neg (by omega)]
  simp
  omega

theorem intBits_or_shiftLeft {acc n : Nat} (h : acc < 2 ^ n) (v width : Nat) :
    intBits (n + width) (acc ||| ((v &&& (2 ^ width - 1)) <<< n)) = intBits n acc ++ intBits width v := by
  rw [intBits_add]
  congr 1
  · exact intBits_congr fun k hk => by rw [testBit_or_shiftLeft h, if_pos hk]
  · refine intBits_congr fun k hk => ?_
    rw [Nat.testBit_shiftRight, testBit_or_shiftLeft h, if_neg (by omega)]
    simp [hk]

/-- BP_WRITE_BITS appends the value's low `width` bits (R93). -/
theorem bpWrite_bits {p : BitPacker} (h : p.ok) (value width : Nat) :
    (bpWrite p value width).bits = p.bits ++ intBits width value := by
  have hn : p.nbits + width = 8 * ((p.nbits + width) / 8) + (p.nbits + width) % 8 := (Nat.div_add_mod _ 8).symm
  rw [bpWrite_eq, BitPacker.bits_eq, BitPacker.bits_eq]
  simp only [streamBits_append, streamBits_lowBytes, List.append_assoc, ← intBits_add, ← hn]
  rw [intBits_or_shiftLeft h.2]

theorem bpWrite_ok {p : BitPacker} (h : p.ok) (value width : Nat) : (bpWrite p value width).ok := by
  rw [bpWrite_eq]
  refine ⟨by simp only; omega, ?_⟩
  simp only [Nat.shiftRight_eq_div_pow]
  refine Nat.div_lt_of_lt_mul ?_
  rw [← Nat.pow_add, Nat.div_add_mod]
  exact or_shiftLeft_lt h.2 _ _

/-- BP_FLUSH completes the last byte with zero bits (R94). -/
theorem bpFlush_bits {p : BitPacker} (h : p.ok) :
    (bpFlush p).bits = p.bits ++ List.replicate (8 - p.nbits) false := by
  obtain ⟨hn, hacc⟩ := h
  have h8 : 8 = p.nbits + (8 - p.nbits) := by omega
  have hz : p.acc >>> p.nbits = 0 := by rw [Nat.shiftRight_eq_div_pow, Nat.div_eq_of_lt hacc]
  have hb : intBits 8 p.acc = intBits p.nbits p.acc ++ List.replicate (8 - p.nbits) false := by
    conv_lhs => rw [h8, intBits_add, hz, intBits_zero_right]
  simp only [bpFlush, BitPacker.bits_eq, streamBits_append, streamBits_lowByte, hb]
  simp [intBits]

/-! Codes, root bit first -/

/-- The `n` low bits of a number, most significant first (R40). -/
def msbBits : (n v : Nat) → List Bool
  | 0, _ => []
  | n + 1, v => v.testBit n :: msbBits n v

theorem msbBits_eq_map (n v : Nat) : msbBits n v = (List.range n).map fun k => v.testBit (n - 1 - k) := by
  induction n with
  | zero => rfl
  | succ n ih =>
    simp only [msbBits, ih, List.range_succ_eq_map, List.map_cons, List.map_map]
    congr 1
    refine List.map_congr_left fun k _ => ?_
    simp only [Function.comp_apply]
    congr 1
    omega

theorem CodeEntry.bits_eq (e : CodeEntry) : e.bits = msbBits e.len.toNat e.code.toNat := (msbBits_eq_map _ _).symm

theorem msbBits_succ_last (n v : Nat) : msbBits (n + 1) v = msbBits n (v / 2) ++ [v.testBit 0] := by
  induction n with
  | zero => rfl
  | succ n ih =>
    rw [msbBits, ih, msbBits]
    simp [Nat.testBit_succ]

theorem revBits_lt (n v : Nat) : revBits n v < 2 ^ n := by
  induction n generalizing v with
  | zero => simp [revBits]
  | succ n ih =>
    have := ih (v / 2)
    have : v % 2 ≤ 1 := by omega
    have : v % 2 * 2 ^ n ≤ 1 * 2 ^ n := Nat.mul_le_mul_right _ this
    rw [revBits, Nat.pow_succ]
    omega

/-- Reversal exchanges the two bit orders (R6, R58). -/
theorem intBits_revBits (n v : Nat) : intBits n (revBits n v) = msbBits n v := by
  induction n generalizing v with
  | zero => rfl
  | succ n ih =>
    have hlt := revBits_lt n (v / 2)
    rw [msbBits_succ_last, intBits_add, revBits, ← ih (v / 2), Nat.mul_comm]
    congr 1
    · exact intBits_congr fun k hk => by rw [Nat.testBit_two_pow_mul_add _ hlt, if_pos hk]
    · have h0 : (2 ^ n * (v % 2) + revBits n (v / 2)) >>> n = v % 2 := by
        rw [Nat.shiftRight_eq_div_pow, Nat.mul_add_div (Nat.two_pow_pos n), Nat.div_eq_of_lt hlt, Nat.add_zero]
      rw [h0]
      simp [intBits]

/-- `put` appends the code, root bit first (R58, R88). -/
theorem put_bits {p : BitPacker} (h : p.ok) (e : CodeEntry) : (put p e).bits = p.bits ++ e.bits := by
  rw [put, bpWrite_bits h, intBits_revBits, CodeEntry.bits_eq]

theorem put_ok {p : BitPacker} (h : p.ok) (e : CodeEntry) : (put p e).ok := bpWrite_ok h _ _

theorem two_mul_shiftRight_succ_add_testBit (c j : Nat) : 2 * c >>> (j + 1) + (c.testBit j).toNat = c >>> j := by
  have h0 : c.testBit j = (c >>> j).testBit 0 := by simp
  rw [Nat.shiftRight_succ, h0, Nat.testBit_zero]
  rcases Nat.mod_two_eq_zero_or_one (c >>> j) with h | h <;> simp [h] <;> omega

/-- Reading a symbol bit by bit: the bits read before the last are no code (R109). -/
theorem readSymbol_msbBits {t : DecodeTable} {s c : Nat} (rest : List Bool) {j len fuel : Nat} (hj : 0 < j)
    (hfuel : j ≤ fuel) (hs : findSymbol t (len + j) c = some s)
    (hprefix : ∀ i < j, 0 < i → findSymbol t (len + j - i) (c >>> i) = none) :
    readSymbol t fuel len (c >>> j) (msbBits j c ++ rest) = some (s, rest) := by
  induction j generalizing len fuel with
  | zero => omega
  | succ j ih =>
    obtain ⟨fuel, rfl⟩ : ∃ f, fuel = f + 1 := ⟨fuel - 1, by omega⟩
    simp only [msbBits, List.cons_append, readSymbol, two_mul_shiftRight_succ_add_testBit]
    rcases Nat.eq_zero_or_pos j with rfl | hpos
    · simp [hs, msbBits]
    · have hn := hprefix j (by omega) hpos
      rw [show len + (j + 1) - j = len + 1 by omega] at hn
      simp only [hn]
      refine ih hpos (by omega) (by rwa [show len + 1 + j = len + (j + 1) by omega]) fun i hi h0 => ?_
      rw [show len + 1 + j - i = len + (j + 1) - i by omega]
      exact hprefix i (by omega) h0

end Sys2Proof.Machine
end

section
/-! The canonical codes of HC_ASSIGN (R83, R85): their values, that within the Kraft bound none begins another,
and that the decoder reads each back as its symbol (R109). -/

namespace Sys2Proof.Machine

/-! The first code of each length -/

/-- `count[l]` (R83). -/
def lengthCount (lens : List Nat) (l : Nat) : Nat := if l = 0 then 0 else lens.countP (· == l)

/-- `next[l]` before the first code is assigned (R83). -/
def firstCode (lens : List Nat) : Nat → Nat
  | 0 => 0
  | l + 1 => 2 * (firstCode lens l + lengthCount lens l)

theorem firstCodes_lengthCount (lens : List Nat) (a n : Nat) :
    firstCodes (firstCode lens a) ((List.range' a n).map (lengthCount lens)) =
      (List.range' (a + 1) n).map (firstCode lens) := by
  induction n generalizing a with
  | zero => rfl
  | succ n ih =>
    have hc : (firstCode lens a + lengthCount lens a) <<< 1 = firstCode lens (a + 1) := by
      rw [Nat.shiftLeft_eq, Nat.pow_one, Nat.mul_comm]
      rfl
    simp only [List.range'_succ, List.map_cons, firstCodes, hc, ih]

theorem nextCodes_eq (lens : List Nat) : nextCodes lens = (List.range 16).map (firstCode lens) := by
  have hl : lengthCounts lens = (List.range' 0 15).map (lengthCount lens) := by
    rw [← List.range_eq_range']
    rfl
  rw [nextCodes, hl]
  exact congrArg (0 :: ·) (firstCodes_lengthCount lens 0 15)

theorem nextCodes_length (lens : List Nat) : (nextCodes lens).length = 16 := by simp [nextCodes_eq]

theorem nextCodes_getD (lens : List Nat) {l : Nat} (h : l ≤ 15) : (nextCodes lens).getD l 0 = firstCode lens l := by
  rw [nextCodes_eq, List.getD_eq_getElem _ _ (by simpa using Nat.lt_succ_of_le h)]
  simp

/-! The value of each code -/

theorem assignLoop_getD {next lens : List Nat} (h : ∀ l ∈ lens, l < next.length) {j : Nat} (hj : j < lens.length) :
    (assignLoop next lens).getD j 0 =
      if lens.getD j 0 = 0 then 0
      else next.getD (lens.getD j 0) 0 + (lens.take j).countP (· == lens.getD j 0) := by
  induction lens generalizing next j with
  | nil => simp at hj
  | cons l lens ih =>
    have hl : l < next.length := h l (by simp)
    have ht : ∀ k ∈ lens, k < next.length := fun k hk => h k (by simp [hk])
    cases j with
    | zero => by_cases hl0 : l = 0 <;> simp [assignLoop, hl0]
    | succ j =>
      have hj : j < lens.length := by simpa using hj
      by_cases hl0 : l = 0
      · simp only [assignLoop, hl0, if_true, List.getD_cons_succ, ih ht hj, List.take_succ_cons, List.countP_cons]
        split
        · rfl
        · next hne => rw [if_neg (by simpa using Ne.symm hne), Nat.add_zero]
      · simp only [assignLoop, hl0, if_false, List.getD_cons_succ, List.take_succ_cons, List.countP_cons,
          ih (next := next.set l (next.getD l 0 + 1)) (by simpa using ht) hj]
        split
        · rfl
        · by_cases he : l = lens.getD j 0
          · rw [← he]
            simp [hl]
            omega
          · rw [List.getD_eq_getElem?_getD, List.getElem?_set_ne he, ← List.getD_eq_getElem?_getD]
            rw [if_neg (by simpa using he), Nat.add_zero]

/-- The code of a used symbol: the first code of its length, and one more for each symbol of that length before it
(R83). -/
theorem hcAssign_getD {lens : List Nat} (h : ∀ l ∈ lens, l ≤ 15) {j : Nat} (hj : j < lens.length)
    (hpos : 0 < lens.getD j 0) :
    (hcAssign lens).getD j 0 =
      firstCode lens (lens.getD j 0) + (lens.take j).countP (· == lens.getD j 0) := by
  have hle : lens.getD j 0 ≤ 15 := by
    rw [List.getD_eq_getElem _ _ hj]
    exact h _ (List.getElem_mem hj)
  rw [hcAssign, assignLoop_getD (fun l hl => by rw [nextCodes_length]; exact Nat.lt_succ_of_le (h l hl)) hj,
    if_neg (by omega), nextCodes_getD _ hle]

/-- Fewer symbols of a length stand before one of them than before any later place. -/
theorem countP_take_lt {lens : List Nat} {i j l : Nat} (hi : i < lens.length) (hij : i < j) (hl : lens.getD i 0 = l) :
    (lens.take i).countP (· == l) < (lens.take j).countP (· == l) := by
  have hs : (lens.take (i + 1)).countP (· == l) = (lens.take i).countP (· == l) + 1 := by
    rw [List.getD_eq_getElem _ _ hi] at hl
    rw [List.take_succ_eq_append_getElem hi, List.countP_append]
    simp [hl]
  have hm : (lens.take (i + 1)).countP (· == l) ≤ (lens.take j).countP (· == l) :=
    (List.take_sublist_take_left hij).countP_le
  omega

/-- A code lies below the codes that the symbols of its length take up together. -/
theorem hcAssign_getD_lt {lens : List Nat} (h : ∀ l ∈ lens, l ≤ 15) {j : Nat} (hj : j < lens.length)
    (hpos : 0 < lens.getD j 0) :
    (hcAssign lens).getD j 0 < firstCode lens (lens.getD j 0) + lengthCount lens (lens.getD j 0) := by
  have hc := countP_take_lt hj hj rfl
  rw [List.take_length] at hc
  rw [hcAssign_getD h hj hpos, lengthCount, if_neg (by omega)]
  omega

/-- Longer codes begin after all shorter ones (R83). -/
theorem firstCode_after_shorter (lens : List Nat) {l m : Nat} (h : l < m) :
    2 ^ (m - l) * (firstCode lens l + lengthCount lens l) ≤ firstCode lens m := by
  induction m, h using Nat.le_induction with
  | base => simp [firstCode]
  | succ m hm ih =>
    have hp : 2 ^ (m + 1 - l) = 2 * 2 ^ (m - l) := by
      rw [← Nat.pow_succ']
      congr 1
      omega
    rw [hp, firstCode, Nat.mul_assoc]
    exact Nat.mul_le_mul_left 2 (Nat.le_trans ih (Nat.le_add_right _ _))

/-! The Kraft bound -/

theorem kraft15_cons (l : Nat) (lens : List Nat) :
    kraft15 (l :: lens) = (if 0 < l then 2 ^ (15 - l) else 0) + kraft15 lens := by
  by_cases h : 0 < l <;> simp [kraft15, h]

theorem kraft15_filter_le (p : Nat → Bool) (lens : List Nat) : kraft15 (lens.filter p) ≤ kraft15 lens := by
  induction lens with
  | nil => exact Nat.le_refl _
  | cons l lens ih =>
    rw [kraft15_cons]
    by_cases h : p l
    · rw [List.filter_cons_of_pos h, kraft15_cons]
      exact Nat.add_le_add_left ih _
    · rw [List.filter_cons_of_neg h]
      exact Nat.le_trans ih (Nat.le_add_left _ _)

/-- The space of the codes up to length `l` is that of the shorter ones and of those of length `l`. -/
theorem kraft15_filter_lt_succ (lens : List Nat) (l : Nat) :
    kraft15 (lens.filter (· < l + 1)) = kraft15 (lens.filter (· < l)) + lengthCount lens l * 2 ^ (15 - l) := by
  induction lens with
  | nil => simp [kraft15, lengthCount]
  | cons x lens ih =>
    rcases Nat.lt_trichotomy x l with h | rfl | h
    · have hc : lengthCount (x :: lens) l = lengthCount lens l := by
        simp [lengthCount, Nat.ne_of_lt h]
      rw [List.filter_cons_of_pos (by simpa using Nat.lt_succ_of_lt h), List.filter_cons_of_pos (by simpa using h),
        kraft15_cons, kraft15_cons, ih, hc, Nat.add_assoc]
    · have hc : lengthCount (x :: lens) x = lengthCount lens x + if 0 < x then 1 else 0 := by
        rcases Nat.eq_zero_or_pos x with rfl | hx
        · simp [lengthCount]
        · simp [lengthCount, hx, Nat.ne_of_gt hx]
      rw [List.filter_cons_of_pos (by simp), List.filter_cons_of_neg (by simp), kraft15_cons, ih, hc]
      split <;> ring
    · have hc : lengthCount (x :: lens) l = lengthCount lens l := by
        simp [lengthCount, Nat.ne_of_gt h]
      rw [List.filter_cons_of_neg (by simp; omega), List.filter_cons_of_neg (by simp; omega), ih, hc]

/-- The first code of a length is the space of the shorter codes, in units of that length. -/
theorem firstCode_mul_eq_kraft15 (lens : List Nat) {l : Nat} (h : l ≤ 15) :
    firstCode lens l * 2 ^ (15 - l) = kraft15 (lens.filter (· < l)) := by
  induction l with
  | zero => simp [firstCode, kraft15]
  | succ l ih =>
    have hp : 2 ^ (15 - l) = 2 * 2 ^ (15 - (l + 1)) := by
      rw [← Nat.pow_succ']
      congr 1
      omega
    rw [kraft15_filter_lt_succ, ← ih (by omega), firstCode, hp]
    ring

/-- Within the Kraft bound a code fits its length (R85). -/
theorem hcAssign_fits {lens : List Nat} (h : ∀ l ∈ lens, l ≤ 15) (hk : kraft15 lens ≤ 2 ^ 15) {j : Nat}
    (hj : j < lens.length) (hpos : 0 < lens.getD j 0) : (hcAssign lens).getD j 0 < 2 ^ lens.getD j 0 := by
  have hlt := hcAssign_getD_lt h hj hpos
  have hle : lens.getD j 0 ≤ 15 := by
    rw [List.getD_eq_getElem _ _ hj]
    exact h _ (List.getElem_mem hj)
  generalize lens.getD j 0 = l at *
  have hsum : (firstCode lens l + lengthCount lens l) * 2 ^ (15 - l) ≤ 2 ^ l * 2 ^ (15 - l) := by
    rw [Nat.add_mul, firstCode_mul_eq_kraft15 lens hle, ← kraft15_filter_lt_succ, ← Nat.pow_add,
      Nat.add_sub_cancel' hle]
    exact Nat.le_trans (kraft15_filter_le _ _) hk
  exact Nat.lt_of_lt_of_le hlt (Nat.le_of_mul_le_mul_right hsum (Nat.two_pow_pos _))

/-- No code begins another symbol's (R85). -/
theorem hcAssign_prefixFree {lens : List Nat} (h : ∀ l ∈ lens, l ≤ 15) {i j : Nat} (hi : i < lens.length)
    (hj : j < lens.length) (hne : i ≠ j) (hpos : 0 < lens.getD i 0) (hle : lens.getD i 0 ≤ lens.getD j 0) :
    (hcAssign lens).getD j 0 >>> (lens.getD j 0 - lens.getD i 0) ≠ (hcAssign lens).getD i 0 := by
  have hposj : 0 < lens.getD j 0 := Nat.lt_of_lt_of_le hpos hle
  rcases Nat.eq_or_lt_of_le hle with heq | hlt
  · have hci := hcAssign_getD h hi hpos
    have hcj := hcAssign_getD h hj hposj
    rw [heq, Nat.sub_self, Nat.shiftRight_zero]
    rw [heq] at hci
    rcases Nat.lt_or_gt_of_ne hne with hij | hji
    · have := countP_take_lt hi hij heq
      omega
    · have := countP_take_lt hj hji rfl
      omega
  · have hi' := hcAssign_getD_lt h hi hpos
    have hj' : firstCode lens (lens.getD j 0) ≤ (hcAssign lens).getD j 0 := by
      rw [hcAssign_getD h hj hposj]
      exact Nat.le_add_right _ _
    have hge := Nat.le_trans (firstCode_after_shorter lens hlt) hj'
    rw [Nat.mul_comm] at hge
    rw [Nat.shiftRight_eq_div_pow]
    have := (Nat.le_div_iff_mul_le (Nat.two_pow_pos (lens.getD j 0 - lens.getD i 0))).mpr hge
    omega

/-! The decoder's side -/

theorem findSymbol_decodeTable_eq_none {lens : List Nat} {len code : Nat}
    (h : ∀ i < lens.length, lens.getD i 0 = len → (hcAssign lens).getD i 0 ≠ code) :
    findSymbol (decodeTable lens) len code = none := by
  refine List.findIdx?_eq_none_iff.mpr fun e he => ?_
  obtain ⟨i, hi, rfl⟩ := List.getElem_of_mem he
  have hi : i < lens.length := by simpa [decodeTable] using hi
  have := h i hi
  rw [List.getD_eq_getElem _ _ hi, List.getD_eq_getElem _ _ (by simpa using hi)] at this
  simpa [decodeTable] using this

theorem findSymbol_decodeTable {lens : List Nat} (h : ∀ l ∈ lens, l ≤ 15) {s : Nat} (hs : s < lens.length)
    (hpos : 0 < lens.getD s 0) :
    findSymbol (decodeTable lens) (lens.getD s 0) ((hcAssign lens).getD s 0) = some s := by
  refine List.findIdx?_eq_some_iff_getElem.mpr ⟨by simpa [decodeTable] using hs, ?_, fun i hi => ?_⟩
  · simp [decodeTable, hs]
  · have hil : i < lens.length := by omega
    have hic : i < (hcAssign lens).length := by simpa using hil
    simp only [decodeTable, List.getElem_zip, Bool.and_eq_true, beq_iff_eq, not_and]
    rw [← List.getD_eq_getElem lens 0 hil, ← List.getD_eq_getElem _ 0 hic]
    intro hl
    have := hcAssign_prefixFree h hil hs (by omega) (by omega) (Nat.le_of_eq hl)
    rw [hl, Nat.sub_self, Nat.shiftRight_zero] at this
    exact fun he => this he.symm

/-- A used symbol's code reads back as the symbol, from lengths within the Kraft bound (R109). -/
theorem readSymbol_decodeTable {lens : List Nat} (h : ∀ l ∈ lens, l ≤ 15) (hk : kraft15 lens ≤ 2 ^ 15) {s : Nat}
    (hs : s < lens.length) (hpos : 0 < lens.getD s 0) (rest : List Bool) :
    readSymbol (decodeTable lens) 15 0 0 (msbBits (lens.getD s 0) ((hcAssign lens).getD s 0) ++ rest) =
      some (s, rest) := by
  have hle : lens.getD s 0 ≤ 15 := by
    rw [List.getD_eq_getElem _ _ hs]
    exact h _ (List.getElem_mem hs)
  have h0 : (hcAssign lens).getD s 0 >>> lens.getD s 0 = 0 := by
    rw [Nat.shiftRight_eq_div_pow, Nat.div_eq_of_lt (hcAssign_fits h hk hs hpos)]
  have hr := readSymbol_msbBits (t := decodeTable lens) (len := 0) rest hpos hle
    (by rw [Nat.zero_add]; exact findSymbol_decodeTable h hs hpos)
  rw [h0] at hr
  refine hr fun i hi hi0 => findSymbol_decodeTable_eq_none fun k hk hlen => ?_
  have hne : k ≠ s := by
    rintro rfl
    omega
  have := hcAssign_prefixFree h hk hs hne (by omega) (by omega)
  rwa [show lens.getD s 0 - lens.getD k 0 = i by omega, ne_comm] at this

end Sys2Proof.Machine
end

section
/-! HC_BUILD (R81, R82, R84): the merge keeps the used symbols and their weight and never grows a tree taller than its
weight allows, so the lengths of a block are at most 15, lie within the Kraft bound, and are positive for the used
symbols. -/

namespace Sys2Proof.Machine

/-! Trees -/

/-- The greatest leaf depth, the root being at depth 0. -/
def HTree.height : HTree → Nat
  | .leaf _ => 0
  | .node a b => max a.height b.height + 1

/-- The leaves' symbols. -/
def HTree.syms : HTree → List Nat
  | .leaf s => [s]
  | .node a b => a.syms ++ b.syms

theorem depths_map_fst (t : HTree) (d : Nat) : (depths t d).map Prod.fst = t.syms := by
  induction t generalizing d with
  | leaf s => rfl
  | node a b iha ihb => simp [depths, HTree.syms, iha, ihb]

theorem depths_bounds {t : HTree} {d : Nat} {e : Nat × Nat} (h : e ∈ depths t d) : d ≤ e.2 ∧ e.2 ≤ d + t.height := by
  induction t generalizing d with
  | leaf s =>
    obtain rfl : e = (s, d) := by simpa [depths] using h
    simp [HTree.height]
  | node a b iha ihb =>
    simp only [HTree.height]
    rcases List.mem_append.mp h with h | h
    · have := iha h
      omega
    · have := ihb h
      omega

/-- The leaves of a tree fill its root's space (R82 (b)). -/
theorem depths_kraft {t : HTree} {d n : Nat} (h : d + t.height ≤ n) :
    ((depths t d).map fun e => 2 ^ (n - e.2)).sum = 2 ^ (n - d) := by
  induction t generalizing d with
  | leaf s => simp [depths]
  | node a b iha ihb =>
    simp only [HTree.height] at h
    have hp : 2 ^ (n - d) = 2 * 2 ^ (n - (d + 1)) := by
      rw [← Nat.pow_succ']
      congr 1
      omega
    simp only [depths, List.map_append, List.sum_append, iha (d := d + 1) (by omega), ihb (d := d + 1) (by omega), hp]
    omega

/-! The merge -/

theorem weight_le_of_nodeBefore {x y : HNode} (h : nodeBefore x y = true) : x.weight ≤ y.weight := by
  simp only [nodeBefore, Bool.or_eq_true, Bool.and_eq_true, decide_eq_true_eq, beq_iff_eq] at h
  omega

theorem weight_le_of_not_nodeBefore {x y : HNode} (h : ¬nodeBefore x y = true) : y.weight ≤ x.weight := by
  simp only [nodeBefore, Bool.or_eq_true, Bool.and_eq_true, decide_eq_true_eq, beq_iff_eq] at h
  omega

/-- The live nodes stand in ascending order of weight. -/
abbrev WeightSorted (live : List HNode) : Prop := live.Pairwise fun x y => x.weight ≤ y.weight

theorem addLive_weightSorted (x : HNode) {live : List HNode} (h : WeightSorted live) :
    WeightSorted (addLive x live) := by
  induction live with
  | nil => simp [addLive]
  | cons y ys ih =>
    obtain ⟨hy, hys⟩ := List.pairwise_cons.mp h
    simp only [addLive]
    split
    · next hb =>
      have hxy := weight_le_of_nodeBefore hb
      refine List.pairwise_cons.mpr ⟨fun z hz => ?_, h⟩
      rcases List.mem_cons.mp hz with rfl | hz
      · exact hxy
      · exact Nat.le_trans hxy (hy z hz)
    · next hb =>
      refine List.pairwise_cons.mpr ⟨fun z hz => ?_, ih hys⟩
      rcases List.mem_cons.mp ((addLive_perm x ys).mem_iff.mp hz) with rfl | hz
      · exact weight_le_of_not_nodeBefore hb
      · exact hy z hz

/-- What R81's merge keeps, `total` being the frequencies' sum and `used` the used symbols: the order, the weight and
the symbols; and R84's bounds, by which a tree weighs at least a Fibonacci number of its height, and every live node at
least the one before. -/
structure Merging (total : Nat) (used : List Nat) (live : List HNode) : Prop where
  sorted : WeightSorted live
  weight : (live.map HNode.weight).sum = total
  syms : (live.flatMap fun x => x.tree.syms).Perm used
  fib_le_own : ∀ x ∈ live, Nat.fib (x.tree.height + 2) ≤ x.weight
  fib_le_other : ∀ x ∈ live, ∀ y ∈ live, Nat.fib (x.tree.height + 1) ≤ y.weight

theorem Merging.step {total : Nat} {used : List Nat} {a b : HNode} {live : List HNode}
    (h : Merging total used (a :: b :: live)) (next : Nat) :
    Merging total used (addLive ⟨a.weight + b.weight, next, .node a.tree b.tree⟩ live) := by
  have hp := addLive_perm ⟨a.weight + b.weight, next, .node a.tree b.tree⟩ live
  obtain ⟨ha, hbl⟩ := List.pairwise_cons.mp h.sorted
  obtain ⟨hb, hl⟩ := List.pairwise_cons.mp hbl
  have hma : a ∈ a :: b :: live := by simp
  have hmb : b ∈ a :: b :: live := by simp
  have hml : ∀ z ∈ live, z ∈ a :: b :: live := fun z hz => by simp [hz]
  have hab : a.weight ≤ b.weight := ha b (by simp)
  have hown : Nat.fib ((HTree.node a.tree b.tree).height + 2) ≤ a.weight + b.weight := by
    rw [HTree.height, Nat.fib_add_two]
    rcases Nat.le_total a.tree.height b.tree.height with hh | hh
    · rw [Nat.max_eq_right hh]
      exact Nat.add_le_add (h.fib_le_other b hmb a hma) (h.fib_le_own b hmb)
    · rw [Nat.max_eq_left hh, Nat.add_comm a.weight]
      exact Nat.add_le_add (h.fib_le_other a hma b hmb) (h.fib_le_own a hma)
  have hnew : Nat.fib ((HTree.node a.tree b.tree).height + 1) ≤ b.weight := by
    rw [HTree.height]
    rcases Nat.le_total a.tree.height b.tree.height with hh | hh
    · rw [Nat.max_eq_right hh]
      exact h.fib_le_own b hmb
    · rw [Nat.max_eq_left hh]
      exact Nat.le_trans (h.fib_le_own a hma) hab
  refine ⟨addLive_weightSorted _ hl, ?_, ?_, fun x hx => ?_, fun x hx y hy => ?_⟩
  · rw [(hp.map HNode.weight).sum_eq, ← h.weight]
    simp [Nat.add_assoc]
  · refine (hp.flatMap_right _).trans (.trans (.of_eq ?_) h.syms)
    simp [HTree.syms]
  · rcases List.mem_cons.mp (hp.mem_iff.mp hx) with rfl | hx
    · exact hown
    · exact h.fib_le_own x (hml x hx)
  · rcases List.mem_cons.mp (hp.mem_iff.mp hx) with rfl | hx <;>
      rcases List.mem_cons.mp (hp.mem_iff.mp hy) with rfl | hy
    · exact Nat.le_trans hnew (Nat.le_add_left _ _)
    · exact Nat.le_trans hnew (hb y hy)
    · exact Nat.le_trans (h.fib_le_other x (hml x hx) a hma) (Nat.le_add_right _ _)
    · exact h.fib_le_other x (hml x hx) y (hml y hy)

/-- The merge runs until one node lives. -/
theorem Merging.mergeLive_eq_root {total : Nat} {used : List Nat} {fuel : Nat} {live : List HNode}
    (h : Merging total used live) (hne : live ≠ []) (hfuel : live.length ≤ fuel + 1) (next : Nat) :
    ∃ root, mergeLive fuel next live = [root] ∧ Merging total used [root] := by
  induction fuel generalizing next live with
  | zero =>
    obtain ⟨root, rfl⟩ : ∃ root, live = [root] :=
      List.length_eq_one_iff.mp (Nat.le_antisymm hfuel (List.length_pos_iff.mpr hne))
    exact ⟨root, rfl, h⟩
  | succ fuel ih =>
    match live, hne with
    | [root], _ => exact ⟨root, rfl, h⟩
    | a :: b :: live, _ =>
      have hp := addLive_perm ⟨a.weight + b.weight, next, .node a.tree b.tree⟩ live
      have hlen := hp.length_eq
      refine ih (h.step next) (fun he => ?_) ?_ (next + 1)
      · simp [he] at hlen
      · rw [hlen]
        simpa using hfuel

/-! The leaves -/

theorem foldl_addLive_perm {α : Type} (f : α → HNode) (us : List α) (live : List HNode) :
    (us.foldl (fun live u => addLive (f u) live) live).Perm (us.map f ++ live) := by
  induction us generalizing live with
  | nil => exact .refl _
  | cons u us ih => exact (ih _).trans (((addLive_perm (f u) live).append_left _).trans List.perm_middle)

theorem foldl_addLive_weightSorted {α : Type} (f : α → HNode) (us : List α) {live : List HNode}
    (h : WeightSorted live) : WeightSorted (us.foldl (fun live u => addLive (f u) live) live) := by
  induction us generalizing live with
  | nil => exact h
  | cons u us ih => exact ih (addLive_weightSorted _ h)

theorem usedSymbols_weight (freq : List Nat) : ((usedSymbols freq).map Prod.fst).sum = freq.sum := by
  have general : ∀ k, (((freq.zipIdx k).filter fun u => 0 < u.1).map Prod.fst).sum = freq.sum := by
    induction freq with
    | nil => intro k; rfl
    | cons f freq ih =>
      intro k
      by_cases hf : 0 < f
      · simp [hf, ih]
      · obtain rfl : f = 0 := by omega
        simp [ih]
  exact general 0

theorem mem_usedSymbols {freq : List Nat} {s : Nat} (h : 0 < freq.getD s 0) :
    s ∈ (usedSymbols freq).map Prod.snd := by
  have hs : s < freq.length := by
    by_contra hn
    simp [List.getElem?_eq_none (Nat.not_lt.mp hn)] at h
  rw [List.getD_eq_getElem _ _ hs] at h
  refine List.mem_map.mpr ⟨(freq[s], s), List.mem_filter.mpr ⟨?_, by simpa using h⟩, rfl⟩
  exact List.mk_mem_zipIdx_iff_getElem?.mpr (List.getElem?_eq_getElem hs)

theorem leaves_perm (freq : List Nat) :
    (leaves freq).Perm ((usedSymbols freq).zipIdx.map fun u => ⟨u.1.1, u.2, .leaf u.1.2⟩) := by
  simpa [leaves] using foldl_addLive_perm (fun u : (Nat × Nat) × Nat => HNode.mk u.1.1 u.2 (.leaf u.1.2))
    (usedSymbols freq).zipIdx []

theorem leaves_merging (freq : List Nat) :
    Merging freq.sum ((usedSymbols freq).map Prod.snd) (leaves freq) := by
  have hp := leaves_perm freq
  have hleaf : ∀ x ∈ leaves freq, x.tree.height = 0 ∧ 0 < x.weight := by
    intro x hx
    obtain ⟨u, hu, rfl⟩ := List.mem_map.mp (hp.mem_iff.mp hx)
    have := List.fst_mem_of_mem_zipIdx hu
    exact ⟨rfl, by simpa using (List.mem_filter.mp this).2⟩
  refine ⟨foldl_addLive_weightSorted _ _ .nil, ?_, ?_, fun x hx => ?_, fun x hx y hy => ?_⟩
  · rw [(hp.map HNode.weight).sum_eq, List.map_map, ← usedSymbols_weight freq]
    conv_rhs => rw [← List.zipIdx_map_fst 0 (usedSymbols freq), List.map_map]
    rfl
  · refine (hp.flatMap_right _).trans (.of_eq ?_)
    conv_rhs => rw [← List.zipIdx_map_fst 0 (usedSymbols freq), List.map_map]
    rw [List.flatMap_map]
    exact List.map_eq_flatMap.symm
  · rw [(hleaf x hx).1]
    exact (hleaf x hx).2
  · rw [(hleaf x hx).1]
    exact (hleaf y hy).2

/-- With a used symbol, the merge ends in a root that holds the used symbols and weighs what they weigh, no taller than
that weight allows (R84). -/
theorem mergeLive_leaves {freq : List Nat} (h : usedSymbols freq ≠ []) :
    ∃ root, mergeLive (usedSymbols freq).length (usedSymbols freq).length (leaves freq) = [root] ∧
      Nat.fib (root.tree.height + 2) ≤ freq.sum ∧ root.tree.syms.Perm ((usedSymbols freq).map Prod.snd) := by
  have hlen : (leaves freq).length = (usedSymbols freq).length := by simpa using (leaves_perm freq).length_eq
  obtain ⟨root, hr, hm⟩ := (leaves_merging freq).mergeLive_eq_root
    (List.length_pos_iff.mp (by rw [hlen]; exact List.length_pos_iff.mpr h)) (by rw [hlen]; exact Nat.le_succ _)
    (usedSymbols freq).length
  have hw : root.weight = freq.sum := by simpa using hm.weight
  exact ⟨root, hr, hw ▸ hm.fib_le_own root (by simp), by simpa using hm.syms⟩

/-! The code lengths -/

/-- The leaves' depths in a finished tree, a lone leaf having depth 1 (R81). -/
def rootDepths : HTree → List (Nat × Nat)
  | .leaf sym => [(sym, 1)]
  | .node a b => depths (.node a b) 0

theorem leafDepths_of_root {freq : List Nat} {root : HNode}
    (h : mergeLive (usedSymbols freq).length (usedSymbols freq).length (leaves freq) = [root]) :
    leafDepths freq = rootDepths root.tree := by
  simp only [leafDepths, h]
  cases root.tree <;> rfl

theorem rootDepths_map_fst (t : HTree) : (rootDepths t).map Prod.fst = t.syms := by
  cases t with
  | leaf s => rfl
  | node a b => exact depths_map_fst _ _

theorem rootDepths_bounds {t : HTree} {e : Nat × Nat} (h : e ∈ rootDepths t) : 1 ≤ e.2 ∧ e.2 ≤ max 1 t.height := by
  cases t with
  | leaf s =>
    obtain rfl : e = (s, 1) := by simpa [rootDepths] using h
    simp [HTree.height]
  | node a b =>
    have hle := (depths_bounds h).2
    have hge : 1 ≤ e.2 := by
      rcases List.mem_append.mp h with h | h
      · exact (depths_bounds h).1
      · exact (depths_bounds h).1
    omega

theorem rootDepths_kraft {t : HTree} {n : Nat} (h : t.height ≤ n) :
    ((rootDepths t).map fun e => 2 ^ (n - e.2)).sum ≤ 2 ^ n := by
  cases t with
  | leaf s => simpa [rootDepths] using Nat.pow_le_pow_right (by decide) (Nat.sub_le n 1)
  | node a b => exact Nat.le_of_eq (depths_kraft (by omega))

/-- Below R84's bound no tree is taller than 15. -/
theorem height_le_15 {h total : Nat} (hf : Nat.fib (h + 2) ≤ total) (ht : total < 2584) : h ≤ 15 := by
  by_contra hn
  have hm : Nat.fib 18 ≤ Nat.fib (h + 2) := Nat.fib_mono (by omega)
  have h18 : Nat.fib 18 = 2584 := by decide
  omega

/-- What HC_BUILD's tree gives below R84's bound: depths in 1..15 within the Kraft bound, one for every used symbol. -/
theorem leafDepths_spec {freq : List Nat} (hsum : freq.sum < 2584) :
    (∀ e ∈ leafDepths freq, 1 ≤ e.2 ∧ e.2 ≤ 15) ∧ ((leafDepths freq).map fun e => 2 ^ (15 - e.2)).sum ≤ 2 ^ 15 ∧
      ((leafDepths freq).map Prod.fst).Perm ((usedSymbols freq).map Prod.snd) := by
  by_cases hu : usedSymbols freq = []
  · have : leafDepths freq = [] := by simp [leafDepths, leaves, hu, mergeLive]
    simp [this, hu]
  · obtain ⟨root, hr, hfib, hsyms⟩ := mergeLive_leaves hu
    have hh := height_le_15 hfib hsum
    rw [leafDepths_of_root hr, rootDepths_map_fst]
    refine ⟨fun e he => ?_, rootDepths_kraft hh, hsyms⟩
    have := rootDepths_bounds he
    omega

theorem lookup_isSome_of_mem_map_fst {ds : List (Nat × Nat)} {s : Nat} (h : s ∈ ds.map Prod.fst) :
    ∃ d, ds.lookup s = some d := by
  rw [← Option.ne_none_iff_exists']
  intro hn
  obtain ⟨e, he, rfl⟩ := List.mem_map.mp h
  exact absurd (List.lookup_eq_none_iff.mp hn e he) (by simp)

theorem hcBuild_getD {freq : List Nat} {s : Nat} (hs : s < freq.length) :
    (hcBuild freq).getD s 0 = ((leafDepths freq).lookup s).getD 0 := by
  simp [hcBuild, hs]

theorem hcBuild_le_15 {freq : List Nat} (hsum : freq.sum < 2584) : ∀ l ∈ hcBuild freq, l ≤ 15 := by
  intro l hl
  obtain ⟨s, -, rfl⟩ := List.mem_map.mp hl
  cases hd : (leafDepths freq).lookup s with
  | none => simp
  | some d =>
    obtain ⟨l1, l2, he, -⟩ := List.lookup_eq_some_iff.mp hd
    exact ((leafDepths_spec hsum).1 (s, d) (by simp [he])).2

theorem hcBuild_pos {freq : List Nat} (hsum : freq.sum < 2584) {s : Nat} (h : 0 < freq.getD s 0) :
    0 < (hcBuild freq).getD s 0 := by
  have hs : s < freq.length := by
    by_contra hn
    simp [List.getElem?_eq_none (Nat.not_lt.mp hn)] at h
  obtain ⟨hb, -, hp⟩ := leafDepths_spec hsum
  obtain ⟨d, hd⟩ := lookup_isSome_of_mem_map_fst (hp.mem_iff.mpr (mem_usedSymbols h))
  obtain ⟨l1, l2, he, -⟩ := List.lookup_eq_some_iff.mp hd
  rw [hcBuild_getD hs, hd]
  exact (hb (s, d) (by simp [he])).1

/-- Giving one symbol another length adds at most that length's space. -/
theorem kraft15_map_update {l : List Nat} (hl : l.Nodup) (a d : Nat) (f : Nat → Nat) :
    kraft15 (l.map fun s => if s = a then d else f s) ≤ 2 ^ (15 - d) + kraft15 (l.map f) := by
  induction l with
  | nil => simp [kraft15]
  | cons x l ih =>
    obtain ⟨hx, hl⟩ := List.nodup_cons.mp hl
    rw [List.map_cons, List.map_cons, kraft15_cons, kraft15_cons]
    by_cases he : x = a
    · subst he
      have hrest : (l.map fun s => if s = x then d else f s) = l.map f :=
        List.map_congr_left fun s hs => if_neg (by rintro rfl; exact hx hs)
      rw [hrest, if_pos rfl]
      refine Nat.add_le_add ?_ (Nat.le_add_left _ _)
      split
      · exact Nat.le_refl _
      · exact Nat.zero_le _
    · rw [if_neg he]
      have := ih hl
      omega

theorem kraft15_lookup_le (ds : List (Nat × Nat)) {l : List Nat} (hl : l.Nodup) :
    kraft15 (l.map fun s => (ds.lookup s).getD 0) ≤ (ds.map fun e => 2 ^ (15 - e.2)).sum := by
  induction ds with
  | nil =>
    have : kraft15 (l.map fun _ => 0) = 0 := by simp [kraft15]
    exact Nat.le_of_eq this
  | cons e ds ih =>
    have hfun : (fun s => ((e :: ds).lookup s).getD 0) =
        fun s => if s = e.1 then e.2 else (ds.lookup s).getD 0 := by
      funext s
      by_cases h : s = e.1
      · simp [List.lookup, h]
      · have hb : (s == e.1) = false := by simpa using h
        simp [List.lookup, h, hb]
    rw [hfun, List.map_cons, List.sum_cons]
    exact Nat.le_trans (kraft15_map_update hl _ _ _) (Nat.add_le_add_left ih _)

/-- HC_BUILD's lengths lie within the Kraft bound (R82 (b)). -/
theorem hcBuild_kraft {freq : List Nat} (hsum : freq.sum < 2584) : kraft15 (hcBuild freq) ≤ 2 ^ 15 :=
  Nat.le_trans (kraft15_lookup_le _ List.nodup_range) (leafDepths_spec hsum).2.1

end Sys2Proof.Machine
end

section
/-! Blocks (R55 to R60, R79 to R91, R109): the classes of lengths and distances, the bits HC_ENCODE writes, and that the
decoder reads a block back as its tokens. -/

namespace Sys2Proof.Machine

/-! Classes (R52, R53) -/

/-- In an ascending list the bases up to `x` are the first ones. -/
theorem getElem_le_iff_lt_countP {bases : List Nat} (hs : bases.Pairwise (· < ·)) (x : Nat) {i : Nat}
    (hi : i < bases.length) : bases[i] ≤ x ↔ i < bases.countP (· ≤ x) := by
  induction bases generalizing i with
  | nil => simp at hi
  | cons b bases ih =>
    obtain ⟨hb, hs⟩ := List.pairwise_cons.mp hs
    by_cases hbx : b ≤ x
    · rw [List.countP_cons_of_pos (by simpa using hbx)]
      cases i with
      | zero => simp [hbx]
      | succ i => simpa using ih hs (by simpa using hi)
    · have hz : (b :: bases).countP (· ≤ x) = 0 := by
        refine List.countP_eq_zero.mpr fun c hc => ?_
        rcases List.mem_cons.mp hc with rfl | hc
        · simpa using hbx
        · have := hb c hc
          simp
          omega
      rw [hz]
      cases i with
      | zero => simpa using hbx
      | succ i =>
        have := hb _ (List.getElem_mem (by simpa using hi : i < bases.length))
        simp
        omega

/-- A value lies in its class: at the base or above, below the next one. `limit` bounds the last class. -/
theorem classIndex_spec {bases : List Nat} (hs : bases.Pairwise (· < ·)) {x limit : Nat} (hne : 0 < bases.length)
    (h0 : bases.getD 0 0 ≤ x) (hx : x < limit) :
    classIndex bases x < bases.length ∧ bases.getD (classIndex bases x) 0 ≤ x ∧
      x < bases.getD (classIndex bases x + 1) limit := by
  have hle : bases.countP (· ≤ x) ≤ bases.length := List.countP_le_length
  have hpos : 0 < bases.countP (· ≤ x) := by
    rw [List.getD_eq_getElem _ _ hne] at h0
    exact (getElem_le_iff_lt_countP hs x hne).mp h0
  have hc : classIndex bases x + 1 = bases.countP (· ≤ x) := by
    rw [classIndex]
    omega
  have hlt : classIndex bases x < bases.length := by omega
  refine ⟨hlt, ?_, ?_⟩
  · rw [List.getD_eq_getElem _ _ hlt]
    exact (getElem_le_iff_lt_countP hs x hlt).mpr (by omega)
  · by_cases hn : classIndex bases x + 1 < bases.length
    · rw [List.getD_eq_getElem _ _ hn]
      have := (getElem_le_iff_lt_countP hs x hn).not
      omega
    · rwa [List.getD_eq_default _ _ (by omega)]

theorem lengthOf_bounds (l3 : BitVec 8) : 3 ≤ lengthOf l3 ∧ lengthOf l3 < 259 := by
  have := l3.isLt
  simp only [lengthOf]
  omega

theorem distanceOf_bounds (d1 : BitVec 15) : 1 ≤ distanceOf d1 ∧ distanceOf d1 < 32769 := by
  have := d1.isLt
  simp only [distanceOf]
  omega

/-- A length is its class's base and an offset that the class's extra bits hold (R52). -/
theorem lengthClass_spec (l3 : BitVec 8) :
    lengthClass (lengthOf l3) < 29 ∧ lenBase.getD (lengthClass (lengthOf l3)) 0 ≤ lengthOf l3 ∧
      lengthOf l3 - lenBase.getD (lengthClass (lengthOf l3)) 0 < 2 ^ lenExtra.getD (lengthClass (lengthOf l3)) 0 := by
  obtain ⟨h3, h259⟩ := lengthOf_bounds l3
  obtain ⟨hlt, hle, hnext⟩ := classIndex_spec (bases := lenBase) (by decide) (by decide) h3 h259
  have hrows : ∀ i < 29, lenBase.getD (i + 1) 259 ≤ lenBase.getD i 0 + 2 ^ lenExtra.getD i 0 := by decide
  have := hrows (lengthClass (lengthOf l3)) hlt
  exact ⟨hlt, hle, Nat.sub_lt_left_of_lt_add hle (Nat.lt_of_lt_of_le hnext this)⟩

/-- A distance is its class's base and an offset that the class's extra bits hold (R53). -/
theorem distanceClass_spec (d1 : BitVec 15) :
    distanceClass (distanceOf d1) < 30 ∧ distBase.getD (distanceClass (distanceOf d1)) 0 ≤ distanceOf d1 ∧
      distanceOf d1 - distBase.getD (distanceClass (distanceOf d1)) 0 <
        2 ^ distExtra.getD (distanceClass (distanceOf d1)) 0 := by
  obtain ⟨h1, hlim⟩ := distanceOf_bounds d1
  obtain ⟨hlt, hle, hnext⟩ := classIndex_spec (bases := distBase) (by decide) (by decide) h1 hlim
  have hrows : ∀ j < 30, distBase.getD (j + 1) 32769 ≤ distBase.getD j 0 + 2 ^ distExtra.getD j 0 := by decide
  have := hrows (distanceClass (distanceOf d1)) hlt
  exact ⟨hlt, hle, Nat.sub_lt_left_of_lt_add hle (Nat.lt_of_lt_of_le hnext this)⟩

theorem symL_lt (t : Token) : symL t < 286 := by
  cases t with
  | lit b =>
    have := b.isLt
    simp only [symL]
    omega
  | backref l3 d1 =>
    have := (lengthClass_spec l3).1
    simp only [symL]
    omega

theorem symL_ne_eob (t : Token) : symL t ≠ 256 := by
  cases t with
  | lit b =>
    have := b.isLt
    simp only [symL]
    omega
  | backref l3 d1 =>
    simp only [symL]
    omega

theorem symD_lt {t : Token} {j : Nat} (h : symD t = some j) : j < 30 := by
  cases t with
  | lit b => cases h
  | backref l3 d1 =>
    cases h
    exact (distanceClass_spec d1).1

/-! What the emitters write -/

/-- `q` is the packer `p` after `bits` more bits, and within its bound again (R96). -/
abbrev Appends (p q : BitPacker) (bits : List Bool) : Prop := q.bits = p.bits ++ bits ∧ q.ok

theorem Appends.trans {p q r : BitPacker} {a b : List Bool} (h₁ : Appends p q a) (h₂ : Appends q r b) :
    Appends p r (a ++ b) := ⟨by rw [h₂.1, h₁.1, List.append_assoc], h₂.2⟩

theorem appends_bpWrite {p : BitPacker} (h : p.ok) (value width : Nat) :
    Appends p (bpWrite p value width) (intBits width value) := ⟨bpWrite_bits h value width, bpWrite_ok h value width⟩

theorem appends_put {p : BitPacker} (h : p.ok) (e : CodeEntry) : Appends p (put p e) e.bits :=
  ⟨put_bits h e, put_ok h e⟩

theorem appends_foldl {α : Type} {f : BitPacker → α → BitPacker} {g : α → List Bool}
    (hf : ∀ p a, p.ok → Appends p (f p a) (g a)) (l : List α) {p : BitPacker} (h : p.ok) :
    Appends p (l.foldl f p) (l.flatMap g) := by
  induction l generalizing p with
  | nil => exact ⟨by simp, h⟩
  | cons a l ih => exact (hf p a h).trans (ih (hf p a h).2)

variable (codeL : Vector CodeEntry 286) (codeD : Vector CodeEntry 30)

/-- The table of a BTYPE 2 block as it is transmitted (R57). -/
def tableBits (btype : BitVec 2) : List Bool :=
  if btype = 2 then
    codeL.toList.flatMap (fun e => intBits 4 e.len.toNat) ++ codeD.toList.flatMap (fun e => intBits 4 e.len.toNat)
  else []

theorem headerBits_eq (final : Bool) (btype : BitVec 2) :
    headerBits codeL codeD final btype = [final] ++ intBits 2 btype.toNat ++ tableBits codeL codeD btype := rfl

theorem intBits_one_toNat (b : Bool) : intBits 1 b.toNat = [b] := by cases b <;> rfl

/-- HC_EMIT_HDR writes the header's bits (R87). -/
theorem appends_emitHdr (final : Bool) (btype : BitVec 2) {p : BitPacker} (h : p.ok) :
    Appends p (emitHdr codeL codeD final btype p) (headerBits codeL codeD final btype) := by
  have h₁ := appends_bpWrite h final.toNat 1
  have h₂ := h₁.trans (appends_bpWrite h₁.2 btype.toNat 2)
  rw [intBits_one_toNat] at h₂
  have hlen : ∀ (q : BitPacker) (e : CodeEntry), q.ok → Appends q (bpWrite q e.len.toNat 4) (intBits 4 e.len.toNat) :=
    fun q e hq => appends_bpWrite hq _ _
  rw [headerBits_eq]
  simp only [emitHdr, tableBits]
  split
  · have h₃ := h₂.trans (appends_foldl hlen codeL.toList h₂.2)
    have h₄ := h₃.trans (appends_foldl hlen codeD.toList h₃.2)
    simpa only [List.append_assoc] using h₄
  · simpa only [List.append_nil] using h₂

/-- HC_EMIT_TOKEN writes the token's bits (R88). -/
theorem appends_emitToken (p : BitPacker) (tok : Token) (h : p.ok) :
    Appends p (emitToken codeL codeD p tok) (tokenBits codeL codeD tok) := by
  cases tok with
  | lit b => exact appends_put h _
  | backref l3 d1 =>
    have h₁ := appends_put h (entry codeL (257 + lengthClass (lengthOf l3)))
    have h₂ := h₁.trans (appends_bpWrite h₁.2 (lengthOf l3 - lenBase.getD (lengthClass (lengthOf l3)) 0)
      (lenExtra.getD (lengthClass (lengthOf l3)) 0))
    have h₃ := h₂.trans (appends_put h₂.2 (entry codeD (distanceClass (distanceOf d1))))
    exact h₃.trans (appends_bpWrite h₃.2 _ _)

/-- The stream bits of a block (R55, R90). -/
def blockBits (final : Bool) (btype : BitVec 2) (toks : List Token) : List Bool :=
  headerBits codeL codeD final btype ++ toks.flatMap (tokenBits codeL codeD) ++ (entry codeL 256).bits

theorem appends_emitBlock (final : Bool) (btype : BitVec 2) (toks : List Token) {p : BitPacker} (h : p.ok) :
    Appends p (emitBlock codeL codeD final btype toks p) (blockBits codeL codeD final btype toks) := by
  have h₁ := appends_emitHdr codeL codeD final btype h
  have h₂ := h₁.trans (appends_foldl (appends_emitToken codeL codeD) toks h₁.2)
  exact h₂.trans (appends_put h₂.2 _)

/-! Reading symbols back -/

/-- The decoder reads the entry's code as the symbol. -/
def Readable (t : DecodeTable) (e : CodeEntry) (s : Nat) : Prop :=
  ∀ rest, readSymbol t 15 0 0 (e.bits ++ rest) = some (s, rest)

theorem readable_decodeTable {lens : List Nat} (h : ∀ l ∈ lens, l ≤ 15) (hk : kraft15 lens ≤ 2 ^ 15) {s : Nat}
    (hs : s < lens.length) (hpos : 0 < lens.getD s 0) {e : CodeEntry} (hlen : e.len.toNat = lens.getD s 0)
    (hcode : e.code.toNat = (hcAssign lens).getD s 0) : Readable (decodeTable lens) e s := by
  intro rest
  rw [CodeEntry.bits_eq, hlen, hcode]
  exact readSymbol_decodeTable h hk hs hpos rest

theorem entry_tabulate {n : Nat} (f : Nat → CodeEntry) {s : Nat} (hs : s < n) : entry (tabulate n f) s = f s := by
  simp [entry, tabulate, Vector.getD, hs]

/-- A custom table's codes read back from its own lengths (R57, R83). -/
theorem readable_customTable {n : Nat} {lens : List Nat} (hn : lens.length = n) (h : ∀ l ∈ lens, l ≤ 15)
    (hk : kraft15 lens ≤ 2 ^ 15) {s : Nat} (hs : s < n) (hpos : 0 < lens.getD s 0) :
    Readable (decodeTable lens) (entry (customTable n lens) s) s := by
  subst hn
  have hle : lens.getD s 0 ≤ 15 := by
    rw [List.getD_eq_getElem _ _ hs]
    exact h _ (List.getElem_mem hs)
  have hfit : (hcAssign lens).getD s 0 < 2 ^ 15 :=
    Nat.lt_of_lt_of_le (hcAssign_fits h hk hs hpos) (Nat.pow_le_pow_right (by decide) hle)
  rw [customTable, entry_tabulate _ hs]
  refine readable_decodeTable h hk hs hpos ?_ ?_
  · rw [BitVec.toNat_ofNat]
    exact Nat.mod_eq_of_lt (by omega)
  · rw [BitVec.toNat_ofNat]
    exact Nat.mod_eq_of_lt hfit

/-- The fixed lengths over all 288 symbols (R54). -/
def fixedLensL : List Nat := (List.range 288).map fixLenL

/-- The fixed distance lengths over all 32 symbols (R54). -/
def fixedLensD : List Nat := List.replicate 32 fixLenD

theorem hcAssign_fixedLensL : ∀ s < 286, (hcAssign fixedLensL).getD s 0 = fixCodeL s := by decide +kernel

theorem hcAssign_fixedLensD : ∀ s < 30, (hcAssign fixedLensD).getD s 0 = s := by decide +kernel

theorem readable_fixedCodeL {s : Nat} (hs : s < 286) :
    Readable (decodeTable fixedLensL) (entry fixedCodeL s) s := by
  have h288 : s < 288 := by omega
  have hlen : fixedLensL.getD s 0 = fixLenL s := by simp [fixedLensL, h288]
  have hbounds : ∀ s < 286, fixCodeL s < 2 ^ 15 ∧ 0 < fixLenL s ∧ fixLenL s < 2 ^ 4 := by decide +kernel
  obtain ⟨hc, hpos, hl⟩ := hbounds s hs
  rw [fixedCodeL, entry_tabulate _ hs]
  refine readable_decodeTable (by decide +kernel) (by decide +kernel) (by simpa [fixedLensL] using h288)
    (by rwa [hlen]) ?_ ?_
  · rw [hlen, BitVec.toNat_ofNat]
    exact Nat.mod_eq_of_lt hl
  · rw [hcAssign_fixedLensL s hs, BitVec.toNat_ofNat]
    exact Nat.mod_eq_of_lt hc

theorem readable_fixedCodeD {s : Nat} (hs : s < 30) :
    Readable (decodeTable fixedLensD) (entry fixedCodeD s) s := by
  have h32 : s < 32 := by omega
  have hlen : fixedLensD.getD s 0 = 5 := by
    rw [fixedLensD, List.getD_eq_getElem _ _ (by simpa using h32), List.getElem_replicate]
    rfl
  rw [fixedCodeD, entry_tabulate _ hs]
  refine readable_decodeTable (by decide) (by decide +kernel) (by simpa [fixedLensD] using h32)
    (by rw [hlen]; decide) ?_ ?_
  · rw [hlen]
    rfl
  · rw [hcAssign_fixedLensD s hs, BitVec.toNat_ofNat]
    exact Nat.mod_eq_of_lt (by omega)

/-! Reading tokens back -/

/-! What a round of the decoder's token loop does with the symbol it reads. -/

theorem readBlock_literal {lit dist : DecodeTable} {fuel s : Nat} {bits bits' : List Bool} {out : List Byte}
    (hs : readSymbol lit 15 0 0 bits = some (s, bits')) (h : s < 256) :
    readBlock lit dist (fuel + 1) bits out = readBlock lit dist fuel bits' (BitVec.ofNat 8 s :: out) := by
  show (match readSymbol lit 15 0 0 bits with | none => none | some (s, bits) => _) = _
  rw [hs]
  exact if_pos h

theorem readBlock_eob {lit dist : DecodeTable} {fuel : Nat} {bits bits' : List Bool} {out : List Byte}
    (hs : readSymbol lit 15 0 0 bits = some (256, bits')) :
    readBlock lit dist (fuel + 1) bits out = some (bits', out) := by
  show (match readSymbol lit 15 0 0 bits with | none => none | some (s, bits) => _) = _
  rw [hs]
  rfl

theorem readBlock_match {lit dist : DecodeTable} {fuel i len d : Nat} {bits bits' bits'' : List Bool}
    {out out' : List Byte} (hs : readSymbol lit 15 0 0 bits = some (257 + i, bits')) (hi : i < 29)
    (hm : readMatch dist i bits' = some (len, d, bits'')) (hc : copyBack len d out = some out') :
    readBlock lit dist (fuel + 1) bits out = readBlock lit dist fuel bits'' out' := by
  show (match readSymbol lit 15 0 0 bits with | none => none | some (s, bits) => _) = _
  rw [hs]
  simp only [Nat.add_sub_cancel_left, hm, hc]
  rw [if_neg (by omega), if_neg (by omega), if_neg (by omega)]

/-- The extra bits and the distance of a match read back (R59). -/
theorem readMatch_bits {dist : DecodeTable} {i j x y : Nat} {e : CodeEntry} (hj : j < 30)
    (hx : x < 2 ^ lenExtra.getD i 0) (hy : y < 2 ^ distExtra.getD j 0) (he : Readable dist e j) (rest : List Bool) :
    readMatch dist i (intBits (lenExtra.getD i 0) x ++ (e.bits ++ (intBits (distExtra.getD j 0) y ++ rest))) =
      some (lenBase.getD i 0 + x, distBase.getD j 0 + y, rest) := by
  simp only [readMatch, readInt_intBits hx, he _, readInt_intBits hy, if_neg (Nat.not_le.mpr hj)]

/-- The decoder reads the token's symbols. -/
def TokenReadable (lit dist : DecodeTable) (tok : Token) : Prop :=
  Readable lit (entry codeL (symL tok)) (symL tok) ∧ ∀ j, symD tok = some j → Readable dist (entry codeD j) j

variable {codeL codeD} in
/-- One token of a block (R109). -/
theorem readBlock_token {lit dist : DecodeTable} {tok : Token} (h : TokenReadable codeL codeD lit dist tok)
    (fuel : Nat) (rest : List Bool) {out out' : List Byte} (he : expandToken out tok = some out') :
    readBlock lit dist (fuel + 1) (tokenBits codeL codeD tok ++ rest) out = readBlock lit dist fuel rest out' := by
  obtain ⟨hL, hD⟩ := h
  cases tok with
  | lit b =>
    cases he
    have hb : BitVec.ofNat 8 b.toNat = b := by simp
    exact (readBlock_literal (hL rest) b.isLt).trans (by rw [symL, hb])
  | backref l3 d1 =>
    obtain ⟨hi, hbase, hx⟩ := lengthClass_spec l3
    obtain ⟨hj, hdbase, hy⟩ := distanceClass_spec d1
    have hm := readMatch_bits hj hx hy (hD _ rfl) rest
    rw [Nat.add_sub_cancel' hbase, Nat.add_sub_cancel' hdbase] at hm
    simp only [tokenBits, List.append_assoc]
    exact readBlock_match (hL _) hi hm he

theorem foldl_bind_none (ts : List Token) :
    ts.foldl (fun o t => o.bind fun out => expandToken out t) none = none := by
  induction ts with
  | nil => rfl
  | cons t ts ih => exact ih

theorem expandTokens_cons (out : List Byte) (t : Token) (ts : List Token) :
    expandTokens out (t :: ts) = (expandToken out t).bind fun o => expandTokens o ts := by
  simp only [expandTokens, List.foldl_cons, Option.bind_some]
  cases expandToken out t with
  | none => exact foldl_bind_none ts
  | some o => rfl

theorem expandTokens_append (out : List Byte) (ts us : List Token) :
    expandTokens out (ts ++ us) = (expandTokens out ts).bind fun o => expandTokens o us := by
  induction ts generalizing out with
  | nil => rfl
  | cons t ts ih =>
    rw [List.cons_append, expandTokens_cons, expandTokens_cons, Option.bind_assoc]
    exact Option.bind_congr fun o _ => ih o

variable {codeL codeD} in
/-- The tokens of a block up to its EOB (R109). -/
theorem readBlock_tokens {lit dist : DecodeTable} {toks : List Token}
    (h : ∀ tok ∈ toks, TokenReadable codeL codeD lit dist tok) (heob : Readable lit (entry codeL 256) 256)
    {fuel : Nat} (hfuel : toks.length < fuel) (rest : List Bool) {out out' : List Byte}
    (he : expandTokens out toks = some out') :
    readBlock lit dist fuel (toks.flatMap (tokenBits codeL codeD) ++ (entry codeL 256).bits ++ rest) out =
      some (rest, out') := by
  induction toks generalizing fuel out with
  | nil =>
    obtain ⟨fuel, rfl⟩ : ∃ f, fuel = f + 1 := ⟨fuel - 1, by omega⟩
    cases he
    exact readBlock_eob (heob rest)
  | cons tok toks ih =>
    obtain ⟨fuel, rfl⟩ : ∃ f, fuel = f + 1 := ⟨fuel - 1, by omega⟩
    rw [expandTokens_cons] at he
    obtain ⟨o, ho, he⟩ := Option.bind_eq_some_iff.mp he
    rw [List.flatMap_cons, List.append_assoc, List.append_assoc, readBlock_token (h tok (by simp)) _ _ ho,
      ← List.append_assoc]
    exact ih (fun t ht => h t (by simp [ht])) (by simpa using hfuel) he

/-- A code that reads back has at least one bit. -/
theorem Readable.length_pos {t : DecodeTable} {e : CodeEntry} {s : Nat} (h : Readable t e s) : 0 < e.bits.length := by
  rw [List.length_pos_iff]
  intro he
  have := h []
  rw [he] at this
  cases this

variable {codeL codeD} in
theorem TokenReadable.length_pos {lit dist : DecodeTable} {tok : Token} (h : TokenReadable codeL codeD lit dist tok) :
    0 < (tokenBits codeL codeD tok).length := by
  have hL := h.1.length_pos
  cases tok with
  | lit b => exact hL
  | backref l3 d1 =>
    simp only [symL] at hL
    simp only [tokenBits, List.length_append]
    omega

theorem length_le_flatMap_length {α : Type} {g : α → List Bool} {l : List α} (h : ∀ a ∈ l, 0 < (g a).length) :
    l.length ≤ (l.flatMap g).length := by
  induction l with
  | nil => exact Nat.zero_le _
  | cons a l ih =>
    have ha := h a (by simp)
    have hl := ih fun b hb => h b (by simp [hb])
    simp only [List.flatMap_cons, List.length_append, List.length_cons]
    omega

/-! Reading blocks back -/

theorem readLengths_intBits {ls : List Nat} (h : ∀ l ∈ ls, l < 16) (rest : List Bool) :
    readLengths ls.length (ls.flatMap (intBits 4) ++ rest) = some (ls, rest) := by
  induction ls with
  | nil => rfl
  | cons l ls ih =>
    have hl : l < 2 ^ 4 := h l (by simp)
    simp [readLengths, readInt_intBits hl, ih fun k hk => h k (by simp [hk])]

/-- The transmitted lengths of a table are those it was made from (R57). -/
theorem customTable_lens {n : Nat} {lens : List Nat} (hn : lens.length = n) (h : ∀ l ∈ lens, l ≤ 15) :
    (customTable n lens).toList.map (fun e => e.len.toNat) = lens := by
  subst hn
  simp only [customTable, tabulate, Vector.toList_mk, List.map_map]
  refine List.ext_getElem (by simp) fun i hi hl => ?_
  have := h _ (List.getElem_mem hl)
  simp [hl]
  omega

/-- What the decoder needs of an installed table: it finds the two codes after the BTYPE, and reads every used symbol
with them. -/
structure Decodable (btype : BitVec 2) (lit dist : DecodeTable) (toks : List Token) : Prop where
  readTables : ∀ rest, readTables btype.toNat (tableBits codeL codeD btype ++ rest) = some (lit, dist, rest)
  token : ∀ tok ∈ toks, TokenReadable codeL codeD lit dist tok
  eob : Readable lit (entry codeL 256) 256

/-- A block's bits are those of the tokens: the decoder reads them so, and goes on unless the block is final (R109). -/
def ReadsBlock (final : Bool) (toks : List Token) (bits : List Bool) : Prop :=
  ∀ fuel rest out out', expandTokens out toks = some out' →
    readBlocks (fuel + 1) (bits ++ rest) out = if final = true then some out' else readBlocks fuel rest out'

variable {codeL codeD} in
theorem Decodable.readsBlock {btype : BitVec 2} {lit dist : DecodeTable} {toks : List Token}
    (h : Decodable codeL codeD btype lit dist toks) (final : Bool) :
    ReadsBlock final toks (blockBits codeL codeD final btype toks) := by
  intro fuel rest out out' he
  have hf : ∀ r, readInt 1 ([final] ++ r) = some (final.toNat, r) := fun r => by
    rw [← intBits_one_toNat]
    exact readInt_intBits (by cases final <;> decide) r
  have hb : ∀ r, readInt 2 (intBits 2 btype.toNat ++ r) = some (btype.toNat, r) := fun r =>
    readInt_intBits btype.isLt r
  have hfuel : toks.length <
      (toks.flatMap (tokenBits codeL codeD) ++ (entry codeL 256).bits ++ rest).length + 1 := by
    have := length_le_flatMap_length fun t ht => (h.token t ht).length_pos
    simp only [List.length_append]
    omega
  have hr := readBlock_tokens h.token h.eob hfuel rest he
  simp only [List.append_assoc] at hr
  simp only [blockBits, headerBits_eq, List.append_assoc, readBlocks, hf, hb, h.readTables, hr]
  cases final <;> simp

end Sys2Proof.Machine
end

section
/-! The match finder (R65 to R76, R109): every token expands, behind the bytes already coded, to the bytes it covers. -/

namespace Sys2Proof.Machine

/-! The search -/

/-- An earlier position is a distance within the history, with the history from there on. -/
theorem mem_earlier {back suffix suf : List Byte} {d₀ d : Nat} (h : (d, suf) ∈ earlier back suffix d₀) :
    d₀ ≤ d ∧ d < d₀ + back.length ∧ suf = (back.take (d + 1 - d₀)).reverse ++ suffix := by
  induction back generalizing suffix d₀ with
  | nil => simp [earlier] at h
  | cons b back ih =>
    rcases List.mem_cons.mp h with he | h
    · cases he
      simp
    · obtain ⟨hge, hlt, rfl⟩ := ih h
      have hd : d + 1 - d₀ = d + 1 - (d₀ + 1) + 1 := by omega
      refine ⟨by omega, by simp only [List.length_cons]; omega, ?_⟩
      simp [hd]

/-- A candidate stands at a distance within the window and the history (R67). -/
theorem mem_candidates {ws mc : Nat} {back ahead : List Byte} {c : Nat × List Byte}
    (h : c ∈ candidates ws mc back ahead) :
    1 ≤ c.1 ∧ c.1 ≤ ws ∧ c.1 ≤ back.length ∧ c.2 = (back.take c.1).reverse ++ ahead := by
  obtain ⟨hge, hlt, hsuf⟩ := mem_earlier (List.mem_filter.mp (List.mem_of_mem_take h)).1
  rw [List.length_take] at hlt
  refine ⟨hge, by omega, by omega, ?_⟩
  rw [hsuf, Nat.add_sub_cancel, List.take_take, Nat.min_eq_left (by omega)]

theorem foldl_probe_cases (cap : Nat) (ahead : List Byte) (cs : List (Nat × List Byte)) (best : Nat × Nat) :
    cs.foldl (probe cap ahead) best = best ∨
      ∃ c ∈ cs, cs.foldl (probe cap ahead) best = (matchLen cap c.2 ahead, c.1) := by
  induction cs generalizing best with
  | nil => exact .inl rfl
  | cons c cs ih =>
    rw [List.foldl_cons]
    rcases ih (probe cap ahead best c) with h | ⟨c', hc', h⟩
    · rcases probe_cases cap ahead best c with ⟨-, hp⟩ | ⟨-, hp⟩
      · exact .inl (h.trans hp)
      · exact .inr ⟨c, by simp, h.trans hp⟩
    · exact .inr ⟨c', by simp [hc'], h⟩

/-- A match found is a candidate's agreement with the lookahead. -/
theorem mfSearch_candidate {cfg : Cfg} {buf : List Byte} {p e l d : Nat} (h : mfSearch cfg buf p e = some (l, d)) :
    3 ≤ l ∧ ∃ c ∈ candidates cfg.ws cfg.mc (buf.take p).reverse ((buf.take e).drop p),
      l = matchLen (min cfg.mm ((buf.take e).drop p).length) c.2 ((buf.take e).drop p) ∧ d = c.1 := by
  obtain ⟨-, h3, he⟩ := mfSearch_eq_some h
  refine ⟨h3, ?_⟩
  rcases foldl_probe_cases (min cfg.mm ((buf.take e).drop p).length) ((buf.take e).drop p)
    (candidates cfg.ws cfg.mc (buf.take p).reverse ((buf.take e).drop p)) (0, 0) with hb | ⟨c, hc, hb⟩
  · cases he.trans hb
    omega
  · cases he.trans hb
    exact ⟨c, hc, rfl, rfl⟩

/-! Copies -/

/-- Copying as many bytes as the history at a distance agrees with the lookahead yields the lookahead's bytes, the copy
running on into itself where it is longer than the distance (R68, R109). -/
theorem copyBack_matchLen (cap : Nat) {d : Nat} {out : List Byte} (ahead : List Byte) (h1 : 1 ≤ d)
    (hd : d ≤ out.length) :
    copyBack (matchLen cap ((out.take d).reverse ++ ahead) ahead) d out =
      some ((ahead.take (matchLen cap ((out.take d).reverse ++ ahead) ahead)).reverse ++ out) := by
  induction cap generalizing out ahead with
  | zero => rfl
  | succ cap ih =>
    obtain ⟨k, rfl⟩ : ∃ k, d = k + 1 := ⟨d - 1, by omega⟩
    have hk : k < out.length := hd
    have hrev : (out.take (k + 1)).reverse = out[k] :: (out.take k).reverse := by
      rw [List.take_succ_eq_append_getElem hk]
      simp
    rw [hrev, List.cons_append]
    cases ahead with
    | nil => rfl
    | cons b ahead =>
      simp only [matchLen]
      split
      · next he =>
        have hnext : (out.take k).reverse ++ b :: ahead = ((b :: out).take (k + 1)).reverse ++ ahead := by simp
        rw [hnext]
        have hget : out[k + 1 - 1]? = some b := by simp [hk, he]
        simp only [copyBack, hget, if_neg (Nat.succ_ne_zero k)]
        rw [ih ahead (out := b :: out) (by simp; omega)]
        simp
      · rfl

/-! MF_STEP and MF_ENCODE -/

theorem expandToken_matchToken {cfg : Cfg} (hcfg : cfg.legal) {l d : Nat} (h3 : 3 ≤ l) (hl : l ≤ cfg.mm) (h1 : 1 ≤ d)
    (hd : d ≤ cfg.ws) (out : List Byte) : expandToken out (matchToken l d) = copyBack l d out := by
  obtain ⟨-, hws, -, hmm, -⟩ := hcfg
  have hlen : lengthOf (BitVec.ofNat 8 (l - 3)) = l := by
    rw [lengthOf, BitVec.toNat_ofNat, Nat.mod_eq_of_lt (by omega)]
    omega
  have hdist : distanceOf (BitVec.ofNat 15 (d - 1)) = d := by
    rw [distanceOf, BitVec.toNat_ofNat, Nat.mod_eq_of_lt (by omega)]
    omega
  rw [matchToken, expandToken, hlen, hdist]

theorem reverse_take_add (buf : List Byte) (p l : Nat) (older : List Byte) :
    ((buf.drop p).take l).reverse ++ ((buf.take p).reverse ++ older) = (buf.take (p + l)).reverse ++ older := by
  rw [List.take_add, List.reverse_append, List.append_assoc]

/-- MF_STEP's token expands, behind the bytes up to the cursor, to the bytes it covers (R70, R76). -/
theorem mfStep_expands {cfg : Cfg} (hcfg : cfg.legal) {buf : List Byte} {p : Nat} (hp : p < buf.length)
    (older : List Byte) :
    p + (mfStep cfg buf p buf.length).2 ≤ buf.length ∧
      expandToken ((buf.take p).reverse ++ older) (mfStep cfg buf p buf.length).1 =
        some ((buf.take (p + (mfStep cfg buf p buf.length).2)).reverse ++ older) := by
  rcases mfStep_cases cfg buf p buf.length with h | ⟨l, d, hs, h⟩
  · rw [h]
    refine ⟨hp, ?_⟩
    rw [expandToken, ← reverse_take_add, List.drop_eq_getElem_cons hp, List.getD_eq_getElem _ _ hp]
    rfl
  · obtain ⟨h3, c, hc, hl, rfl⟩ := mfSearch_candidate hs
    rw [List.take_length] at hc hl
    obtain ⟨h1, hws, hback, hsuf⟩ := mem_candidates hc
    have hcap := matchLen_le_cap (min cfg.mm (buf.drop p).length) c.2 (buf.drop p)
    rw [← hl, List.length_drop] at hcap
    rw [h]
    refine ⟨by show p + l ≤ buf.length; omega, ?_⟩
    have htake : ((buf.take p).reverse ++ older).take c.1 = (buf.take p).reverse.take c.1 :=
      List.take_append_of_le_length hback
    have hcopy := copyBack_matchLen (min cfg.mm (buf.drop p).length) (out := (buf.take p).reverse ++ older)
      (buf.drop p) h1 (by rw [List.length_append]; omega)
    rw [htake, ← hsuf, ← hl, reverse_take_add] at hcopy
    rw [expandToken_matchToken hcfg h3 (by omega) h1 hws]
    exact hcopy

/-- MF_ENCODE's loop: the tokens expand to the bytes from the first cursor to the last, which is the end if the command
finishes (R72). -/
theorem mfLoop_expands {cfg : Cfg} (hcfg : cfg.legal) (finish : Bool) (buf older : List Byte) (fuel : Nat) {p : Nat}
    (hp : p ≤ buf.length) :
    let r := mfLoop cfg finish buf buf.length fuel p
    p ≤ r.2 ∧ r.2 ≤ buf.length ∧
      expandTokens ((buf.take p).reverse ++ older) r.1 = some ((buf.take r.2).reverse ++ older) ∧
      (finish = true → buf.length ≤ p + fuel → r.2 = buf.length) := by
  induction fuel generalizing p with
  | zero => exact ⟨Nat.le_refl p, hp, rfl, fun _ h => Nat.le_antisymm hp h⟩
  | succ fuel ih =>
    simp only [mfLoop]
    split
    · next hd =>
      have hlt : p < buf.length := by
        simp only [decidableAt, Bool.and_eq_true, decide_eq_true_eq] at hd
        exact hd.1
      obtain ⟨hle, hx⟩ := mfStep_expands hcfg hlt older
      have hadv := mfStep_advance_pos cfg buf p buf.length
      obtain ⟨hge, hend, hxs, hfin⟩ := ih hle
      refine ⟨by omega, hend, ?_, fun hf hfuel => hfin hf (by omega)⟩
      rw [expandTokens_cons, hx]
      exact hxs
    · next hd =>
      refine ⟨Nat.le_refl p, hp, rfl, fun hf _ => ?_⟩
      simp only [decidableAt, hf, Bool.true_or, Bool.and_true, decide_eq_true_eq] at hd
      show p = buf.length
      omega

theorem windowExtend_suffix (ws : Nat) (win bytes : List Byte) : windowExtend ws win bytes <:+ win ++ bytes :=
  List.drop_suffix _ _

/-- MF_ENCODE codes the bytes up to some point of window, PEND and input: expanding its tokens behind the history gives
them back, WIN ends there and PEND begins there; if the command finishes, nothing is left (R72, R76). -/
theorem mfEncode_expands {cfg : Cfg} (hcfg : cfg.legal) (older win pend input : List Byte) (finish : Bool) :
    ∃ coded, coded ++ (mfEncode cfg win pend input finish).pend = older ++ win ++ pend ++ input ∧
      (mfEncode cfg win pend input finish).win <:+ coded ∧
      expandTokens (older ++ win).reverse (mfEncode cfg win pend input finish).tokens = some coded.reverse ∧
      (finish = true → (mfEncode cfg win pend input finish).pend = []) := by
  simp only [mfEncode]
  generalize hbuf : win ++ pend ++ input = buf
  have hwin : buf.take win.length = win := by simp [← hbuf]
  have hlen : win.length ≤ buf.length := by
    rw [← hbuf, List.length_append, List.length_append]
    omega
  obtain ⟨hge, hend, hx, hfin⟩ := mfLoop_expands hcfg finish buf older.reverse (buf.length - win.length) hlen
  generalize mfLoop cfg finish buf buf.length (buf.length - win.length) win.length = r at *
  have hcoded : win ++ (buf.take r.2).drop win.length = buf.take r.2 := by
    have h := List.take_append_drop win.length (buf.take r.2)
    rwa [List.take_take, Nat.min_eq_left hge, hwin] at h
  refine ⟨older ++ buf.take r.2, ?_, ?_, ?_, fun hf => ?_⟩
  · rw [List.append_assoc, List.take_append_drop, ← hbuf]
    simp
  · have := windowExtend_suffix cfg.ws win ((buf.take r.2).drop win.length)
    rw [hcoded] at this
    exact this.trans (List.suffix_append _ _)
  · rw [hwin] at hx
    rw [List.reverse_append, List.reverse_append]
    exact hx
  · rw [hfin hf (by omega), List.drop_length]

end Sys2Proof.Machine
end

section
/-! Sessions (R102, R104, R108, R109): the counters count the buffered tokens, every block HC_ENCODE writes reads back
as those tokens, and so the stream of a finished session inflates to its input. Settles O16. -/

namespace Sys2Proof.Machine

/-! Counters (R24, R80) -/

theorem bump_getD {n : Nat} (freq : Vector (BitVec 12) n) (sym : Nat) {s : Nat} (hs : s < n) :
    (bump freq sym).getD s 0 = freq.getD s 0 + if s = sym then 1 else 0 := by
  by_cases h : s = sym
  · subst h
    simp [bump, Vector.getD, hs]
  · simp [bump, Vector.getD, hs, h, Ne.symm h]

theorem toNat_add_one_if {x : BitVec 12} {k : Nat} (hx : x.toNat = k) (hk : k < 4095) (p : Prop) [Decidable p] :
    (x + if p then 1 else 0).toNat = k + if p then 1 else 0 := by
  split
  · rw [BitVec.toNat_add, hx]
    exact Nat.mod_eq_of_lt (by simp; omega)
  · simpa using hx

/-- The session with one more token in TOKBUF, counted (R102 step 5). -/
def pushToken (ses : Session) (tok : Token) : Session := hcCount { ses with tokbuf := ses.tokbuf ++ [tok] } tok

theorem takeToken_eq (u : Nat) (cfg : Cfg) (ses : Session) (tok : Token) :
    takeToken u cfg ses tok =
      if (pushToken ses tok).tokbuf.length = u then hcEncode cfg false (pushToken ses tok) else pushToken ses tok := rfl

theorem pushToken_counted {ses : Session} (h : ses.counted) (hlen : ses.tokbuf.length < 4095) (tok : Token) :
    (pushToken ses tok).counted := by
  obtain ⟨hL, hD⟩ := h
  have hle : ∀ p : Token → Bool, ses.tokbuf.countP p < 4095 := fun p => Nat.lt_of_le_of_lt List.countP_le_length hlen
  refine ⟨fun s hs => ?_, fun j hj => ?_⟩
  · show ((bump ses.freqL (symL tok)).getD s 0).toNat = (ses.tokbuf ++ [tok]).countP _
    rw [bump_getD _ _ hs, toNat_add_one_if (hL s hs) (hle _), List.countP_append, List.countP_singleton]
    simp [@eq_comm _ s]
  · cases hd : symD tok with
    | none =>
      have hf : (pushToken ses tok).freqD = ses.freqD := by simp [pushToken, hcCount, hd]
      rw [hf, hD j hj]
      simp [pushToken, hd]
    | some i =>
      have hf : (pushToken ses tok).freqD = bump ses.freqD i := by simp [pushToken, hcCount, hd]
      rw [hf, bump_getD _ _ hj, toNat_add_one_if (hD j hj) (hle _)]
      simp [pushToken, hd, @eq_comm _ j]

theorem counted_of_empty {ses : Session} (ht : ses.tokbuf = []) (hL : ses.freqL = Vector.replicate 286 0)
    (hD : ses.freqD = Vector.replicate 30 0) : ses.counted := by
  refine ⟨fun s hs => ?_, fun j hj => ?_⟩
  · simp [ht, hL, Vector.getD, hs]
  · simp [ht, hD, Vector.getD, hj]

theorem counts_getD {n : Nat} (freq : Vector (BitVec 12) n) (s : Nat) :
    (counts freq).getD s 0 = (freq.getD s 0).toNat := by
  by_cases h : s < n <;> simp [counts, Vector.getD, h]

theorem counts_sum {n : Nat} (freq : Vector (BitVec 12) n) :
    (counts freq).sum = ∑ s ∈ Finset.range n, (freq.getD s 0).toNat := by
  have h : counts freq = (List.range n).map fun s => (freq.getD s 0).toNat := by
    refine List.ext_getElem (by simp) fun s hs hs' => ?_
    rw [← List.getD_eq_getElem _ 0 hs, counts_getD]
    simp
  rw [h]
  rfl

/-- Every token is counted under one symbol at most. -/
theorem sum_countP_le_length (f : Token → Option Nat) (n : Nat) (ts : List Token) :
    ∑ s ∈ Finset.range n, ts.countP (fun t => f t == some s) ≤ ts.length := by
  induction ts with
  | nil => simp
  | cons t ts ih =>
    have h1 : ∑ s ∈ Finset.range n, (if (f t == some s) = true then 1 else 0) ≤ 1 := by
      cases f t with
      | none => simp
      | some a =>
        simp only [beq_iff_eq, Option.some.injEq, Finset.sum_ite_eq]
        split <;> simp
    simp only [List.countP_cons, Finset.sum_add_distrib, List.length_cons]
    exact Nat.add_le_add ih h1

theorem counts_freqD_sum_le {ses : Session} (h : ses.counted) : (counts ses.freqD).sum ≤ ses.tokbuf.length := by
  rw [counts_sum, Finset.sum_congr rfl fun j hj => h.2 j (Finset.mem_range.mp hj)]
  exact sum_countP_le_length symD 30 ses.tokbuf

theorem countEob_freqL_getD (ses : Session) {s : Nat} (hs : s < 286) :
    (countEob ses).freqL.getD s 0 = if s = 256 then 1 else ses.freqL.getD s 0 := by
  by_cases h : s = 256
  · subst h
    simp [Vector.getD]
  · simp [Vector.getD, hs, h, Ne.symm h]

theorem counts_countEob_sum_le {ses : Session} (h : ses.counted) :
    (counts (countEob ses).freqL).sum ≤ ses.tokbuf.length + 1 := by
  have hs : ∀ s ∈ Finset.range 286, ((countEob ses).freqL.getD s 0).toNat ≤
      ses.tokbuf.countP (fun t => some (symL t) == some s) + if s = 256 then 1 else 0 := by
    intro s hs
    have hs := Finset.mem_range.mp hs
    rw [countEob_freqL_getD ses hs]
    split
    · exact Nat.le_add_left _ _
    · simpa using Nat.le_of_eq (h.1 s hs)
  rw [counts_sum]
  refine Nat.le_trans (Finset.sum_le_sum hs) ?_
  rw [Finset.sum_add_distrib]
  exact Nat.add_le_add (sum_countP_le_length (fun t => some (symL t)) 286 ses.tokbuf) (by simp)

theorem counts_countEob_eob (ses : Session) : 0 < (counts (countEob ses).freqL).getD 256 0 := by
  rw [counts_getD, countEob_freqL_getD ses (by decide), if_pos rfl]
  decide

theorem counts_countEob_pos {ses : Session} (h : ses.counted) {tok : Token} (ht : tok ∈ ses.tokbuf) :
    0 < (counts (countEob ses).freqL).getD (symL tok) 0 := by
  rw [counts_getD, countEob_freqL_getD ses (symL_lt tok), if_neg (symL_ne_eob tok), h.1 _ (symL_lt tok)]
  exact List.countP_pos_iff.mpr ⟨tok, ht, by simp⟩

theorem counts_freqD_pos {ses : Session} (h : ses.counted) {tok : Token} (ht : tok ∈ ses.tokbuf) {j : Nat}
    (hj : symD tok = some j) : 0 < (counts ses.freqD).getD j 0 := by
  rw [counts_getD, h.2 j (symD_lt hj)]
  exact List.countP_pos_iff.mpr ⟨tok, ht, by simp [hj]⟩

/-! Blocks read back -/

theorem decodable_fixed (toks : List Token) :
    Decodable fixedCodeL fixedCodeD 1 (decodeTable fixedLensL) (decodeTable fixedLensD) toks where
  readTables _ := rfl
  token tok _ := ⟨readable_fixedCodeL (symL_lt tok), fun _ hj => readable_fixedCodeD (symD_lt hj)⟩
  eob := readable_fixedCodeL (by decide)

/-- The transmitted lengths of a half of a custom table read back (R57). -/
theorem readLengths_customTable {n : Nat} {lens : List Nat} (hn : lens.length = n) (h : ∀ l ∈ lens, l ≤ 15)
    (rest : List Bool) :
    readLengths n ((customTable n lens).toList.flatMap (fun e => intBits 4 e.len.toNat) ++ rest) =
      some (lens, rest) := by
  have hf : (customTable n lens).toList.flatMap (fun e => intBits 4 e.len.toNat) = lens.flatMap (intBits 4) := by
    conv_rhs => rw [← customTable_lens hn h, List.flatMap_map]
  rw [hf, ← hn]
  exact readLengths_intBits (fun l hl => Nat.lt_succ_of_le (h l hl)) rest

theorem readTables_custom {bits bits' rest : List Bool} {ll dl : List Nat}
    (hl : readLengths 286 bits = some (ll, bits')) (hd : readLengths 30 bits' = some (dl, rest)) :
    readTables 2 bits = some (decodeTable ll, decodeTable dl, rest) := by
  simp only [readTables, hl, hd]

theorem decodable_custom {fl fd : List Nat} {toks : List Token} (hl : fl.length = 286) (hd : fd.length = 30)
    (hfl : fl.sum < 2584) (hfd : fd.sum < 2584) (heob : 0 < fl.getD 256 0)
    (hsymL : ∀ tok ∈ toks, 0 < fl.getD (symL tok) 0)
    (hsymD : ∀ tok ∈ toks, ∀ j, symD tok = some j → 0 < fd.getD j 0) :
    Decodable (customTable 286 (hcBuild fl)) (customTable 30 (hcBuild fd)) 2 (decodeTable (hcBuild fl))
      (decodeTable (hcBuild fd)) toks := by
  have hnl : (hcBuild fl).length = 286 := (hcBuild_length fl).trans hl
  have hnd : (hcBuild fd).length = 30 := (hcBuild_length fd).trans hd
  have hL : ∀ s < 286, 0 < fl.getD s 0 →
      Readable (decodeTable (hcBuild fl)) (entry (customTable 286 (hcBuild fl)) s) s := fun s hs h =>
    readable_customTable hnl (hcBuild_le_15 hfl) (hcBuild_kraft hfl) hs (hcBuild_pos hfl h)
  have hD : ∀ j < 30, 0 < fd.getD j 0 →
      Readable (decodeTable (hcBuild fd)) (entry (customTable 30 (hcBuild fd)) j) j := fun j hj h =>
    readable_customTable hnd (hcBuild_le_15 hfd) (hcBuild_kraft hfd) hj (hcBuild_pos hfd h)
  refine ⟨fun rest => ?_, fun tok ht => ⟨hL _ (symL_lt tok) (hsymL tok ht), fun j hj => ?_⟩, hL 256 (by decide) heob⟩
  · have h₁ := readLengths_customTable hnl (hcBuild_le_15 hfl)
      ((customTable 30 (hcBuild fd)).toList.flatMap (fun e => intBits 4 e.len.toNat) ++ rest)
    have h₂ := readLengths_customTable hnd (hcBuild_le_15 hfd) rest
    simp only [tableBits, if_true, List.append_assoc, show (2 : BitVec 2).toNat = 2 from rfl]
    exact readTables_custom h₁ h₂
  · exact hD j (symD_lt hj) (hsymD tok ht j hj)

/-- HC_ENCODE appends a block that reads back as the buffered tokens (R90, R109). -/
theorem hcEncode_readsBlock {ses : Session} (hbp : ses.bp.ok) (hc : ses.counted) (hlen : ses.tokbuf.length ≤ 2582)
    (cfg : Cfg) (final : Bool) :
    ∃ blk, Appends ses.bp (hcEncode cfg final ses).bp blk ∧ ReadsBlock final ses.tokbuf blk ∧ 0 < blk.length := by
  have hpos : ∀ codeL codeD btype, 0 < (blockBits codeL codeD final btype ses.tokbuf).length := by
    intro codeL codeD btype
    simp only [blockBits, headerBits_eq, List.length_append, List.length_singleton]
    omega
  rcases hcSelect_cases cfg (countEob ses) with ⟨-, hs⟩ | ⟨-, hs⟩
  · have hdec := decodable_custom (toks := ses.tokbuf) (counts_length (countEob ses).freqL) (counts_length ses.freqD)
      (Nat.lt_of_le_of_lt (counts_countEob_sum_le hc) (by omega))
      (Nat.lt_of_le_of_lt (counts_freqD_sum_le hc) (by omega)) (counts_countEob_eob ses)
      (fun tok ht => counts_countEob_pos hc ht) (fun tok ht j hj => counts_freqD_pos hc ht hj)
    refine ⟨_, ?_, hdec.readsBlock final, hpos _ _ _⟩
    simp only [hcEncode, hs]
    exact appends_emitBlock _ _ final 2 ses.tokbuf hbp
  · refine ⟨_, ?_, (decodable_fixed ses.tokbuf).readsBlock final, hpos _ _ _⟩
    simp only [hcEncode, hs]
    exact appends_emitBlock _ _ final 1 ses.tokbuf hbp

/-! Streams of blocks -/

/-- The bits are whole blocks, none final, of these tokens: the decoder reads them and goes on. -/
def ReadsBlocks (toks : List Token) (bits : List Bool) : Prop :=
  ∃ n ≤ bits.length, ∀ fuel rest out, expandTokens [] toks = some out →
    readBlocks (fuel + n) (bits ++ rest) [] = readBlocks fuel rest out

theorem readsBlocks_nil : ReadsBlocks [] [] :=
  ⟨0, Nat.le_refl 0, fun _ _ _ h => by cases h; rfl⟩

theorem ReadsBlocks.append_block {sent toks : List Token} {bits blk : List Bool} (h : ReadsBlocks sent bits)
    (hb : ReadsBlock false toks blk) (hpos : 0 < blk.length) : ReadsBlocks (sent ++ toks) (bits ++ blk) := by
  obtain ⟨n, hn, hr⟩ := h
  refine ⟨n + 1, by rw [List.length_append]; omega, fun fuel rest out he => ?_⟩
  rw [expandTokens_append] at he
  obtain ⟨mid, hm, he⟩ := Option.bind_eq_some_iff.mp he
  rw [List.append_assoc, Nat.add_comm n 1, ← Nat.add_assoc, hr (fuel + 1) _ mid hm, hb fuel rest mid out he]
  rfl

/-- After the last block the decoder stops, whatever bits complete its last byte (R94, R109). -/
theorem ReadsBlocks.inflate {sent toks : List Token} {bits blk pad : List Bool} {bytes out : List Byte}
    (h : ReadsBlocks sent bits) (hb : ReadsBlock true toks blk) (he : expandTokens [] (sent ++ toks) = some out)
    (hbytes : streamBits bytes = bits ++ (blk ++ pad)) : inflate bytes = some out.reverse := by
  obtain ⟨n, hn, hr⟩ := h
  rw [expandTokens_append] at he
  obtain ⟨mid, hm, he⟩ := Option.bind_eq_some_iff.mp he
  have hlen : (streamBits bytes).length + 1 = (streamBits bytes).length - n + 1 + n := by
    rw [hbytes, List.length_append]
    omega
  simp only [Machine.inflate]
  rw [hlen]
  conv_lhs => rw [hbytes]
  rw [hr _ _ mid hm, hb _ pad mid out he]
  rfl

/-! CHUNK's tokens -/

/-- What a session has coded so far: `prior` are the bits that have left the packer, and the blocks in them and in the
packer, with the buffered tokens behind them, are the tokens `toks`. -/
structure Coded (u : Nat) (prior : List Bool) (toks : List Token) (ses : Session) : Prop where
  packer : ses.bp.ok
  counted : ses.counted
  few : ses.tokbuf.length < u
  reads : ∃ sent, sent ++ ses.tokbuf = toks ∧ ReadsBlocks sent (prior ++ ses.bp.bits)

theorem Coded.takeToken {u : Nat} (hu : u ≤ 2582) {prior : List Bool} {toks : List Token} {ses : Session}
    (h : Coded u prior toks ses) (cfg : Cfg) (tok : Token) :
    Coded u prior (toks ++ [tok]) (takeToken u cfg ses tok) := by
  obtain ⟨hbp, hc, hfew, sent, rfl, hr⟩ := h
  have hpush := pushToken_counted hc (by omega) tok
  have htok : (pushToken ses tok).tokbuf = ses.tokbuf ++ [tok] := rfl
  have hlen : (pushToken ses tok).tokbuf.length = ses.tokbuf.length + 1 := by simp [htok]
  rw [takeToken_eq]
  split
  · next hfull =>
    obtain ⟨blk, ⟨hbits, hok⟩, hblk, hpos⟩ :=
      hcEncode_readsBlock (ses := pushToken ses tok) hbp hpush (by omega) cfg false
    refine ⟨hok, counted_of_empty rfl rfl rfl, by rw [hcEncode_tokbuf, List.length_nil]; omega,
      sent ++ (pushToken ses tok).tokbuf, ?_, ?_⟩
    · rw [htok, hcEncode_tokbuf, List.append_nil, List.append_assoc]
    · rw [hbits, ← List.append_assoc]
      exact hr.append_block hblk hpos
  · next hroom =>
    exact ⟨hbp, hpush, by omega, sent, by rw [htok, List.append_assoc], hr⟩

theorem Coded.foldl_takeToken {u : Nat} (hu : u ≤ 2582) {prior : List Bool} {toks : List Token} {ses : Session}
    (h : Coded u prior toks ses) (cfg : Cfg) (ts : List Token) :
    Coded u prior (toks ++ ts) (ts.foldl (Machine.takeToken u cfg) ses) := by
  induction ts generalizing toks ses with
  | nil => simpa using h
  | cons t ts ih => simpa using ih (h.takeToken hu cfg t)

/-- The final block and the flush complete a stream that inflates to what the tokens expand to (R102 step 6, R109). -/
theorem Coded.finishStream_inflates {u : Nat} (hu : u ≤ 2582) {out : List Byte} {toks : List Token} {ses : Session}
    (h : Coded u (streamBits out) toks ses) (cfg : Cfg) {bytes : List Byte} (he : expandTokens [] toks = some bytes) :
    inflate (out ++ (finishStream cfg ses).bp.outq) = some bytes.reverse := by
  obtain ⟨hbp, hc, hfew, sent, rfl, hr⟩ := h
  obtain ⟨blk, ⟨hbits, hok⟩, hblk, -⟩ := hcEncode_readsBlock hbp hc (by omega) cfg true
  have hq : streamBits (finishStream cfg ses).bp.outq = (bpFlush (hcEncode cfg true ses).bp).bits := by
    simp [finishStream, BitPacker.bits_eq, bpFlush, intBits]
  refine hr.inflate hblk he (pad := List.replicate (8 - (hcEncode cfg true ses).bp.nbits) false) ?_
  rw [streamBits_append, hq, bpFlush_bits hok, hbits]
  simp only [List.append_assoc]

/-! Sessions -/

@[simp] theorem takeToken_win (u : Nat) (cfg : Cfg) (ses : Session) (tok : Token) :
    (takeToken u cfg ses tok).win = ses.win := by
  rw [takeToken_eq]
  split <;> simp [pushToken]

@[simp] theorem takeToken_pend (u : Nat) (cfg : Cfg) (ses : Session) (tok : Token) :
    (takeToken u cfg ses tok).pend = ses.pend := by
  rw [takeToken_eq]
  split <;> simp [pushToken]

theorem foldl_takeToken_win (u : Nat) (cfg : Cfg) (ts : List Token) (ses : Session) :
    (ts.foldl (takeToken u cfg) ses).win = ses.win := by
  induction ts generalizing ses with
  | nil => rfl
  | cons t ts ih => rw [List.foldl_cons, ih, takeToken_win]

theorem foldl_takeToken_pend (u : Nat) (cfg : Cfg) (ts : List Token) (ses : Session) :
    (ts.foldl (takeToken u cfg) ses).pend = ses.pend := by
  induction ts generalizing ses with
  | nil => rfl
  | cons t ts ih => rw [List.foldl_cons, ih, takeToken_pend]

/-- CHUNK's work before the final block: MF_ENCODE's tokens taken one by one (R102 steps 4 and 5). -/
def codeSlice (u : Nat) (cfg : Cfg) (ses : Session) (fin : Bool) (input : List Byte) : Session :=
  (mfEncode cfg ses.win ses.pend input fin).tokens.foldl (takeToken u cfg)
    (mfUpdate ses (mfEncode cfg ses.win ses.pend input fin))

theorem compressSlice_eq (u : Nat) (cfg : Cfg) (ses : Session) (fin : Bool) (input : List Byte) :
    compressSlice u cfg ses fin input =
      if fin = true then finishStream cfg (codeSlice u cfg ses fin input) else codeSlice u cfg ses fin input := rfl

/-- A session that has been fed `stream` and has put out `out`: a part of the stream, which WIN ends and PEND follows,
has been coded. -/
structure Session.Carries (u : Nat) (stream out : List Byte) (ses : Session) : Prop where
  drained : ses.bp.outq = []
  coded : ∃ coded toks, coded ++ ses.pend = stream ∧ ses.win <:+ coded ∧ expandTokens [] toks = some coded.reverse ∧
    Coded u (streamBits out) toks ses

theorem fresh_carries {u : Nat} (hu : 1 ≤ u) : Session.fresh.Carries u [] [] where
  drained := rfl
  coded := ⟨[], [], rfl, List.suffix_refl _, rfl,
    ⟨by decide, counted_of_empty rfl rfl rfl, hu, [], rfl, readsBlocks_nil⟩⟩

/-- A slice's tokens code the stream further; all of it, if the command finishes. -/
theorem Session.Carries.codeSlice {u : Nat} (hu : u ≤ 2582) {cfg : Cfg} (hcfg : cfg.legal) {stream out : List Byte}
    {ses : Session} (h : ses.Carries u stream out) (fin : Bool) (input : List Byte) :
    ∃ coded toks, coded ++ (codeSlice u cfg ses fin input).pend = stream ++ input ∧
      (codeSlice u cfg ses fin input).win <:+ coded ∧ expandTokens [] toks = some coded.reverse ∧
      Coded u (streamBits out) toks (codeSlice u cfg ses fin input) ∧
      (fin = true → (codeSlice u cfg ses fin input).pend = []) := by
  obtain ⟨-, coded, toks, rfl, ⟨older, rfl⟩, hx, hc⟩ := h
  obtain ⟨coded', hstream, hwin, hx', hfin⟩ := mfEncode_expands hcfg older ses.win ses.pend input fin
  have hc' : Coded u (streamBits out) toks (mfUpdate ses (mfEncode cfg ses.win ses.pend input fin)) :=
    ⟨hc.packer, hc.counted, hc.few, hc.reads⟩
  have hw : (Machine.codeSlice u cfg ses fin input).win = (mfEncode cfg ses.win ses.pend input fin).win :=
    foldl_takeToken_win _ _ _ _
  have hp : (Machine.codeSlice u cfg ses fin input).pend = (mfEncode cfg ses.win ses.pend input fin).pend :=
    foldl_takeToken_pend _ _ _ _
  refine ⟨coded', toks ++ (mfEncode cfg ses.win ses.pend input fin).tokens, ?_, ?_, ?_,
    hc'.foldl_takeToken hu cfg _, ?_⟩
  · rw [hp, hstream]
  · rwa [hw]
  · rw [expandTokens_append, hx]
    exact hx'
  · rwa [hp]

/-- A CHUNK that does not finish keeps the session's relation to its streams. -/
theorem Session.Carries.chunk {u : Nat} (hu : u ≤ 2582) {cfg : Cfg} (hcfg : cfg.legal) {stream out : List Byte}
    {ses : Session} (h : ses.Carries u stream out) (hf : ses.finished = false) {input : List Byte} {cap : Nat}
    {r : ChunkOk} (hr : chunkSession u cfg ses false input cap = some r) :
    r.ses.Carries u (stream ++ input) (out ++ r.bytes) := by
  obtain ⟨-, rfl⟩ := chunkSession_of_active hf hr
  obtain ⟨coded, toks, hs, hw, hx, ⟨hbp, hc, hfew, sent, htoks, hreads⟩, -⟩ := h.codeSlice hu hcfg false input
  simp only [compressSlice_eq, Bool.false_eq_true, if_false]
  refine ⟨rfl, coded, toks, hs, hw, hx, hbp, hc, hfew, sent, htoks, ?_⟩
  rw [streamBits_append, List.append_assoc]
  exact hreads

/-- A CHUNK that finishes completes a stream that inflates to the input. -/
theorem Session.Carries.chunk_finish {u : Nat} (hu : u ≤ 2582) {cfg : Cfg} (hcfg : cfg.legal)
    {stream out : List Byte} {ses : Session} (h : ses.Carries u stream out) (hf : ses.finished = false)
    {input : List Byte} {cap : Nat} {r : ChunkOk} (hr : chunkSession u cfg ses true input cap = some r) :
    inflate (out ++ r.bytes) = some (stream ++ input) := by
  obtain ⟨-, rfl⟩ := chunkSession_of_active hf hr
  obtain ⟨coded, toks, hs, -, hx, hc, hfin⟩ := h.codeSlice hu hcfg true input
  rw [hfin rfl, List.append_nil] at hs
  have := hc.finishStream_inflates hu cfg hx
  simp only [compressSlice_eq, if_true]
  rwa [List.reverse_reverse, hs] at this

theorem SessionRun.carries {u : Nat} (hu₁ : 1 ≤ u) (hu : u ≤ 2582) {cfg : Cfg} (hcfg : cfg.legal)
    {stream out : List Byte} {ses : Session} (h : SessionRun u cfg stream out ses) (hf : ses.finished = false) :
    ses.Carries u stream out := by
  induction h with
  | start => exact fresh_carries hu₁
  | chunk hrun hprev hr ih =>
    obtain ⟨-, -, -, -, hfin, -⟩ := chunkSession_accounts hprev hr
    rw [hf] at hfin
    subst hfin
    exact (ih hprev).chunk hu hcfg hprev hr

/-- Settles O16: the last CHUNK of a finished session is a finishing one, on a session that carries its streams. -/
theorem streamRoundTrip : Obligations.StreamRoundTrip := by
  intro u cfg stream out ses hu₁ hu hcfg hrun hf
  cases hrun with
  | start => cases hf
  | chunk hrun hprev hr =>
    obtain ⟨-, -, -, -, hfin, -⟩ := chunkSession_accounts hprev hr
    rw [hf] at hfin
    subst hfin
    exact (hrun.carries hu₁ hu hcfg hprev).chunk_finish hu hcfg hprev hr

end Sys2Proof.Machine
end

section
/-! The window and the history of a session (R21, R22, R29 (i), (j), R64): the window is the last bytes of what has been
tokenised, PEND the stream behind it. Settles O28 and O14. -/

namespace Sys2Proof.Machine

/-! WIN_EXTEND -/

/-- WIN_EXTEND drops what exceeds the capacity, oldest bytes first (R64). -/
theorem windowExtend_eq_drop (ws : Nat) (win bytes : List Byte) :
    windowExtend ws win bytes = (win ++ bytes).drop ((win ++ bytes).length - ws) := by
  simp only [windowExtend]
  congr 1
  omega

theorem windowExtend_windowExtend (ws : Nat) (win a b : List Byte) :
    windowExtend ws (windowExtend ws win a) b = windowExtend ws win (a ++ b) := by
  simp only [windowExtend_eq_drop]
  rw [← List.append_assoc, ← List.drop_append_of_le_length (Nat.sub_le _ _), List.drop_drop]
  congr 1
  simp only [List.length_drop, List.length_append]
  omega

theorem windowExtend_length_le (ws : Nat) (win bytes : List Byte) : (windowExtend ws win bytes).length ≤ ws := by
  rw [windowExtend_length]
  exact Nat.min_le_right _ _

/-- Settles O28: what the first extension drops, the single one drops too. -/
theorem windowExtendPiecewise : Obligations.WindowExtendPiecewise := fun ws win a b =>
  ⟨windowExtend_windowExtend ws win a b, windowExtend_length_le ws win a⟩

/-! The history -/

theorem mfLoop_cursor_le (cfg : Cfg) (finish : Bool) (buf : List Byte) (e fuel p : Nat) :
    p ≤ (mfLoop cfg finish buf e fuel p).2 := by
  induction fuel generalizing p with
  | zero => exact Nat.le_refl p
  | succ fuel ih =>
    simp only [mfLoop]
    split
    · exact Nat.le_trans (Nat.le_add_right p _) (ih _)
    · exact Nat.le_refl p

/-- MF_ENCODE cuts PEND and the input in two: the window takes in the first part, PEND is the second (R72). -/
theorem mfEncode_split (cfg : Cfg) (win pend input : List Byte) (finish : Bool) :
    ∃ coded, coded ++ (mfEncode cfg win pend input finish).pend = pend ++ input ∧
      (mfEncode cfg win pend input finish).win = windowExtend cfg.ws win coded := by
  simp only [mfEncode]
  have hle := mfLoop_cursor_le cfg finish (win ++ pend ++ input) (win ++ pend ++ input).length
    ((win ++ pend ++ input).length - win.length) win.length
  generalize (mfLoop cfg finish (win ++ pend ++ input) _ _ _).2 = q at *
  obtain ⟨k, rfl⟩ := Nat.exists_eq_add_of_le hle
  refine ⟨_, ?_, rfl⟩
  rw [List.append_assoc, List.drop_take, List.drop_left, Nat.add_sub_cancel_left, List.drop_length_add_append]
  exact List.take_append_drop k _

theorem compressSlice_win_pend (u : Nat) (cfg : Cfg) (ses : Session) (fin : Bool) (input : List Byte) :
    (compressSlice u cfg ses fin input).win = (mfEncode cfg ses.win ses.pend input fin).win ∧
      (compressSlice u cfg ses fin input).pend = (mfEncode cfg ses.win ses.pend input fin).pend := by
  have hwin : (codeSlice u cfg ses fin input).win = (mfEncode cfg ses.win ses.pend input fin).win :=
    foldl_takeToken_win _ _ _ _
  have hpend : (codeSlice u cfg ses fin input).pend = (mfEncode cfg ses.win ses.pend input fin).pend :=
    foldl_takeToken_pend _ _ _ _
  rw [compressSlice_eq]
  split
  · exact ⟨by simp [finishStream, hwin], by simp [finishStream, hpend]⟩
  · exact ⟨hwin, hpend⟩

/-- The stream is `coded` with PEND behind it, and the window is what `coded` leaves in an empty one. -/
theorem SessionRun.splits {u : Nat} {cfg : Cfg} {stream out : List Byte} {ses : Session}
    (h : SessionRun u cfg stream out ses) :
    ∃ coded, coded ++ ses.pend = stream ∧ ses.win = windowExtend cfg.ws [] coded := by
  induction h with
  | start => exact ⟨[], rfl, rfl⟩
  | @chunk stream out ses fin input cap r hrun hf hr ih =>
    obtain ⟨coded, rfl, hwin⟩ := ih
    obtain ⟨more, hpend', hwin'⟩ := mfEncode_split cfg ses.win ses.pend input fin
    obtain ⟨hw, hp⟩ := compressSlice_win_pend u cfg ses fin input
    obtain ⟨-, rfl⟩ := chunkSession_of_active hf hr
    refine ⟨coded ++ more, ?_, ?_⟩
    · simp only [account_pend, withPacker_pend, hp, List.append_assoc, hpend']
    · rw [account_win, withPacker_win, hw, hwin', hwin, windowExtend_windowExtend]

theorem SessionRun.counters {u : Nat} {cfg : Cfg} {stream out : List Byte} {ses : Session}
    (h : SessionRun u cfg stream out ses) :
    ses.bytesProcessed = BitVec.ofNat 64 stream.length ∧ ses.bytesOutput = BitVec.ofNat 64 out.length := by
  induction h with
  | start => exact ⟨rfl, rfl⟩
  | chunk hrun hf hr ih =>
    obtain ⟨-, -, hproc, hout, -, -⟩ := chunkSession_accounts hf hr
    simp only [hproc, hout, ih.1, ih.2, List.length_append, BitVec.ofNat_add, and_self]

/-- Settles O14: the stream splits at the tokenised bytes, by induction over the session's CHUNKs. -/
theorem sessionHistory : Obligations.SessionHistory := by
  intro u cfg stream out ses hrun
  obtain ⟨coded, hstream, hwin⟩ := hrun.splits
  have hlen : coded.length + ses.pend.length = stream.length := by rw [← hstream, List.length_append]
  refine ⟨by omega, ?_, ?_, hrun.counters⟩
  · simp [← hstream]
  · simp [← hstream, hwin, windowExtend]

end Sys2Proof.Machine
end

section
/-! The hash chains (R28, R67, R78): what HEAD and PREV look up before a position is searched, and that the walk visits
the candidates. Settles O60. -/

namespace Sys2Proof.Machine

/-! The candidate list by position -/

/-- The earlier positions with the suffix that starts at each (R67). -/
theorem earlier_eq_map (back suffix : List Byte) (d₀ : Nat) :
    earlier back suffix d₀ =
      (List.range' d₀ back.length).map fun d => (d, (back.take (d + 1 - d₀)).reverse ++ suffix) := by
  rw [← earlier_fst back suffix d₀, List.map_map]
  refine (List.map_id _).symm.trans (List.map_congr_left fun c hc => ?_)
  exact Prod.ext rfl (mem_earlier hc).2.2

/-- The suffix at distance `d` from a cursor `p` is the buffer from position `p - d` on. -/
theorem take_reverse_append_drop {buf : List Byte} {p d : Nat} (hp : p ≤ buf.length) (hd : d ≤ p) :
    ((buf.take p).reverse.take d).reverse ++ buf.drop p = buf.drop (p - d) := by
  have hlen : (buf.take p).length = p := by simpa using hp
  rw [List.take_reverse, List.reverse_reverse, hlen]
  conv_rhs => rw [← List.take_append_drop p buf, List.drop_append_of_le_length (by omega)]

/-- The candidates by their distance, nearest first (R67). -/
theorem candidates_eq_range' (ws mc : Nat) {buf : List Byte} {p : Nat} (hp : p ≤ buf.length) :
    candidates ws mc (buf.take p).reverse (buf.drop p) =
      (((List.range' 1 (min p ws)).filter fun d => hashAt (buf.drop (p - d)) == hashAt (buf.drop p)).take mc).map
        fun d => (d, buf.drop (p - d)) := by
  have hlen : ((buf.take p).reverse.take ws).length = min p ws := by
    rw [List.length_take, List.length_reverse, List.length_take]
    omega
  have hsuf : ∀ d ∈ List.range' 1 (min p ws),
      (d, (((buf.take p).reverse.take ws).take (d + 1 - 1)).reverse ++ buf.drop p) = (d, buf.drop (p - d)) := by
    intro d hd
    obtain ⟨h1, hlt⟩ := List.mem_range'_1.mp hd
    rw [Nat.add_sub_cancel, List.take_take, Nat.min_eq_left (by omega), take_reverse_append_drop hp (by omega)]
  rw [candidates, earlier_eq_map, hlen, List.map_congr_left hsuf, List.filter_map, List.map_take]
  rfl

/-! HEAD and PREV -/

/-- The key under which position `q` is inserted (R28). -/
def chainKey (stream : List Byte) (q : Nat) : Nat := (hashAt (stream.drop q)).getD 0

/-- The last position below `n` with key `h`. -/
def latest (stream : List Byte) (h n : Nat) : Option Nat :=
  (List.range n).reverse.find? fun q => chainKey stream q == h

theorem latest_succ (stream : List Byte) (h n : Nat) :
    latest stream h (n + 1) = if chainKey stream n = h then some n else latest stream h n := by
  simp only [latest, List.range_succ, List.reverse_append, List.reverse_singleton, List.singleton_append,
    List.find?_cons]
  by_cases hk : chainKey stream n = h
  · simp [hk]
  · simp [hk, beq_eq_false_iff_ne.mpr hk]

theorem latest_lt {stream : List Byte} {h n q : Nat} (hq : latest stream h n = some q) : q < n := by
  simpa using List.mem_of_find?_eq_some hq

theorem chainsBefore_succ (start : Chains) (stream : List Byte) (n : Nat) :
    chainsBefore start stream (n + 1) = insertPos (chainKey stream n) n (chainsBefore start stream n) := by
  simp [chainsBefore, List.range_succ, chainKey]

/-- HEAD gives the newest position inserted under a key (R28). -/
theorem chainsBefore_head (prev : List (Nat × Option Nat)) (stream : List Byte) (h n : Nat) :
    (chainsBefore (Chains.afterReset prev) stream n).head.lookup h = latest stream h n := by
  induction n with
  | zero => rfl
  | succ n ih =>
    rw [chainsBefore_succ, latest_succ]
    simp only [insertPos, List.lookup_cons, ih]
    by_cases hk : h = chainKey stream n
    · simp [hk]
    · simp [Ne.symm hk, beq_eq_false_iff_ne.mpr hk]

/-- PREV gives, for each of the last 32768 positions, the one before it on its chain, whatever PREV held at reset: no
later position has taken its slot (R28). -/
theorem chainsBefore_prev (prev : List (Nat × Option Nat)) (stream : List Byte) {q n : Nat} (hq : q < n)
    (hn : n ≤ q + 32768) :
    (chainsBefore (Chains.afterReset prev) stream n).prev.lookup (q % 32768) =
      some (latest stream (chainKey stream q) q) := by
  induction n with
  | zero => omega
  | succ n ih =>
    rw [chainsBefore_succ]
    simp only [insertPos, List.lookup_cons, chainsBefore_head]
    by_cases he : q = n
    · simp [he]
    · have hslot : q % 32768 ≠ n % 32768 := by omega
      rw [beq_eq_false_iff_ne.mpr hslot]
      exact ih (by omega) (by omega)

/-! The walk -/

/-- Walking from the newest position of a key at distance `d` or more visits the positions of that key from distance `d`
to `maxdist`, until the probes are used up (R28). -/
theorem chainWalk_latest (prev : List (Nat × Option Nat)) (stream : List Byte) {p maxdist : Nat} (hp : maxdist ≤ p)
    (hmax : maxdist ≤ 32768) (h : Nat) {d k : Nat} (hd : 1 ≤ d) (hk : d + k = maxdist + 1) (probes : Nat) :
    chainWalk (chainsBefore (Chains.afterReset prev) stream p) p maxdist probes (latest stream h (p + 1 - d)) =
      (((List.range' d k).filter fun d => chainKey stream (p - d) == h).take probes).map fun d => p - d := by
  induction k generalizing d probes with
  | zero =>
    cases probes with
    | zero => rfl
    | succ probes =>
      cases hl : latest stream h (p + 1 - d) with
      | none => rfl
      | some q =>
        have hlt := latest_lt hl
        simp only [chainWalk]
        rw [if_neg (by omega)]
        rfl
  | succ k ih =>
    have hn : p + 1 - d = p - d + 1 := by omega
    have hrest : p + 1 - (d + 1) = p - d := by omega
    have ih := ih (d := d + 1) (by omega) (by omega)
    rw [hrest] at ih
    rw [hn, latest_succ, List.range'_succ]
    by_cases hkey : chainKey stream (p - d) = h
    · rw [if_pos hkey, List.filter_cons_of_pos (by simpa using hkey)]
      cases probes with
      | zero => rfl
      | succ probes =>
        simp only [chainWalk]
        rw [if_pos (by omega), chainsBefore_prev prev stream (by omega) (by omega), hkey, Option.join_some, ih probes]
        rfl
    · rw [if_neg hkey, List.filter_cons_of_neg (by simpa using hkey)]
      exact ih probes

theorem hashAt_eq_some_chainKey {stream : List Byte} {q : Nat} (h : q + 3 ≤ stream.length) :
    hashAt (stream.drop q) = some (chainKey stream q) := by
  have hlen : 3 ≤ (stream.drop q).length := by rw [List.length_drop]; omega
  rw [chainKey]
  match stream.drop q, hlen with
  | _ :: _ :: _ :: _, _ => rfl

/-- Settles O60: HEAD's entry is the nearest position of the cursor's key, PREV leads from each position to the next. -/
theorem chainsYieldCandidates : Obligations.ChainsYieldCandidates := by
  intro prev ws mc p stream hws hp
  have hwalk := chainWalk_latest prev stream (Nat.min_le_left p ws) (by omega) (chainKey stream p) (d := 1)
    (k := min p ws) (Nat.le_refl 1) (Nat.add_comm 1 _) mc
  have hhash : ∀ d, (hashAt (stream.drop (p - d)) == hashAt (stream.drop p)) =
      (chainKey stream (p - d) == chainKey stream p) := by
    intro d
    rw [hashAt_eq_some_chainKey hp, hashAt_eq_some_chainKey (by omega)]
    rfl
  rw [candidates_eq_range' ws mc (by omega), List.map_map]
  simp only [hhash]
  simp only [chainProbes, chainsBefore_head]
  exact hwalk

end Sys2Proof.Machine
end

section
/-! What every step keeps (R19, R26, R29, R96, R103, R111, R122): everything a step can do to the configuration and the
session, with what causes it; then the two invariants and the flag. Settles O12, O13 and O58. -/

namespace Sys2Proof.Machine

/-! What a step does to the configuration and the session -/

/-- The commands that start a fresh session (R122). -/
def resetsSession (i : Instr) : Prop :=
  i = .reset ∨ (∃ level, i = .cfgLevel level) ∨ ∃ psel val, i = .cfgSet psel val

/-- What a host command does to the configuration and the session. -/
inductive CommandEffect (i : Instr) (s t : State) : Prop where
  | kept : t.cfg = s.cfg → t.ses = s.ses → CommandEffect i s t
  | fresh : resetsSession i → (s.cfg.legal → t.cfg.legal) → t.ses = Session.fresh → CommandEffect i s t
  | chunk {fin : Bool} {input : List Byte} {cap : Nat} {r : ChunkOk} : i = .chunk fin → t.cfg = s.cfg →
      chunkSession Config.unitTokens s.cfg s.ses fin input cap = some r → t.ses = r.ses → CommandEffect i s t

/-- The block takes a hard reset in this step: as the next event, or behind a stalled CMD write (R122; log entry 8). -/
def takesHardReset (s : State) : Prop :=
  (takesEvent s ∧ ∃ later, s.host = .hardReset :: later) ∨
  (takesEvent s ∧ s.busy = true ∧ ∃ w later, s.host = .write 4 0 w :: .hardReset :: later)

/-- What a step does to the configuration and the session. -/
inductive StepEffect (s t : State) : Prop where
  | unit {w : Word} {i : Instr} : s.unitWord = some w → unitDecode w = some i →
      exec i { s with unitWord := none } = .next t → StepEffect s t
  | kept : t.cfg = s.cfg → t.ses = s.ses → StepEffect s t
  | hardReset : takesHardReset s → t.cfg = Cfg.powerOn → t.ses = Session.fresh → StepEffect s t
  | fresh {w : Word} {rest : List HostEvent} {i : Instr} : takesCommand w rest s → hostDecode w = .ok i →
      resetsSession i → (s.cfg.legal → t.cfg.legal) → t.ses = Session.fresh → StepEffect s t
  | chunk {fin : Bool} {input : List Byte} {cap : Nat} {r : ChunkOk} :
      ((∃ q, readyChunk s = some q ∧ q.fin = fin) ∨
        ∃ w rest, takesCommand w rest s ∧ hostDecode w = .ok (.chunk fin)) →
      t.cfg = s.cfg → chunkSession Config.unitTokens s.cfg s.ses fin input cap = some r → t.ses = r.ses →
      StepEffect s t

/-- The presets are legal configurations (R100). -/
theorem preset_legal {level : BitVec 4} {cfg : Cfg} (h : preset level = some cfg) : cfg.legal := by
  have hall : ∀ level : BitVec 4, ∀ cfg ∈ preset level, cfg.legal := by decide
  exact hall level cfg h

/-- A configuration CFG_SET accepts is legal where the old one is (R101). -/
theorem cfgSetTarget_legal {cfg cfg' : Cfg} {psel : BitVec 4} {val : BitVec 16}
    (h : cfgSetTarget cfg psel val = some cfg') (hcfg : cfg.legal) : cfg'.legal := by
  obtain ⟨hlevel, hws, hmm3, hmm, htbl⟩ := hcfg
  unfold cfgSetTarget at h
  split at h
  · split at h
    · cases h
    · next hval => cases h; exact ⟨hlevel, Nat.not_lt.mp hval, hmm3, hmm, htbl⟩
  · split at h
    · cases h
    · next hval =>
      cases h
      have hmod : val.toNat % 2 ^ 9 = val.toNat := Nat.mod_eq_of_lt (by omega)
      refine ⟨hlevel, hws, ?_, ?_, htbl⟩ <;> simp only [Cfg.mm, BitVec.toNat_ofNat, hmod] <;> omega
  · cases h; exact ⟨hlevel, hws, hmm3, hmm, htbl⟩
  · split at h
    · cases h
    · next hval =>
      cases h
      have hmod : val.toNat % 2 ^ 2 = val.toNat := Nat.mod_eq_of_lt (by omega)
      refine ⟨hlevel, hws, hmm3, hmm, ?_⟩
      simp only [BitVec.toNat_ofNat, hmod]
      omega
  · cases h

theorem runChunk_effect (fin : Bool) (input : List Byte) (cap : Nat) (s : State) :
    ((runChunk fin input cap s).cfg = s.cfg ∧ (runChunk fin input cap s).ses = s.ses) ∨
    ∃ r, chunkSession Config.unitTokens s.cfg s.ses fin input cap = some r ∧ (runChunk fin input cap s).cfg = s.cfg ∧
      (runChunk fin input cap s).ses = r.ses := by
  rcases runChunk_cases fin input cap s with ⟨-, ht⟩ | ⟨r, hr, ht⟩ <;> rw [ht]
  · exact .inl ⟨rfl, rfl⟩
  · exact .inr ⟨r, hr, rfl, rfl⟩

theorem exec_hostCommand_effect {i : Instr} (hu : i.isUnitOp = false) {s t : State} (h : exec i s = .next t) :
    CommandEffect i s t := by
  cases i <;> simp only [Instr.isUnitOp, Bool.true_eq_false] at hu <;> simp only [exec] at h
  case nop => cases h; exact .kept rfl rfl
  case reset => cases h; exact .fresh (.inl rfl) id rfl
  case cfgLevel level =>
    unfold execCfgLevel at h
    split at h
    · cases h; exact .kept rfl rfl
    · next hp => cases h; exact .fresh (.inr (.inl ⟨level, rfl⟩)) (fun _ => preset_legal hp) rfl
  case cfgSet psel val =>
    unfold execCfgSet at h
    split at h
    · cases h; exact .kept rfl rfl
    · next hp => cases h; exact .fresh (.inr (.inr ⟨psel, val, rfl⟩)) (cfgSetTarget_legal hp) rfl
  case chunk fin =>
    rcases execChunk_cases fin s with ⟨-, hr⟩ | ⟨-, hr⟩ <;> cases hr.symm.trans h
    · rcases runChunk_effect fin (chunkInput s.inLen s) s.outCap.toNat (beginCommand s) with ⟨hc, hs⟩ | ⟨r, hr, hc, hs⟩
      · exact .kept hc hs
      · exact .chunk rfl hc hr hs
    · exact .kept rfl rfl

/-- The host's next event leaves the configuration, the session, the code and the unit bus alone, unless it is a hard
reset or a CMD write that the block takes. -/
theorem takeEvent_effect {s t : State} (h : takeEvent s = .next t) :
    (t.cfg = s.cfg ∧ t.ses = s.ses ∧ t.code = s.code ∧ t.unitWord = s.unitWord) ∨
    (((∃ later, s.host = .hardReset :: later) ∨
        s.busy = true ∧ ∃ w later, s.host = .write 4 0 w :: .hardReset :: later) ∧
      ∃ later, t = hardReset { s with host := later }) ∨
    ∃ w rest, s.host = .write 4 0 w :: rest ∧ s.running = none ∧
      runCommandWord w { s with host := rest } = .next t := by
  rcases takeEvent_cases h with ⟨-, rfl⟩ | ⟨rest, hh, rfl⟩ | ⟨width, offset, rest, -, -, rfl⟩ | ⟨w, rest, hh, hb, rfl⟩ |
    ⟨w, rest, hh, hb, hrun⟩ | ⟨width, offset, data, rest, -, -, -, rfl⟩
  · exact .inl ⟨rfl, rfl, rfl, rfl⟩
  · exact .inr (.inl ⟨.inl ⟨rest, hh⟩, rest, rfl⟩)
  · rcases afterRead_cases offset { s with host := rest, readData := readReg offset { s with host := rest } } with
      hr | ⟨-, hr⟩ <;> rw [hr] <;> exact .inl ⟨rfl, rfl, rfl, rfl⟩
  · rcases stalledWrite_cases rest s with hr | ⟨later, rfl, hr⟩ <;> rw [hr]
    · exact .inl ⟨rfl, rfl, rfl, rfl⟩
    · exact .inr (.inl ⟨.inr ⟨hb, w, later, hh⟩, later, rfl⟩)
  · exact .inr (.inr ⟨w, rest, hh, by simpa [State.busy] using hb, hrun⟩)
  · rcases writeReg_cases offset data { s with host := rest } with hr | ⟨-, hr⟩ | ⟨-, hr⟩ | ⟨-, hr⟩ <;> rw [hr] <;>
      exact .inl ⟨rfl, rfl, rfl, rfl⟩

theorem step_effect {s t : State} (h : step s = .next t) : StepEffect s t := by
  rcases step_cases h with ⟨w, i, hw, hi, he⟩ | ⟨-, q, hq, rfl⟩ | ⟨hu, hq, he⟩
  · exact .unit hw hi he
  · rcases runChunk_effect q.fin (chunkInput q.inLen s) q.outCap.toNat s with ⟨hc, hs⟩ | ⟨r, hr, hc, hs⟩
    · exact .kept hc hs
    · exact .chunk (.inl ⟨q, hq, rfl⟩) hc hr hs
  have htakes : takesEvent s := ⟨hu, hq⟩
  rcases takeEvent_effect he with ⟨hc, hs, -, -⟩ | ⟨hcause, later, rfl⟩ | ⟨w, rest, hh, hidle, hrun⟩
  · exact .kept hc hs
  · exact .hardReset (hcause.imp (.intro htakes) (.intro htakes)) rfl rfl
  · have htakes : takesCommand w rest s := ⟨hu, hidle, hh⟩
    rcases runCommandWord_cases w { s with host := rest } with ⟨i, hi, hr⟩ | ⟨e, -, hr⟩
    · rcases exec_hostCommand_effect (hostDecode_isHost hi).2 (hr.symm.trans hrun) with
        ⟨hc, hs⟩ | ⟨hi', hl, hs⟩ | ⟨rfl, hc, hch, hs⟩
      · exact .kept hc hs
      · exact .fresh htakes hi hi' hl hs
      · exact .chunk (.inr ⟨w, rest, htakes, hi⟩) hc hch hs
    · cases hr.symm.trans hrun
      exact .kept rfl rfl

/-! The packer stays within its bound (R96) -/

theorem hcSelect_frame (cfg : Cfg) (ses : Session) :
    (hcSelect cfg ses).1.bp = ses.bp ∧ (hcSelect cfg ses).1.win = ses.win ∧
      (hcSelect cfg ses).1.finished = ses.finished := by
  rcases hcSelect_cases cfg ses with ⟨-, h⟩ | ⟨-, h⟩ <;> rw [h] <;> exact ⟨rfl, rfl, rfl⟩

theorem hcEncode_bp_ok (cfg : Cfg) (final : Bool) {ses : Session} (h : ses.bp.ok) : (hcEncode cfg final ses).bp.ok := by
  have hsel : (hcSelect cfg (countEob ses)).1.bp.ok := by rwa [(hcSelect_frame cfg (countEob ses)).1]
  exact (appends_emitBlock _ _ final _ _ hsel).2

theorem bpFlush_ok (p : BitPacker) : (bpFlush p).ok := ⟨Nat.zero_le 7, Nat.one_pos⟩

theorem takeToken_bp_ok (u : Nat) (cfg : Cfg) (tok : Token) {ses : Session} (h : ses.bp.ok) :
    (takeToken u cfg ses tok).bp.ok := by
  rw [takeToken_eq]
  split
  · exact hcEncode_bp_ok cfg false h
  · exact h

theorem compressSlice_bp_ok (u : Nat) (cfg : Cfg) (fin : Bool) (input : List Byte) {ses : Session} (h : ses.bp.ok) :
    (compressSlice u cfg ses fin input).bp.ok := by
  rw [compressSlice_eq]
  split
  · exact bpFlush_ok _
  · exact List.foldlRecOn _ _ (motive := fun x : Session => x.bp.ok) h fun x hx tok _ => takeToken_bp_ok u cfg tok hx

/-! Every step keeps the configuration, the window and the packer within their bounds -/

theorem mfEncode_win_length_le (cfg : Cfg) (win pend input : List Byte) (finish : Bool) :
    (mfEncode cfg win pend input finish).win.length ≤ cfg.ws := windowExtend_length_le _ _ _

/-- A session with its window and its packer within their bounds (R29 (b), R96). -/
abbrev Session.bounded (cfg : Cfg) (ses : Session) : Prop := ses.win.length ≤ cfg.ws ∧ ses.bp.ok

theorem fresh_bounded (cfg : Cfg) : Session.fresh.bounded cfg := ⟨Nat.zero_le _, Nat.zero_le 7, Nat.one_pos⟩

theorem chunkSession_bounded {u : Nat} {cfg : Cfg} {ses : Session} {fin : Bool} {input : List Byte} {cap : Nat}
    {r : ChunkOk} (h : chunkSession u cfg ses fin input cap = some r) (hb : ses.bounded cfg) : r.ses.bounded cfg := by
  rcases chunkSession_cases h with ⟨-, rfl⟩ | ⟨-, -, -, rfl⟩
  · exact hb
  · refine ⟨?_, compressSlice_bp_ok u cfg fin input hb.2⟩
    rw [account_win, withPacker_win, (compressSlice_win_pend u cfg ses fin input).1]
    exact mfEncode_win_length_le _ _ _ _ _

/-- A unit operation keeps the configuration, the flag and the session's bounds. -/
theorem exec_unit_bounded {i : Instr} (hu : i.isUnitOp = true) {s t : State} (h : exec i s = .next t) :
    t.cfg = s.cfg ∧ t.ses.finished = s.ses.finished ∧ (s.ses.bounded s.cfg → t.ses.bounded s.cfg) := by
  cases i <;> simp only [Instr.isUnitOp, Bool.false_eq_true] at hu <;> simp only [exec] at h
  case winExtend => cases h; exact ⟨rfl, rfl, fun hb => ⟨windowExtend_length_le _ _ _, hb.2⟩⟩
  case winSlice => cases h; exact ⟨rfl, rfl, id⟩
  case mfSearch =>
    unfold execMfSearch at h
    simp only at h
    split at h <;> cases h
    exact ⟨rfl, rfl, id⟩
  case mfStep =>
    unfold execMfStep at h
    simp only at h
    split at h <;> cases h
    exact ⟨rfl, rfl, id⟩
  case mfEncode => cases h; exact ⟨rfl, rfl, fun hb => ⟨mfEncode_win_length_le _ _ _ _ _, hb.2⟩⟩
  case hcCount => cases h; exact ⟨rfl, rfl, id⟩
  case hcBuild => cases h; exact ⟨rfl, rfl, id⟩
  case hcAssign => cases h; exact ⟨rfl, rfl, id⟩
  case hcSelect =>
    cases h
    obtain ⟨hbp, hwin, hfin⟩ := hcSelect_frame s.cfg s.ses
    exact ⟨rfl, hfin, fun hb => by simpa only [unitDone_ses, Session.bounded, hbp, hwin] using hb⟩
  case hcEmitHdr => cases h; exact ⟨rfl, rfl, fun hb => ⟨hb.1, (appends_emitHdr _ _ _ _ hb.2).2⟩⟩
  case hcEmitToken => cases h; exact ⟨rfl, rfl, fun hb => ⟨hb.1, (appends_emitToken _ _ _ _ hb.2).2⟩⟩
  case hcEmitEob => cases h; exact ⟨rfl, rfl, fun hb => ⟨hb.1, (appends_put hb.2 _).2⟩⟩
  case hcEncode =>
    cases h
    refine ⟨rfl, hcEncode_finished _ _ _, fun hb => ⟨?_, hcEncode_bp_ok _ _ hb.2⟩⟩
    rw [unitDone_ses, hcEncode_win]
    exact hb.1
  case bpWriteBits =>
    unfold execBpWriteBits at h
    simp only at h
    split at h <;> cases h
    exact ⟨rfl, rfl, fun hb => ⟨hb.1, bpWrite_ok hb.2 _ _⟩⟩
  case bpFlush => cases h; exact ⟨rfl, rfl, fun hb => ⟨hb.1, bpFlush_ok _⟩⟩
  case bpDrain =>
    unfold execBpDrain at h
    split at h <;> cases h
    · exact ⟨rfl, rfl, id⟩
    · next hd =>
      obtain ⟨-, rfl, -⟩ := bpDrain_eq_some hd
      exact ⟨rfl, rfl, id⟩

/-- Settles O13: each effect of a step keeps the bounds. -/
theorem stepKeepsSound : Obligations.StepKeepsSound := by
  intro s t ⟨hcfg, hb⟩ h
  rcases step_effect h with ⟨hw, hi, he⟩ | ⟨hc, hs⟩ | ⟨-, hc, hs⟩ | ⟨-, -, -, hl, hs⟩ | ⟨-, hc, hr, hs⟩
  · obtain ⟨hc, -, hkeep⟩ := exec_unit_bounded (unitDecode_isUnit hi).2 he
    rw [State.sound, hc]
    exact ⟨hcfg, hkeep hb⟩
  · rw [State.sound, hc, hs]
    exact ⟨hcfg, hb⟩
  · rw [State.sound, hc, hs]
    exact ⟨by decide, fresh_bounded _⟩
  · rw [State.sound, hs]
    exact ⟨hl hcfg, fresh_bounded _⟩
  · rw [State.sound, hc, hs]
    exact ⟨hcfg, chunkSession_bounded hr hb⟩

/-! FINISHED -/

/-- CHUNK leaves FINISHED as it was or sets it because it finishes (R102 step 8, R103). -/
theorem chunkSession_finished {u : Nat} {cfg : Cfg} {ses : Session} {fin : Bool} {input : List Byte} {cap : Nat}
    {r : ChunkOk} (h : chunkSession u cfg ses fin input cap = some r) : r.ses.finished = (ses.finished || fin) := by
  cases hf : ses.finished with
  | false =>
    obtain ⟨-, -, -, -, hfin, -⟩ := chunkSession_accounts hf h
    rw [hfin, Bool.false_or]
  | true =>
    rcases chunkSession_cases h with ⟨-, rfl⟩ | ⟨hf', -⟩
    · exact hf
    · rw [hf] at hf'
      cases hf'

/-- A step keeps FINISHED, or clears it by a reset, or sets it by a finishing CHUNK. -/
theorem step_finished {s t : State} (h : step s = .next t) :
    t.ses.finished = s.ses.finished ∨
    (t.ses.finished = false ∧ (takesHardReset s ∨
      ∃ w rest i, takesCommand w rest s ∧ hostDecode w = .ok i ∧ resetsSession i)) ∨
    (t.ses.finished = true ∧ ((∃ q, readyChunk s = some q ∧ q.fin = true) ∨
      ∃ w rest, takesCommand w rest s ∧ hostDecode w = .ok (.chunk true))) := by
  rcases step_effect h with ⟨hw, hi, he⟩ | ⟨-, hs⟩ | ⟨hcause, -, hs⟩ | ⟨htakes, hi, hreset, -, hs⟩ |
    @⟨fin, _, _, _, hcause, -, hr, hs⟩
  · exact .inl (exec_unit_bounded (unitDecode_isUnit hi).2 he).2.1
  · exact .inl (by rw [hs])
  · exact .inr (.inl ⟨by rw [hs]; rfl, .inl hcause⟩)
  · exact .inr (.inl ⟨by rw [hs]; rfl, .inr ⟨_, _, _, htakes, hi, hreset⟩⟩)
  · rw [hs, chunkSession_finished hr]
    cases fin with
    | false => exact .inl (Bool.or_false _)
    | true => exact .inr (.inr ⟨Bool.or_true _, hcause⟩)

/-- Settles O58: the causes for which a step clears and sets the flag. -/
theorem finishedSetOnlyByChunk : Obligations.FinishedSetOnlyByChunk := by
  intro s t h
  rcases step_finished h with heq | ⟨hclear, hcause⟩ | ⟨hset, hcause⟩
  · rw [heq]
    exact ⟨fun h0 h1 => by simp [h0] at h1, fun h1 h0 => by simp [h0] at h1⟩
  · refine ⟨fun _ hset => ?_, fun _ _ => ?_⟩
    · rw [hclear] at hset
      cases hset
    · rw [← or_assoc]
      exact hcause
  · refine ⟨fun _ _ => hcause, fun _ hclear => ?_⟩
    rw [hset] at hclear
    cases hclear

end Sys2Proof.Machine
end

section
/-! The good states (R29 (a) to (h), R75, R104, R111): MF_ENCODE leaves at most `max_lazy_match` bytes and gives legal
tokens, CHUNK's buffer stays counted and below a unit, and every step keeps a state good. Settles O11 and O12. -/

namespace Sys2Proof.Machine

/-! MF_ENCODE -/

theorem lengthOf_ofNat {l : Nat} (h3 : 3 ≤ l) (hl : l ≤ 258) : lengthOf (BitVec.ofNat 8 (l - 3)) = l := by
  rw [lengthOf, BitVec.toNat_ofNat, Nat.mod_eq_of_lt (by omega)]
  omega

theorem distanceOf_ofNat {d : Nat} (h1 : 1 ≤ d) (hd : d ≤ 32768) : distanceOf (BitVec.ofNat 15 (d - 1)) = d := by
  rw [distanceOf, BitVec.toNat_ofNat, Nat.mod_eq_of_lt (by omega)]
  omega

theorem matchToken_legal {cfg : Cfg} (hcfg : cfg.legal) {l d : Nat} (h3 : 3 ≤ l) (hl : l ≤ cfg.mm) (h1 : 1 ≤ d)
    (hd : d ≤ cfg.ws) : Token.legal cfg (matchToken l d) = true := by
  obtain ⟨-, hws, -, hmm, -⟩ := hcfg
  simp [matchToken, Token.legal, lengthOf_ofNat h3 (Nat.le_trans hl hmm), distanceOf_ofNat h1 (Nat.le_trans hd hws), *]

/-- MF_STEP's token is within the configuration's bounds (R75). -/
theorem mfStep_legal {cfg : Cfg} (hcfg : cfg.legal) (buf : List Byte) (p e : Nat) :
    Token.legal cfg (mfStep cfg buf p e).1 = true := by
  rcases mfStep_cases cfg buf p e with h | ⟨l, d, hs, h⟩ <;> rw [h]
  · rfl
  · obtain ⟨h3, c, hc, hl, rfl⟩ := mfSearch_candidate hs
    obtain ⟨h1, hws, -, -⟩ := mem_candidates hc
    refine matchToken_legal hcfg h3 ?_ h1 hws
    rw [hl]
    exact Nat.le_trans (matchLen_le_cap _ _ _) (Nat.min_le_left _ _)

theorem mfLoop_legal {cfg : Cfg} (hcfg : cfg.legal) (finish : Bool) (buf : List Byte) (e fuel p : Nat) :
    ∀ tok ∈ (mfLoop cfg finish buf e fuel p).1, Token.legal cfg tok = true := by
  induction fuel generalizing p with
  | zero => simp [mfLoop]
  | succ fuel ih =>
    simp only [mfLoop]
    split
    · exact List.forall_mem_cons.mpr ⟨mfStep_legal hcfg buf p e, ih _⟩
    · simp

/-- MF_ENCODE's loop ends at a cursor that is not decidable (R71, R72). -/
theorem mfLoop_not_decidableAt (cfg : Cfg) (finish : Bool) (buf : List Byte) (e : Nat) {fuel p : Nat}
    (hfuel : e ≤ p + fuel) : decidableAt cfg finish (mfLoop cfg finish buf e fuel p).2 e = false := by
  induction fuel generalizing p with
  | zero =>
    have hp : ¬p < e := by omega
    simp [mfLoop, decidableAt, hp]
  | succ fuel ih =>
    simp only [mfLoop]
    split
    · have := mfStep_advance_pos cfg buf p e
      exact ih (by omega)
    · next hd => exact Bool.eq_false_iff.mpr hd

/-- What MF_ENCODE holds back: nothing when it finishes, at most `max_lazy_match` bytes otherwise (R71, R72). -/
theorem mfEncode_pend_length (cfg : Cfg) (win pend input : List Byte) (finish : Bool) :
    (mfEncode cfg win pend input finish).pend.length ≤ cfg.mm ∧
      (finish = true → (mfEncode cfg win pend input finish).pend = []) := by
  simp only [mfEncode]
  generalize win ++ pend ++ input = buf
  have hend := mfLoop_not_decidableAt cfg finish buf buf.length (fuel := buf.length - win.length) (p := win.length)
    (by omega)
  generalize (mfLoop cfg finish buf buf.length _ _).2 = q at *
  simp only [decidableAt, Bool.and_eq_false_imp, Bool.or_eq_false_iff, decide_eq_true_eq, decide_eq_false_iff_not]
    at hend
  refine ⟨?_, fun hf => ?_⟩
  · rw [List.length_drop]
    omega
  · refine List.drop_eq_nil_of_le (Nat.not_lt.mp fun hlt => ?_)
    rw [hf] at hend
    cases (hend hlt).1

/-! CHUNK's buffer -/

/-- The packer and the token buffer between two tokens of a CHUNK (R29 (d) to (f), R96). -/
structure Session.Buffered (u : Nat) (cfg : Cfg) (ses : Session) : Prop where
  packer : ses.bp.ok
  counted : ses.counted
  few : ses.tokbuf.length < u
  legal : ses.tokbuf.all (Token.legal cfg) = true

theorem hcEncode_buffered {u : Nat} (hu : 0 < u) (cfg : Cfg) (final : Bool) {ses : Session} (h : ses.bp.ok) :
    (hcEncode cfg final ses).Buffered u cfg :=
  ⟨hcEncode_bp_ok cfg final h, counted_of_empty rfl rfl rfl, hu, rfl⟩

theorem Session.Buffered.takeToken {u : Nat} (hu : u ≤ 4095) {cfg : Cfg} {ses : Session} (h : ses.Buffered u cfg)
    {tok : Token} (htok : Token.legal cfg tok = true) : (takeToken u cfg ses tok).Buffered u cfg := by
  obtain ⟨hbp, hc, hfew, hl⟩ := h
  have hbuf : (pushToken ses tok).tokbuf = ses.tokbuf ++ [tok] := rfl
  rw [takeToken_eq]
  split
  · exact hcEncode_buffered (by omega) cfg false hbp
  · next hroom =>
    refine ⟨hbp, pushToken_counted hc (by omega) tok, ?_, ?_⟩
    · rw [hbuf, List.length_append, List.length_singleton] at *
      omega
    · simp [hbuf, hl, htok]

/-- CHUNK's tokens leave the buffer as it has to be (R102 steps 4 and 5). -/
theorem Session.Buffered.codeSlice {u : Nat} (hu : u ≤ 4095) {cfg : Cfg} (hcfg : cfg.legal) {ses : Session}
    (h : ses.Buffered u cfg) (fin : Bool) (input : List Byte) : (codeSlice u cfg ses fin input).Buffered u cfg := by
  have hstart : (mfUpdate ses (mfEncode cfg ses.win ses.pend input fin)).Buffered u cfg :=
    ⟨h.packer, h.counted, h.few, h.legal⟩
  exact List.foldlRecOn _ _ (motive := Session.Buffered u cfg) hstart fun x hx tok htok =>
    hx.takeToken hu (mfLoop_legal hcfg fin _ _ _ _ tok htok)

/-! Good sessions -/

theorem fresh_good {u : Nat} (hu : 0 < u) (cfg : Cfg) : Session.fresh.good u cfg :=
  ⟨Nat.zero_le _, Nat.zero_le _, hu, rfl, counted_of_empty rfl rfl rfl, ⟨Nat.zero_le 7, Nat.one_pos⟩, rfl,
    fun _ => ⟨rfl, rfl, rfl, rfl⟩⟩

/-- A successful CHUNK keeps the session good (R29 (b) to (h)). -/
theorem chunkSession_good {u : Nat} (hu : u ≤ 4095) {cfg : Cfg} (hcfg : cfg.legal) {ses : Session}
    (h : ses.good u cfg) {fin : Bool} {input : List Byte} {cap : Nat} {r : ChunkOk}
    (hr : chunkSession u cfg ses fin input cap = some r) : r.ses.good u cfg := by
  rcases chunkSession_cases hr with ⟨-, rfl⟩ | ⟨hf, -, -, rfl⟩
  · exact h
  obtain ⟨-, -, hfew, hl, hc, hbp, -, -⟩ := h
  obtain ⟨hw, hp⟩ := compressSlice_win_pend u cfg ses fin input
  obtain ⟨hpend, hpendFin⟩ := mfEncode_pend_length cfg ses.win ses.pend input fin
  have hcode := Session.Buffered.codeSlice hu hcfg ⟨hbp, hc, hfew, hl⟩ fin input
  have hflag : (compressSlice u cfg ses fin input).finished = false := by
    have hledger := compressSlice_ledger u cfg ses fin input
    simp only [Session.ledger, Prod.mk.injEq] at hledger
    rw [hledger.1, hf]
  refine ⟨?_, ?_, ?_⟩
  · rw [account_win, withPacker_win, hw]
    exact mfEncode_win_length_le _ _ _ _ _
  · rw [account_pend, withPacker_pend, hp]
    exact hpend
  cases fin with
  | false =>
    refine ⟨hcode.few, hcode.legal, hcode.counted, hcode.packer, rfl, fun hfin => ?_⟩
    rw [account_finished, withPacker_finished, hflag] at hfin
    cases hfin
  | true =>
    refine ⟨Nat.lt_of_le_of_lt (Nat.zero_le _) hfew, rfl, counted_of_empty rfl rfl rfl,
      compressSlice_bp_ok u cfg true input hbp, rfl, fun _ => ⟨?_, rfl, rfl, rfl⟩⟩
    rw [account_pend, withPacker_pend, hp]
    exact hpendFin rfl

/-! Good states -/

/-- Settles O11: the fresh session is good under the configuration of hard reset. -/
theorem resetIsGood : Obligations.ResetIsGood := ⟨by decide, fresh_good (by decide) _, rfl, rfl⟩

theorem runChunk_status (fin : Bool) (input : List Byte) (cap : Nat) (s : State) :
    (runChunk fin input cap s).code.raised = true ∧ (runChunk fin input cap s).unitWord = s.unitWord := by
  rcases runChunk_cases fin input cap s with ⟨-, h⟩ | ⟨r, -, h⟩ <;> rw [h] <;> exact ⟨rfl, rfl⟩

/-- A host command ends with a code that the block raises, or keeps the code while it waits (R111). -/
theorem exec_hostCommand_status {i : Instr} (hu : i.isUnitOp = false) {s t : State} (h : exec i s = .next t)
    (hcode : s.code.raised = true) : t.code.raised = true ∧ t.unitWord = s.unitWord := by
  cases i <;> simp only [Instr.isUnitOp, Bool.true_eq_false] at hu <;> simp only [exec] at h
  case nop => cases h; exact ⟨rfl, rfl⟩
  case reset => cases h; exact ⟨rfl, rfl⟩
  case cfgLevel level => unfold execCfgLevel at h; split at h <;> cases h <;> exact ⟨rfl, rfl⟩
  case cfgSet psel val => unfold execCfgSet at h; split at h <;> cases h <;> exact ⟨rfl, rfl⟩
  case chunk fin =>
    rcases execChunk_cases fin s with ⟨-, hr⟩ | ⟨-, hr⟩ <;> cases hr.symm.trans h
    · exact runChunk_status _ _ _ _
    · exact ⟨hcode, rfl⟩

/-- A step with an idle unit bus leaves it idle and STATUS.CODE at a code that the block raises (R111). -/
theorem step_status {s t : State} (h : step s = .next t) (hu : s.unitWord = none) (hcode : s.code.raised = true) :
    t.code.raised = true ∧ t.unitWord = none := by
  rcases step_cases h with ⟨w, i, hw, -, -⟩ | ⟨-, q, -, rfl⟩ | ⟨-, -, he⟩
  · rw [hu] at hw
    cases hw
  · rw [← hu]
    exact runChunk_status _ _ _ _
  rcases takeEvent_effect he with ⟨-, -, hc, hw⟩ | ⟨-, later, rfl⟩ | ⟨w, rest, -, -, hrun⟩
  · exact ⟨hc ▸ hcode, hw.trans hu⟩
  · exact ⟨rfl, rfl⟩
  · rcases runCommandWord_cases w { s with host := rest } with ⟨i, hi, hr⟩ | ⟨e, -, hr⟩
    · obtain ⟨hc, hw⟩ := exec_hostCommand_status (hostDecode_isHost hi).2 (hr.symm.trans hrun) hcode
      exact ⟨hc, hw.trans hu⟩
    · cases hr.symm.trans hrun
      exact ⟨rfl, hu⟩

/-- Settles O12: each effect a step can have with an idle unit bus keeps the session good. -/
theorem stepKeepsGood : Obligations.StepKeepsGood := by
  intro s t ⟨hcfg, hgood, hcode, hu⟩ h
  have hstatus := step_status h hu hcode
  rcases step_effect h with ⟨hw, -, -⟩ | ⟨hc, hs⟩ | ⟨-, hc, hs⟩ | ⟨-, -, -, hl, hs⟩ | ⟨-, hc, hr, hs⟩
  · rw [hu] at hw
    cases hw
  · rw [State.good, hc, hs]
    exact ⟨hcfg, hgood, hstatus⟩
  · rw [State.good, hc, hs]
    exact ⟨by decide, fresh_good (by decide) _, hstatus⟩
  · rw [State.good, hs]
    exact ⟨hl hcfg, fresh_good (by decide) _, hstatus⟩
  · rw [State.good, hc, hs]
    exact ⟨hcfg, chunkSession_good (by decide) hcfg hgood hr, hstatus⟩

end Sys2Proof.Machine
end

section
/-! The block's ports (R13 to R18, R30, R31, R35, R36, R41 to R43, R97, R122): what a step does for each event it takes
from the host, the resets, and a CHUNK that waits. Settles O6, O8, O10, O18, O34, O55, O56 and O57. -/

namespace Sys2Proof.Machine

/-! What a step takes up -/

theorem step_eq_takeEvent {s : State} (h : takesEvent s) : step s = takeEvent s := by
  obtain ⟨hu, hr⟩ := h
  simp only [step, turn, hu, hr]

theorem takesCommand.takesEvent {w : Word} {rest : List HostEvent} {s : State} (h : takesCommand w rest s) :
    takesEvent s := by
  obtain ⟨hu, hr, -⟩ := h
  exact ⟨hu, by simp only [readyChunk, hr]⟩

theorem step_hardReset {s : State} {rest : List HostEvent} (h : takesEvent s) (hh : s.host = .hardReset :: rest) :
    step s = .next (hardReset { s with host := rest }) := by
  rw [step_eq_takeEvent h, takeEvent, hh]

theorem step_read {s : State} {width offset : Nat} {rest : List HostEvent} (h : takesEvent s)
    (hh : s.host = .read width offset :: rest) : step s = busRead width offset { s with host := rest } := by
  rw [step_eq_takeEvent h, takeEvent, hh]

theorem step_write {s : State} {width offset : Nat} {data : Word} {rest : List HostEvent} (h : takesEvent s)
    (hh : s.host = .write width offset data :: rest) (hc : isCommandWrite width offset = false) :
    step s = busWrite width offset data { s with host := rest } := by
  rw [step_eq_takeEvent h, takeEvent, hh]
  exact if_neg (by rw [hc]; exact Bool.false_ne_true)

theorem step_stalledWrite {s : State} {data : Word} {rest : List HostEvent} (h : takesEvent s)
    (hh : s.host = .write 4 0 data :: rest) (hb : s.busy = true) : step s = .next (stalledWrite rest s) := by
  rw [step_eq_takeEvent h, takeEvent, hh]
  exact (if_pos rfl).trans (if_pos hb)

theorem step_command {w : Word} {rest : List HostEvent} {s : State} (h : takesCommand w rest s) :
    step s = runCommandWord w { s with host := rest } := by
  have hstep := step_eq_takeEvent h.takesEvent
  obtain ⟨-, hr, hh⟩ := h
  have hb : ¬s.busy = true := by simp [State.busy, hr]
  rw [hstep, takeEvent, hh]
  exact (if_pos rfl).trans (if_neg hb)

theorem step_readyChunk {s : State} {r : RunningChunk} (hu : s.unitWord = none) (hr : s.running = some r)
    (hlen : r.inLen.toNat ≤ s.inPort.length) : step s = .next (resumeChunk r s) := by
  have hready : readyChunk s = some r := readyChunk_eq_some.mpr ⟨hr, decide_eq_true hlen⟩
  simp only [step, turn, hu, hready]

/-! Commands -/

/-- Settles O6, by what the word decodes to. -/
theorem stepRunsCommandWord : Obligations.StepRunsCommandWord := by
  intro s w rest h
  rw [step_command h]
  exact ⟨fun i hi => by simp only [runCommandWord, hi], fun e he => by simp only [runCommandWord, he]; rfl⟩

/-- Settles O18: the fresh session has the values R31 lists. -/
theorem resetCommandResult : Obligations.ResetCommandResult := fun _ => rfl

/-- The work of a CHUNK depends neither on the two registers it has latched nor on the output port, and it keeps the
registers. -/
theorem runChunk_latched (fin : Bool) (input : List Byte) (cap : Nat) (s : State) (inLen outCap : Word)
    (outPort : List Byte) :
    runChunk fin input cap s =
      { runChunk fin input cap { s with inLen := inLen, outCap := outCap, outPort := outPort } with
        inLen := s.inLen, outCap := s.outCap } := by
  simp only [runChunk]
  split <;> rfl

/-- Settles O8: short of input the CHUNK latches its operands, and its work depends on nothing that changes since. -/
theorem chunkWaitsAndResumes : Obligations.ChunkWaitsAndResumes := by
  refine ⟨fun fin s hshort => ?_, fun s r hu hr hlen => ?_⟩
  · rcases execChunk_cases fin s with ⟨hready, -⟩ | ⟨-, h⟩
    · have := of_decide_eq_true hready
      omega
    · exact h
  · rcases execChunk_cases r.fin { s with inLen := r.inLen, outCap := r.outCap } with ⟨-, h⟩ | ⟨hn, -⟩
    · refine ⟨_, h, ?_⟩
      rw [step_readyChunk hu hr hlen, resumeChunk, runChunk_latched _ _ _ s r.inLen r.outCap []]
      rfl
    · exact absurd hlen (of_decide_eq_false hn)

/-! Reset -/

/-- Settles O10: hard reset leaves `State.reset` with the pending events. -/
theorem hardResetValues : Obligations.HardResetValues := by
  intro s rest h hh
  refine ⟨_, step_hardReset h hh, rfl, rfl, ?_⟩
  simp +contextual [State.reset, Cfg.powerOn, Session.fresh, State.finished]

/-! MF_SEARCH and MF_STEP -/

theorem exec_mfSearch_of_inside {s : State} (h : searchInside s.cfg s.unitArgs = true) :
    exec .mfSearch s = .next { s with
      unitResult := .found (mfSearch s.cfg s.unitArgs.buf s.unitArgs.cursor s.unitArgs.limit) } := if_pos h

theorem exec_mfSearch_of_outside {s : State} (h : searchInside s.cfg s.unitArgs = false) :
    exec .mfSearch s = .fault .readOutside := if_neg (by rw [h]; exact Bool.false_ne_true)

theorem exec_mfStep_of_inside {s : State} (h : stepInside s.cfg s.unitArgs = true) :
    exec .mfStep s = .next { s with
      unitResult := .stepped (mfStep s.cfg s.unitArgs.buf s.unitArgs.cursor s.unitArgs.limit).1
        (mfStep s.cfg s.unitArgs.buf s.unitArgs.cursor s.unitArgs.limit).2 } := if_pos h

theorem exec_mfStep_of_outside {s : State} (h : stepInside s.cfg s.unitArgs = false) :
    exec .mfStep s = .fault .readOutside := if_neg (by rw [h]; exact Bool.false_ne_true)

/-- Settles O34, by whether the reads lie inside the buffer. -/
theorem searchAndStepComplete : Obligations.SearchAndStepComplete := by
  intro s
  refine ⟨fun hle => exec_mfSearch_of_inside ?_, fun hle hlt => exec_mfStep_of_inside ?_, fun hlt h3 hws hmc => ?_⟩
  · simp [searchInside, hle]
  · simp [stepInside, searchInside, hle, Nat.lt_of_lt_of_le hlt hle]
  · have hws : s.cfg.ws ≠ 0 := fun h => hws (BitVec.eq_of_toNat_eq h)
    have hmc : s.cfg.mc ≠ 0 := fun h => hmc (BitVec.eq_of_toNat_eq h)
    have hout : searchInside s.cfg s.unitArgs = false := by
      simp [searchInside, searchNeedsNoRead, hws, hmc, h3, hlt]
    exact ⟨exec_mfSearch_of_outside hout, exec_mfStep_of_outside (by rw [stepInside, hout, Bool.and_false])⟩

/-! Registers -/

theorem busRead_eq {offset : Nat} (ha : offset % 4 = 0) (ho : offset < 256) (s : State) :
    busRead 4 offset s = .next (afterRead offset { s with readData := readReg offset s }) := by
  simp only [busRead, accessRefusal_eq_none.mpr ⟨rfl, ha, ho⟩]

theorem busWrite_eq {offset : Nat} (ha : offset % 4 = 0) (ho : offset < 256) (data : Word) (s : State) :
    busWrite 4 offset data s = .next (writeReg offset data s) := by
  simp only [busWrite, accessRefusal_eq_none.mpr ⟨rfl, ha, ho⟩]

/-- A read of any register but OUT_DATA returns the register's value and changes nothing else (R41). -/
theorem step_readReg {s : State} {offset : Nat} {rest : List HostEvent} (h : takesEvent s)
    (hh : s.host = .read 4 offset :: rest) (ha : offset % 4 = 0) (ho : offset < 256) (hd : offset ≠ 0x44) :
    step s = .next { s with host := rest, readData := readReg offset { s with host := rest } } := by
  rw [step_read h hh, busRead_eq ha ho]
  rcases afterRead_cases offset _ with hr | ⟨he, -⟩
  · rw [hr]
  · exact absurd he hd

/-- A read of OUT_DATA returns the oldest output byte, or zero, and removes it (R43). -/
theorem step_readOutData {s : State} {rest : List HostEvent} (h : takesEvent s) (hh : s.host = .read 4 0x44 :: rest) :
    step s = .next { s with
      host := rest, readData := (s.outPort.headD 0).setWidth 32, outPort := s.outPort.tail } := by
  rw [step_read h hh, busRead_eq (by decide) (by decide)]
  rfl

/-- The offsets from 0x48 up are reserved (R13). -/
theorem readReg_reserved {offset : Nat} (h : 0x48 ≤ offset) (s : State) : readReg offset s = 0 := by
  unfold readReg
  split
  case h_16 => rfl
  all_goals omega

/-- The STATUS word by its fields (R15). -/
theorem statusWord_eq (s : State) :
    statusWord s =
      BitVec.ofNat 32 (s.running.isSome.toNat + 2 * s.ses.finished.toNat + 16 * (statusBits s.code).toNat) := by
  simp only [statusWord, State.busy, State.finished]
  cases s.running.isSome <;> cases s.ses.finished <;> cases s.code <;> rfl

theorem extractLsb'_low (x : BitVec 64) : x.extractLsb' 0 32 = BitVec.ofNat 32 (x.toNat % 2 ^ 32) :=
  BitVec.eq_of_toNat_eq (by simp)

theorem extractLsb'_high (x : BitVec 64) : x.extractLsb' 32 32 = BitVec.ofNat 32 (x.toNat / 2 ^ 32) :=
  BitVec.eq_of_toNat_eq (by simp [Nat.shiftRight_eq_div_pow])

/-- R13's map of the registers whose read has no effect, with what each reads. -/
def registerMap (s : State) : List (Nat × Word) :=
  [(0x00, 0),
   (0x04, BitVec.ofNat 32 (s.running.isSome.toNat + 2 * s.ses.finished.toNat + 16 * (statusBits s.code).toNat)),
   (0x08, s.inLen), (0x0C, s.outCap), (0x10, s.consumed), (0x14, s.written),
   (0x18, BitVec.ofNat 32 (s.ses.bytesProcessed.toNat % 2 ^ 32)),
   (0x1C, BitVec.ofNat 32 (s.ses.bytesProcessed.toNat / 2 ^ 32)),
   (0x20, BitVec.ofNat 32 (s.ses.bytesOutput.toNat % 2 ^ 32)),
   (0x24, BitVec.ofNat 32 (s.ses.bytesOutput.toNat / 2 ^ 32)),
   (0x28, BitVec.ofNat 32 s.cfg.level.toNat), (0x2C, BitVec.ofNat 32 s.cfg.windowSize.toNat),
   (0x30, BitVec.ofNat 32 s.cfg.maxLazyMatch.toNat), (0x34, BitVec.ofNat 32 s.cfg.maxChainLength.toNat),
   (0x38, BitVec.ofNat 32 s.cfg.tblMode.toNat), (0x3C, 0), (0x40, 0)]

theorem registerMap_offset (s : State) :
    ∀ e ∈ registerMap s, e.1 % 4 = 0 ∧ e.1 < 256 ∧ e.1 ≠ 0x44 := by
  simp [registerMap]

theorem readReg_registerMap (s : State) : ∀ e ∈ registerMap s, readReg e.1 s = e.2 := by
  have hfield : ∀ {n : Nat} (x : BitVec n), x.setWidth 32 = BitVec.ofNat 32 x.toNat := fun x =>
    (BitVec.ofNat_toNat 32 x).symm
  simp only [registerMap, List.forall_mem_cons]
  exact ⟨rfl, statusWord_eq s, rfl, rfl, rfl, rfl, extractLsb'_low _, extractLsb'_high _, extractLsb'_low _,
    extractLsb'_high _, hfield _, hfield _, hfield _, hfield _, hfield _, rfl, rfl, List.forall_mem_nil _⟩

/-- Settles O55, by the register map; of the reads OUT_DATA's alone has an effect. -/
theorem registerReads : Obligations.RegisterReads := by
  refine ⟨rfl, fun s offset rest h hh => ⟨fun v hv => ?_, fun hlo hhi ha => ?_, ?_, ?_⟩⟩
  · have hv : (offset, v) ∈ registerMap { s with host := rest } := hv
    obtain ⟨ha, ho, hd⟩ := registerMap_offset _ _ hv
    rw [step_readReg h hh ha ho hd, readReg_registerMap _ _ hv]
  · rw [step_readReg h hh ha hhi (by omega), readReg_reserved hlo]
  · rintro rfl hout
    rw [step_readOutData h hh, hout]
    obtain ⟨⟩ := s
    cases hout
    rfl
  · rintro rfl b bytes hout
    rw [step_readOutData h hh, hout, BitVec.ofNat_toNat]
    rfl

/-- Settles O56: the access is accepted, and the write acts by its offset. -/
theorem registerWrites : Obligations.RegisterWrites := by
  intro s offset data rest h hh ha hpos ho
  have hc : isCommandWrite 4 offset = false := by simp [isCommandWrite]; omega
  have hbyte : data.extractLsb' 0 8 = BitVec.ofNat 8 (data.toNat % 256) := BitVec.eq_of_toNat_eq (by simp)
  rw [step_write h hh hc, busWrite_eq ha ho]
  unfold writeReg
  split
  · rfl
  · rfl
  · rw [hbyte]; rfl
  · next h8 hC h40 => rw [if_neg h8, if_neg hC, if_neg h40]

/-! Refused accesses and stalled writes -/

theorem accessRefusal_notAligned {width offset : Nat} (h : width ≠ 4 ∨ offset % 4 ≠ 0) :
    accessRefusal width offset = some .notAlignedWordAccess := if_pos h

theorem accessRefusal_outside {offset : Nat} (ha : offset % 4 = 0) (ho : 256 ≤ offset) :
    accessRefusal 4 offset = some .outsideTheBlock := by
  have hn : ¬((4 : Nat) ≠ 4 ∨ offset % 4 ≠ 0) := by omega
  rw [accessRefusal, if_neg hn, if_pos ho]

/-- A refused access stops the step (R35, R36). -/
theorem step_refused {s : State} {width offset : Nat} {data : Word} {rest : List HostEvent} {r : Refusal}
    (h : takesEvent s) (hh : s.host = .read width offset :: rest ∨ s.host = .write width offset data :: rest)
    (hr : accessRefusal width offset = some r) : step s = .refused r := by
  rcases hh with hh | hh
  · rw [step_read h hh]
    simp only [busRead, hr]
  · have hc : isCommandWrite width offset = false := by
      refine Bool.eq_false_iff.mpr fun hc => ?_
      simp only [isCommandWrite, Bool.and_eq_true, beq_iff_eq] at hc
      rw [hc.1, hc.2] at hr
      cases hr
    rw [step_write h hh hc]
    simp only [busWrite, hr]

/-- Settles O57: the refusals by the access, the stalled write by what the host does next. -/
theorem accessRefusedOrStalled : Obligations.AccessRefusedOrStalled := by
  intro s width offset data rest h
  refine ⟨fun hh => ⟨fun hbad => step_refused h hh (accessRefusal_notAligned hbad), ?_⟩, fun hh hb => ?_⟩
  · rintro rfl ha ho
    exact step_refused h hh (accessRefusal_outside ha ho)
  · rw [step_stalledWrite h hh hb]
    refine ⟨fun hn => ?_, ?_⟩
    · rcases stalledWrite_cases rest s with hs | ⟨later, hr, -⟩
      · rw [hs]
      · exact absurd hr (hn later)
    · rintro later rfl
      rfl

end Sys2Proof.Machine
end

section
/-! BP_WRITE_BITS and the bit order of a byte stream (R39, R93, R96). Settles O53. -/

namespace Sys2Proof.Machine

theorem bpWrite_outq_length (p : BitPacker) (value width : Nat) :
    (bpWrite p value width).outq.length = p.outq.length + (p.nbits + width) / 8 := by
  rw [bpWrite_eq]
  simp

/-- Bit `8k + i` of a byte stream is bit `i` of its `k`-th byte (R39). -/
theorem streamBits_getD (bytes : List Byte) {k i : Nat} (hk : k < bytes.length) (hi : i < 8) :
    (streamBits bytes).getD (8 * k + i) false = (bytes.getD k 0).getLsbD i := by
  induction bytes generalizing k with
  | nil => simp at hk
  | cons b bytes ih =>
    have hcons : streamBits (b :: bytes) = (List.range 8).map b.getLsbD ++ streamBits bytes := rfl
    rw [hcons]
    cases k with
    | zero =>
      rw [List.getD_append _ _ _ _ (by simpa using hi)]
      simp [hi]
    | succ k =>
      have hsub : 8 * (k + 1) + i - ((List.range 8).map b.getLsbD).length = 8 * k + i := by
        simp only [List.length_map, List.length_range]
        omega
      rw [List.getD_append_right _ _ _ _ (by simp; omega), hsub, List.getD_cons_succ]
      exact ih (by simpa using hk)

/-- The low `n` bits of a number, each at its weight. -/
theorem sum_testBit (n v : Nat) : ((List.range n).map fun i => (v.testBit i).toNat * 2 ^ i).sum = v % 2 ^ n := by
  induction n with
  | zero => simp [Nat.mod_one]
  | succ n ih =>
    rw [List.range_succ, List.map_append, List.sum_append, ih, Nat.mod_pow_succ, ← Nat.toNat_testBit]
    simp [Nat.mul_comm]

/-- Settles O53: the packer's closed form, and a byte as the sum of its bits. -/
theorem writeBitsAppends : Obligations.WriteBitsAppends := by
  refine ⟨fun p value width h => ⟨bpWrite_bits h value width, bpWrite_ok h value width,
    bpWrite_outq_length p value width⟩, fun bytes k hk => ?_⟩
  have hbits : (List.range 8).map (fun i => ((streamBits bytes).getD (8 * k + i) false).toNat * 2 ^ i) =
      (List.range 8).map fun i => ((bytes.getD k 0).toNat.testBit i).toNat * 2 ^ i :=
    List.map_congr_left fun i hi => by
      rw [streamBits_getD bytes hk (List.mem_range.mp hi), BitVec.testBit_toNat]
  rw [hbits, sum_testBit, Nat.mod_eq_of_lt (bytes.getD k 0).isLt]

end Sys2Proof.Machine
end

section
/-! The bits of a token, by the rows of the class tables (R40, R52, R53, R59, R88). Settles O50. -/

namespace Sys2Proof.Machine

/-- Row `i` of the class table with these bases and extra bits: its last value is the one below the next base, `limit`
standing after the last base. -/
def classRow (first : Nat) (bases extras : List Nat) (limit i : Nat) : ClassRow :=
  ⟨first + i, bases.getD i 0, extras.getD i 0, bases.getD (i + 1) limit - 1⟩

/-- The rows of a class table, one per base. -/
def classRows (first : Nat) (bases extras : List Nat) (limit : Nat) : List ClassRow :=
  (List.range bases.length).map (classRow first bases extras limit)

theorem lengthRows_eq : lengthRows = classRows 257 lenBase lenExtra 259 := by decide

theorem distanceRows_eq : distanceRows = classRows 0 distBase distExtra 32769 := by decide

/-- A value falls in the row of its class. -/
theorem classRow_mem_and_covers {bases : List Nat} (hs : bases.Pairwise (· < ·)) (first : Nat) (extras : List Nat)
    {x limit : Nat} (hne : 0 < bases.length) (h0 : bases.getD 0 0 ≤ x) (hx : x < limit) :
    let r := classRow first bases extras limit (classIndex bases x)
    r ∈ classRows first bases extras limit ∧ r.covers x := by
  obtain ⟨hlt, hle, hnext⟩ := classIndex_spec hs hne h0 hx
  exact ⟨List.mem_map_of_mem (List.mem_range.mpr hlt), hle, Nat.le_sub_one_of_lt hnext⟩

/-- The row of R52 a length falls in. -/
def lengthRow (length : Nat) : ClassRow := classRow 257 lenBase lenExtra 259 (lengthClass length)

/-- The row of R53 a distance falls in. -/
def distanceRow (distance : Nat) : ClassRow := classRow 0 distBase distExtra 32769 (distanceClass distance)

theorem lengthRow_mem_and_covers {length : Nat} (h3 : 3 ≤ length) (h258 : length ≤ 258) :
    lengthRow length ∈ lengthRows ∧ (lengthRow length).covers length :=
  lengthRows_eq ▸ classRow_mem_and_covers (bases := lenBase) (by decide) 257 lenExtra (by decide) h3
    (Nat.lt_succ_of_le h258)

theorem distanceRow_mem_and_covers {distance : Nat} (h1 : 1 ≤ distance) (hmax : distance ≤ 32768) :
    distanceRow distance ∈ distanceRows ∧ (distanceRow distance).covers distance :=
  distanceRows_eq ▸ classRow_mem_and_covers (bases := distBase) (by decide) 0 distExtra (by decide) h1
    (Nat.lt_succ_of_le hmax)

/-- A match's bits, by the rows of its length's and its distance's classes (R59). -/
theorem tokenBits_matchToken (codeL : Vector CodeEntry 286) (codeD : Vector CodeEntry 30) {length distance : Nat}
    (h3 : 3 ≤ length) (h258 : length ≤ 258) (h1 : 1 ≤ distance) (hmax : distance ≤ 32768) :
    let r := lengthRow length
    let q := distanceRow distance
    tokenBits codeL codeD (matchToken length distance) =
      (entry codeL r.symbol).bits ++ intBits r.extra (length - r.base) ++
        (entry codeD q.symbol).bits ++ intBits q.extra (distance - q.base) := by
  simp only [tokenBits, matchToken, lengthOf_ofNat h3 h258, distanceOf_ofNat h1 hmax, lengthRow, distanceRow, classRow,
    Nat.zero_add]

/-- Settles O50: HC_EMIT_TOKEN appends the token's bits, and a match's classes are rows of R52 and R53. -/
theorem tokenBitsAppended : Obligations.TokenBitsAppended := by
  intro codeL codeD p h
  refine ⟨fun tok => appends_emitToken codeL codeD p tok h,
    fun b => (appends_emitToken codeL codeD p (.lit b) h).1, fun length distance h3 h258 h1 hmax => ?_⟩
  obtain ⟨hr, hrc⟩ := lengthRow_mem_and_covers h3 h258
  obtain ⟨hq, hqc⟩ := distanceRow_mem_and_covers h1 hmax
  refine ⟨_, hr, _, hq, hrc, hqc, ?_⟩
  rw [(appends_emitToken codeL codeD p _ h).1, tokenBits_matchToken codeL codeD h3 h258 h1 hmax]
  simp only [List.append_assoc]

end Sys2Proof.Machine
end

section
/-! The ring behind WIN (R37, R64). Settles O59. -/

namespace Sys2Proof.Machine

/-- The RAM slot of `WIN[i]` (R37). -/
def Ring.slot (ws : Nat) (r : Ring) (i : Nat) : Nat := (r.wp + ws - r.wlen + i) % ws

theorem ringRead_of_lt (ws : Nat) {r : Ring} {i : Nat} (hi : i < r.wlen) :
    ringRead ws r i = memRead r.ram (r.slot ws i) := if_pos hi

theorem ringAppend_zero (r : Ring) (b : Byte) : ringAppend 0 r b = r := rfl

theorem ringAppend_of_pos {ws : Nat} (hws : 0 < ws) (r : Ring) (b : Byte) :
    ringAppend ws r b = ⟨memWrite r.ram r.wp b, (r.wp + 1) % ws, min (r.wlen + 1) ws⟩ := if_neg (Nat.ne_of_gt hws)

/-- The slot behind the window is the one WP names. -/
theorem Ring.slot_wlen {ws : Nat} {r : Ring} (hlen : r.wlen ≤ ws) (hwp : r.wp < ws) : r.slot ws r.wlen = r.wp := by
  rw [Ring.slot, Nat.sub_add_cancel (by omega), Nat.add_mod_right, Nat.mod_eq_of_lt hwp]

/-- WP names no slot of the window's bytes but, in a full ring, the oldest one's. -/
theorem Ring.slot_ne_wp {ws : Nat} {r : Ring} (hlen : r.wlen ≤ ws) (hwp : r.wp < ws) {j : Nat} (hj : j < r.wlen)
    (hold : r.wlen + 1 - ws ≤ j) : r.slot ws j ≠ r.wp := by
  rw [Ring.slot]
  by_cases hwrap : r.wp + ws - r.wlen + j < ws
  · rw [Nat.mod_eq_of_lt hwrap]
    omega
  · rw [Nat.mod_eq_sub_mod (by omega), Nat.mod_eq_of_lt (by omega)]
    omega

/-- Appending moves every kept byte down by the number of bytes that fall out, and leaves it in its slot. -/
theorem slot_ringAppend {ws : Nat} (hws : 0 < ws) {r : Ring} (hlen : r.wlen ≤ ws) (b : Byte) (i : Nat) :
    (ringAppend ws r b).slot ws i = r.slot ws (r.wlen + 1 - ws + i) := by
  rw [ringAppend_of_pos hws, Ring.slot, Ring.slot, Nat.add_sub_assoc (Nat.min_le_right _ _), Nat.add_assoc,
    Nat.mod_add_mod]
  congr 1
  omega

/-- Appending keeps the pointers within the slots and the memory in canonical form. -/
theorem Ring.ok.append {ws : Nat} {r : Ring} (h : Ring.ok ws r) (b : Byte) : Ring.ok ws (ringAppend ws r b) := by
  rcases Nat.eq_zero_or_pos ws with rfl | hws
  · exact h
  · obtain ⟨-, -, hwf⟩ := h
    rw [ringAppend_of_pos hws]
    exact ⟨Nat.min_le_right _ _, .inl (Nat.mod_lt _ hws), memWrite_wf r.wp b hwf⟩

/-- What an appended ring reads: the byte itself in the last place, before it what the ring read, without the byte that
falls out of a full ring. -/
theorem ringRead_ringAppend {ws : Nat} (hws : 0 < ws) {r : Ring} (h : Ring.ok ws r) (b : Byte) {i : Nat}
    (hi : i < min (r.wlen + 1) ws) :
    ringRead ws (ringAppend ws r b) i =
      if r.wlen + 1 - ws + i < r.wlen then ringRead ws r (r.wlen + 1 - ws + i) else some b := by
  obtain ⟨hlen, hwp, -⟩ := h
  have hwp : r.wp < ws := hwp.resolve_right (Nat.ne_of_gt hws)
  have hi' : i < (ringAppend ws r b).wlen := by rwa [ringAppend_of_pos hws]
  rw [ringRead_of_lt ws hi', slot_ringAppend hws hlen, ringAppend_of_pos hws]
  split
  · next hj =>
    rw [ringRead_of_lt ws hj, memRead_memWrite_other r.ram b (Ring.slot_ne_wp hlen hwp hj (Nat.le_add_right _ _))]
  · next hj =>
    have hlast : r.wlen + 1 - ws + i = r.wlen := by omega
    rw [hlast, Ring.slot_wlen hlen hwp, memRead_memWrite_same]

/-- A byte of the extended window: the new one in the last place, before it the window's, without the oldest byte of a
full window. -/
theorem windowExtend_singleton_getElem? (ws : Nat) (win : List Byte) (b : Byte) {i : Nat}
    (hi : i < min (win.length + 1) ws) :
    (windowExtend ws win [b])[i]? =
      if win.length + 1 - ws + i < win.length then win[win.length + 1 - ws + i]? else some b := by
  rw [windowExtend_eq_drop, List.getElem?_drop, List.length_append, List.length_singleton]
  split
  · next hj => exact List.getElem?_append_left hj
  · next hj =>
    have hlast : win.length + 1 - ws + i = win.length := by omega
    rw [hlast, List.getElem?_concat_length]

/-- Appending a byte to the ring is WIN_EXTEND by that byte (R37, R64). -/
theorem Ring.holds.append {ws : Nat} {r : Ring} {win : List Byte} (h : Ring.ok ws r) (hw : Ring.holds ws r win)
    (b : Byte) : Ring.holds ws (ringAppend ws r b) (windowExtend ws win [b]) := by
  have hlen := windowExtend_length ws win [b]
  obtain ⟨hwlen, hread⟩ := hw
  rcases Nat.eq_zero_or_pos ws with rfl | hws
  · have hnil : windowExtend 0 win [b] = [] := List.length_eq_zero_iff.mp (by simpa using hlen)
    rw [hnil, ringAppend_zero]
    exact ⟨Nat.le_zero.mp h.1, fun i hi => absurd hi (Nat.not_lt_zero i)⟩
  · refine ⟨by rw [ringAppend_of_pos hws, hlen, hwlen]; rfl, fun i hi => ?_⟩
    have hi : i < min (win.length + 1) ws := hlen ▸ hi
    rw [ringRead_ringAppend hws h b (hwlen ▸ hi), windowExtend_singleton_getElem? ws win b hi, hwlen]
    split
    · next hj => exact hread _ hj
    · rfl

/-- Settles O59: an empty ring reads nothing, and appending is WIN_EXTEND by one byte. -/
theorem ringRefinesWindow : Obligations.RingRefinesWindow :=
  ⟨fun ws _ _ hwf hwp => ⟨⟨Nat.zero_le ws, hwp, hwf⟩, rfl, fun i hi => absurd hi (Nat.not_lt_zero i)⟩,
    fun _ _ _ b h hw => ⟨h.append b, hw.append h b⟩⟩

end Sys2Proof.Machine
end

section
/-! Operation words (R46 to R49): the decoder and the encoder undo each other, and the words a host may write to CMD are
those of the opcode table's five host rows. Settles O1, O2, O3 and O4. -/

namespace Sys2Proof

/-! Decoding an encoded word -/

/-- A word of format S holds each field at its place (R47). -/
theorem encode_cfgSet_fields (psel : BitVec 4) (val : BitVec 16) :
    let w := encode (.cfgSet psel val)
    opcodeField w = 0x03 ∧ selField w = psel ∧ w.extractLsb' 12 4 = 0 ∧ valField w = val :=
  have upper {m n k l : Nat} {x : BitVec m} {y : BitVec n} (h : n ≤ k) :
      (x ++ y).extractLsb' k l = x.extractLsb' (k - n) l := BitVec.extractLsb'_append_eq_of_le h
  ⟨BitVec.extractLsb'_append_eq_right,
    (upper (by decide)).trans BitVec.extractLsb'_append_eq_right,
    (upper (by decide)).trans ((upper (by decide)).trans BitVec.extractLsb'_append_eq_right),
    (upper (by decide)).trans ((upper (by decide)).trans BitVec.extractLsb'_append_eq_left)⟩

/-- Settles O1: the word of CFG_SET is read field by field; every other row has at most 16 words. -/
theorem decodeOfEncode : Obligations.DecodeOfEncode := by
  intro i
  cases i
  case cfgLevel level => revert level; decide
  case cfgSet psel val =>
    obtain ⟨hop, hsel, hz, hval⟩ := encode_cfgSet_fields psel val
    simp [decode, formatS, hop, hsel, hz, hval]
  case chunk fin => cases fin <;> rfl
  all_goals rfl

/-! The word of its fields -/

theorem plainWord_of_fields {w : Word} {opcode : BitVec 8} (hop : opcodeField w = opcode)
    (hz : w.extractLsb' 8 24 = 0) : plainWord opcode = w := by
  have hw : (w.extractLsb' 8 24 ++ opcodeField w : BitVec 32) = w := by
    rw [opcodeField, BitVec.extractLsb'_append_extractLsb'_eq_extractLsb' (by rfl)]
    exact BitVec.extractLsb'_eq_self
  rwa [hz, hop] at hw

theorem encode_cfgLevel_of_fields {w : Word} (hop : opcodeField w = 0x02) (hz : w.extractLsb' 12 20 = 0) :
    encode (.cfgLevel (selField w)) = w := by
  have hw : (w.extractLsb' 12 20 ++ selField w ++ opcodeField w : BitVec 32) = w := by
    rw [selField, opcodeField, BitVec.extractLsb'_append_extractLsb'_eq_extractLsb' (by rfl),
      BitVec.extractLsb'_append_extractLsb'_eq_extractLsb' (by rfl)]
    exact BitVec.extractLsb'_eq_self
  rwa [hz, hop] at hw

theorem encode_cfgSet_of_fields {w : Word} (hop : opcodeField w = 0x03) (hz : w.extractLsb' 12 4 = 0) :
    encode (.cfgSet (selField w) (valField w)) = w := by
  have hw : (valField w ++ w.extractLsb' 12 4 ++ selField w ++ opcodeField w : BitVec 32) = w := by
    rw [valField, selField, opcodeField, BitVec.extractLsb'_append_extractLsb'_eq_extractLsb' (by rfl),
      BitVec.extractLsb'_append_extractLsb'_eq_extractLsb' (by rfl),
      BitVec.extractLsb'_append_extractLsb'_eq_extractLsb' (by rfl)]
    exact BitVec.extractLsb'_eq_self
  rwa [hz, hop] at hw

theorem ofBool_finField (w : Word) : BitVec.ofBool (finField w) = w.extractLsb' 8 1 := by
  ext k hk
  obtain rfl : k = 0 := by omega
  simp [finField]

theorem encode_chunk_of_fields {w : Word} (hop : opcodeField w = 0x04) (hz : w.extractLsb' 9 23 = 0) :
    encode (.chunk (finField w)) = w := by
  have hw : (w.extractLsb' 9 23 ++ BitVec.ofBool (finField w) ++ opcodeField w : BitVec 32) = w := by
    rw [ofBool_finField, opcodeField, BitVec.extractLsb'_append_extractLsb'_eq_extractLsb' (by rfl),
      BitVec.extractLsb'_append_extractLsb'_eq_extractLsb' (by rfl)]
    exact BitVec.extractLsb'_eq_self
  rwa [hz, hop] at hw

/-! Encoding a decoded word -/

/-- A format's check answers the format's instruction, and only where the bits it marks `0` are 0. -/
theorem of_ite_eq_ok {p : Prop} [Decidable p] {i j : Instr} {e : DecodeError}
    (h : (if p then Except.ok i else Except.error e) = Except.ok j) : p ∧ i = j := by
  split at h
  · next hp => exact ⟨hp, Except.ok.inj h⟩
  · cases h

theorem encode_of_plainFormat {w : Word} {i j : Instr} {opcode : Nat}
    (hi : encode i = plainWord (BitVec.ofNat 8 opcode)) (hop : (opcodeField w).toNat = opcode)
    (h : plainFormat w i = .ok j) : encode j = w := by
  obtain ⟨hz, rfl⟩ := of_ite_eq_ok h
  exact hi.trans (plainWord_of_fields (BitVec.eq_of_toNat_eq (by simp [← hop])) hz)

/-- Settles O2: along the rows of the opcode table, a word is put together again from the fields its format gives it. -/
theorem encodeOfDecode : Obligations.EncodeOfDecode := by
  intro w i h
  have hop {n : BitVec 8} (h : (opcodeField w).toNat = n.toNat) : opcodeField w = n := BitVec.eq_of_toNat_eq h
  unfold decode at h
  split at h -- the third to fifth rows are CFG_LEVEL, CFG_SET and CHUNK, the last one is no row
  case h_3 hn =>
    obtain ⟨hz, rfl⟩ := of_ite_eq_ok h
    exact encode_cfgLevel_of_fields (hop hn) hz
  case h_4 hn =>
    obtain ⟨hz, rfl⟩ := of_ite_eq_ok h
    exact encode_cfgSet_of_fields (hop hn) hz
  case h_5 hn =>
    obtain ⟨hz, rfl⟩ := of_ite_eq_ok h
    exact encode_chunk_of_fields (hop hn) hz
  case h_22 => cases h
  all_goals
    next hn => exact encode_of_plainFormat rfl hn h

theorem decode_eq_ok_iff {w : Word} {i : Instr} : decode w = .ok i ↔ encode i = w :=
  ⟨encodeOfDecode w i, fun h => h ▸ decodeOfEncode i⟩

/-- Settles O3: each of these words is the encoding of its instruction. -/
theorem sampleWordsDecode : Obligations.SampleWordsDecode := by
  unfold Obligations.SampleWordsDecode
  simp only [decode_eq_ok_iff]
  decide

/-! Host words (R46, R49) -/

theorem hostDecode_eq_ok_iff {w : Word} {i : Instr} : hostDecode w = .ok i ↔ i.isUnitOp = false ∧ encode i = w := by
  constructor
  · intro h
    obtain ⟨hd, hu⟩ := Machine.hostDecode_isHost h
    exact ⟨hu, decode_eq_ok_iff.mp hd⟩
  · rintro ⟨hu, hw⟩
    simp [hostDecode, decode_eq_ok_iff.mpr hw, hu]

theorem hostDecode_error_iff {w : Word} :
    (∃ e, hostDecode w = .error e) ↔ ∀ i : Instr, i.isUnitOp = false → encode i ≠ w := by
  have hok : (∃ e, hostDecode w = .error e) ↔ ∀ i, hostDecode w ≠ .ok i := by cases hostDecode w <;> simp
  simp only [hok, ne_eq, hostDecode_eq_ok_iff, not_and]

/-- A word that matches a row of the opcode table has the row's value in every field the row's mask covers. -/
theorem extractLsb'_of_masked {w mask row : Word} {start len : Nat} (h : w &&& mask = row)
    (hm : mask.extractLsb' start len = BitVec.allOnes len) : w.extractLsb' start len = row.extractLsb' start len := by
  rw [← h, BitVec.extractLsb'_and, hm, BitVec.and_allOnes]

/-- Settles O4: a word matches a host row exactly when it is the encoding of a host instruction, namely of the one with
the word's own fields. -/
theorem hostWordIllegal : Obligations.HostWordIllegal := by
  intro w
  rw [hostDecode_error_iff]
  constructor
  · intro hall
    refine ⟨fun h => hall .nop rfl h.symm, fun h => hall .reset rfl h.symm,
      fun h => hall _ rfl (encode_cfgLevel_of_fields ?_ ?_), fun h => hall _ rfl (encode_cfgSet_of_fields ?_ ?_),
      fun h => hall _ rfl (encode_chunk_of_fields ?_ ?_)⟩
    all_goals exact extractLsb'_of_masked h (by decide)
  · rintro ⟨hnop, hreset, hlevel, hset, hchunk⟩ i hu rfl
    cases i <;> simp only [Instr.isUnitOp, Bool.true_eq_false] at hu
    case nop => exact hnop rfl
    case reset => exact hreset rfl
    case cfgLevel level => exact hlevel (Laws.WordMatchesRow.cfgLevel level)
    case cfgSet psel val => exact hset (Laws.WordMatchesRow.cfgSet psel val)
    case chunk fin => exact hchunk (Laws.WordMatchesRow.chunk fin)

end Sys2Proof
end

section
/-! The token word (R50): its value, and that a word and its token determine each other. Settles O5. -/

namespace Sys2Proof.Machine

/-! The word of a token -/

theorem toNat_append_eq_add {m n : Nat} (x : BitVec m) (y : BitVec n) :
    (x ++ y).toNat = x.toNat * 2 ^ n + y.toNat := by
  rw [BitVec.toNat_append, ← Nat.shiftLeft_add_eq_or_of_lt y.isLt, Nat.shiftLeft_eq]

theorem tokenWord_lit_toNat (b : Byte) : (tokenWord (.lit b)).toNat = b.toNat := by
  simp only [tokenWord, toNat_append_eq_add, BitVec.toNat_ofNat]
  omega

theorem tokenWord_backref_toNat (l3 : BitVec 8) (d1 : BitVec 15) :
    (tokenWord (.backref l3 d1)).toNat = 2 ^ 31 + d1.toNat * 2 ^ 16 + (l3.toNat + 3) := by
  have := l3.isLt
  simp only [tokenWord, toNat_append_eq_add, BitVec.toNat_ofNat, lengthOf]
  omega

theorem tokenWord_matchToken_toNat {length distance : Nat} (h3 : 3 ≤ length) (h258 : length ≤ 258)
    (h1 : 1 ≤ distance) (hmax : distance ≤ 32768) :
    (tokenWord (matchToken length distance)).toNat = 2 ^ 31 + (distance - 1) * 2 ^ 16 + length := by
  rw [matchToken, tokenWord_backref_toNat, BitVec.toNat_ofNat, BitVec.toNat_ofNat]
  omega

/-! The token of a word -/

theorem extractLsb'_eq_ofNat {n : Nat} (x : BitVec n) (start len : Nat) :
    x.extractLsb' start len = BitVec.ofNat len (x.toNat / 2 ^ start) := by
  rw [BitVec.extractLsb', Nat.shiftRight_eq_div_pow]

theorem ofNat_eq_zero_iff {n v : Nat} : BitVec.ofNat n v = 0 ↔ v % 2 ^ n = 0 := by
  rw [← BitVec.toNat_inj, BitVec.toNat_ofNat]
  rfl

theorem getLsbD_eq_decide {n : Nat} (x : BitVec n) (k : Nat) : x.getLsbD k = decide (x.toNat / 2 ^ k % 2 = 1) :=
  Nat.testBit_eq_decide_div_mod_eq

/-- `wordToken` in terms of the word's value. -/
theorem wordToken_eq (w : Word) :
    wordToken w =
      if w.toNat / 2 ^ 31 % 2 = 1 then
        if w.toNat / 2 ^ 9 % 2 ^ 7 = 0 ∧ 3 ≤ w.toNat % 2 ^ 9 ∧ w.toNat % 2 ^ 9 ≤ 258 then
          some (.backref (BitVec.ofNat 8 (w.toNat % 2 ^ 9 - 3)) (BitVec.ofNat 15 (w.toNat / 2 ^ 16)))
        else none
      else if w.toNat / 2 ^ 8 % 2 ^ 23 = 0 then some (.lit (BitVec.ofNat 8 w.toNat)) else none := by
  simp only [wordToken, getLsbD_eq_decide, extractLsb'_eq_ofNat, ofNat_eq_zero_iff, BitVec.toNat_ofNat, Nat.pow_zero,
    Nat.div_one, decide_eq_true_eq]

theorem wordToken_tokenWord (t : Token) : wordToken (tokenWord t) = some t := by
  rw [wordToken_eq]
  cases t with
  | lit b =>
    have := b.isLt
    rw [tokenWord_lit_toNat, if_neg (by omega), if_pos (by omega), BitVec.ofNat_toNat, BitVec.setWidth_eq]
  | backref l3 d1 =>
    have := l3.isLt
    have := d1.isLt
    rw [tokenWord_backref_toNat, if_pos (by omega), if_pos (by omega)]
    congr 2 <;> apply BitVec.eq_of_toNat_eq <;> rw [BitVec.toNat_ofNat] <;> omega

theorem tokenWord_of_wordToken {w : Word} {t : Token} (h : wordToken w = some t) : tokenWord t = w := by
  have := w.isLt
  apply BitVec.eq_of_toNat_eq
  rw [wordToken_eq] at h
  split at h
  · split at h
    · cases h
      rw [tokenWord_backref_toNat, BitVec.toNat_ofNat, BitVec.toNat_ofNat]
      omega
    · cases h
  · split at h
    · cases h
      rw [tokenWord_lit_toNat, BitVec.toNat_ofNat]
      omega
    · cases h

/-- Settles O5, by the value of a token's word. -/
theorem tokenWordRoundTrip : Obligations.TokenWordRoundTrip := by
  refine ⟨fun b => BitVec.eq_of_toNat_eq ?_, tokenWord_backref_toNat, fun _ _ => tokenWord_matchToken_toNat,
    wordToken_tokenWord, fun _ _ => tokenWord_of_wordToken⟩
  have := b.isLt
  rw [tokenWord_lit_toNat, BitVec.toNat_setWidth]
  omega

end Sys2Proof.Machine
end

section
/-! What a host command is refused for and a word on the unit-operation bus runs as (R46 to R49, R112). Settles O7 and
O21. -/

namespace Sys2Proof.Machine

/-- Settles O7: the unit-operation bus comes first in a turn. -/
theorem stepRunsUnitWord : Obligations.StepRunsUnitWord := by
  intro s w i hw hi
  simp only [step, turn, hw, runUnitWord, hi]

/-- CFG_LEVEL has a preset for each legal level and no other (R48, R100). -/
theorem preset_eq_none_iff (level : BitVec 4) : preset level = none ↔ wellFormed (.cfgLevel level) = false := by
  revert level
  decide

/-- A check that refuses exactly what is out of range leaves no target exactly there. -/
theorem checked_eq_none_iff {p : Prop} [Decidable p] {inRange : Bool} {cfg : Cfg} (h : p ↔ inRange = false) :
    (if p then none else some cfg) = none ↔ inRange = false := by
  by_cases hp : p
  · exact iff_of_true (if_pos hp) (h.mp hp)
  · rw [if_neg hp]
    exact iff_of_false (Option.some_ne_none _) (mt h.mpr hp)

theorem lt_iff_decide_le_eq_false {m n : Nat} : n < m ↔ decide (m ≤ n) = false := by
  rw [decide_eq_false_iff_not, Nat.not_le]

/-- CFG_SET has a target for each legal value of each parameter and no other (R48, R101). -/
theorem cfgSetTarget_eq_none_iff (cfg : Cfg) (psel : BitVec 4) (val : BitVec 16) :
    cfgSetTarget cfg psel val = none ↔ wellFormed (.cfgSet psel val) = false := by
  have hmm : val.toNat < 3 ∨ val.toNat > 258 ↔ (decide (3 ≤ val.toNat) && decide (val.toNat ≤ 258)) = false := by
    rw [Bool.and_eq_false_iff, ← lt_iff_decide_le_eq_false, ← lt_iff_decide_le_eq_false]
  simp only [cfgSetTarget, wellFormed, valInRange]
  match psel.toNat with
  | 0 => exact checked_eq_none_iff lt_iff_decide_le_eq_false
  | 1 => exact checked_eq_none_iff hmm
  | 2 => exact iff_of_false (Option.some_ne_none _) Bool.true_eq_false.mp
  | 3 => exact checked_eq_none_iff lt_iff_decide_le_eq_false
  | _ + 4 => exact iff_of_true rfl rfl

theorem runChunk_code (fin : Bool) (input : List Byte) (cap : Nat) (s : State) :
    (runChunk fin input cap s).code ≠ .config := by
  rcases runChunk_cases fin input cap s with ⟨-, h⟩ | ⟨r, -, h⟩ <;> simp [h]

/-- A host command ends with ERR_CONFIG exactly if it is ill-formed, unless it waits under an older one. -/
theorem exec_hostCommand_code_eq_config_iff {i : Instr} (hu : i.isUnitOp = false) {s t : State}
    (h : exec i s = .next t) (hcode : s.code ≠ .config) : t.code = .config ↔ wellFormed i = false := by
  cases i <;> simp only [Instr.isUnitOp, Bool.true_eq_false] at hu <;> simp only [exec] at h
  case nop => cases h; simp [wellFormed]
  case reset => cases h; simp [wellFormed]
  case cfgLevel level =>
    rw [← preset_eq_none_iff]
    unfold execCfgLevel at h
    split at h <;> cases h <;> simp [*]
  case cfgSet psel val =>
    rw [← cfgSetTarget_eq_none_iff s.cfg]
    unfold execCfgSet at h
    split at h <;> cases h <;> simp [*]
  case chunk fin =>
    have ht : t.code ≠ .config := by
      rcases execChunk_cases fin s with ⟨-, hr⟩ | ⟨-, hr⟩ <;> cases hr.symm.trans h
      · exact runChunk_code _ _ _ _
      · exact hcode
    simp [wellFormed, ht]

/-- Settles O21: a host command always has a next state, and this is its code. -/
theorem refusedIffIllFormed : Obligations.RefusedIffIllFormed := by
  intro s i hu hcode
  obtain ⟨t, ht⟩ := exec_hostCommand_next hu s
  rw [← exec_hostCommand_code_eq_config_iff hu ht hcode]
  simp [ht]

end Sys2Proof.Machine
end

section
/-! The counters and the stream bits of HC_COUNT, HC_EMIT_HDR and HC_ENCODE, and the fixed table (R52 to R57, R79, R80,
R83, R87, R90). Settles O41, O47, O49 and O51. -/

namespace Sys2Proof.Machine

/-! HC_COUNT -/

theorem hcCount_freqD_getD (ses : Session) (tok : Token) {k : Nat} (hk : k < 30) :
    (hcCount ses tok).freqD.getD k 0 = ses.freqD.getD k 0 + if some k = symD tok then 1 else 0 := by
  cases hd : symD tok with
  | none => simp [hcCount, hd]
  | some j => simpa only [hcCount, hd, Option.some.injEq] using bump_getD ses.freqD j hk

/-- Settles O41: both counter arrays are bumped at R79's symbols, which number the rows of the value's classes. -/
theorem hcCountResult : Obligations.HcCountResult := by
  refine ⟨fun s => ⟨(hcCount s.ses s.unitArgs.tok).freqL, (hcCount s.ses s.unitArgs.tok).freqD, rfl,
    fun k hk => bump_getD _ _ hk, fun k hk => hcCount_freqD_getD _ _ hk⟩, fun b => ⟨rfl, rfl⟩,
    fun length distance h3 h258 h1 hmax => ?_⟩
  obtain ⟨hr, hrc⟩ := lengthRow_mem_and_covers h3 h258
  obtain ⟨hq, hqc⟩ := distanceRow_mem_and_covers h1 hmax
  refine ⟨_, hr, _, hq, hrc, hqc, ?_, ?_⟩
  · rw [matchToken, symL, lengthOf_ofNat h3 h258]
    rfl
  · rw [matchToken, symD, distanceOf_ofNat h1 hmax, distanceRow, classRow, Nat.zero_add]

/-! The header -/

theorem intBits_length (n v : Nat) : (intBits n v).length = n := by simp [intBits]

theorem flatMap_lengthBits_length {n : Nat} (table : Vector CodeEntry n) :
    (table.toList.flatMap fun e => intBits 4 e.len.toNat).length = n * 4 := by
  simp [List.length_flatMap, intBits_length]

theorem headerBits_length (codeL : Vector CodeEntry 286) (codeD : Vector CodeEntry 30) (final : Bool)
    (btype : BitVec 2) : (headerBits codeL codeD final btype).length = if btype = 2 then 1267 else 3 := by
  simp only [headerBits_eq, tableBits, List.length_append, List.length_singleton, intBits_length]
  split
  · rw [List.length_append, flatMap_lengthBits_length, flatMap_lengthBits_length]
  · rfl

/-- Settles O49: the emitter appends the header's bits, 3 and, with a table, 4 for each of the 316 lengths. -/
theorem emitHdr_writes_headerBits : Obligations.HeaderBits := fun codeL codeD final btype _ h =>
  ⟨(appends_emitHdr codeL codeD final btype h).1, (appends_emitHdr codeL codeD final btype h).2,
    headerBits_length codeL codeD final btype⟩

/-! The block -/

theorem hcSelect_tokbuf (cfg : Cfg) (ses : Session) : (hcSelect cfg ses).1.tokbuf = ses.tokbuf := by
  rcases hcSelect_cases cfg ses with ⟨-, h⟩ | ⟨-, h⟩ <;> rw [h]

/-- HC_ENCODE writes the bits of one block, with the table HC_SELECT installs (R55, R90). -/
theorem appends_hcEncode (cfg : Cfg) (final : Bool) {ses : Session} (h : ses.bp.ok) :
    let sel := hcSelect cfg (countEob ses)
    Appends ses.bp (hcEncode cfg final ses).bp (blockBits sel.1.codeL sel.1.codeD final sel.2 ses.tokbuf) := by
  have hbp : (hcSelect cfg (countEob ses)).1.bp = ses.bp := (hcSelect_frame cfg (countEob ses)).1
  have htok : (hcSelect cfg (countEob ses)).1.tokbuf = ses.tokbuf := hcSelect_tokbuf cfg (countEob ses)
  simp only [hcEncode, hbp, htok]
  exact appends_emitBlock _ _ final _ _ h

/-- Settles O51: one block is appended, with the table of the session in which EOB is counted. -/
theorem encodeWritesBlock : Obligations.EncodeWritesBlock := by
  intro cfg final ses h
  obtain ⟨hbits, hok⟩ := appends_hcEncode cfg final h
  simp only [blockBits, ← List.append_assoc] at hbits
  exact ⟨rfl, rfl, hbits, hok⟩

/-! The fixed table -/

/-- HC_ASSIGN gives R54's codes, for the symbols a stream never holds too. -/
theorem hcAssign_fixLenL : ∀ s < 288, (hcAssign ((List.range 288).map fixLenL)).getD s 0 = fixCodeL s := by
  decide +kernel

theorem entry_fixedCodeL {s : Nat} (hs : s < 286) :
    (entry fixedCodeL s).code.toNat = fixCodeL s ∧ (entry fixedCodeL s).len.toNat = fixLenL s := by
  have hcode : fixCodeL s < 2 ^ 15 := by unfold fixCodeL; split_ifs <;> omega
  have hlen : fixLenL s < 2 ^ 4 := by unfold fixLenL; split_ifs <;> decide
  rw [fixedCodeL, entry_tabulate _ hs]
  exact ⟨Nat.mod_eq_of_lt hcode, Nat.mod_eq_of_lt hlen⟩

theorem entry_fixedCodeD {s : Nat} (hs : s < 30) :
    (entry fixedCodeD s).code.toNat = s ∧ (entry fixedCodeD s).len.toNat = 5 := by
  rw [fixedCodeD, entry_tabulate _ hs]
  exact ⟨Nat.mod_eq_of_lt (by omega), rfl⟩

/-- Settles O47: the rows are `fixCodeL` and `fixLenL`. -/
theorem fixedTableIsCanonical : Obligations.FixedTableIsCanonical := by
  unfold Obligations.FixedTableIsCanonical
  intro rowL
  have hrow : ∀ s, rowL s = (fixCodeL s, fixLenL s) := by
    intro s
    simp only [rowL, fixCodeL, fixLenL]
    split_ifs <;> rfl
  simp only [hrow, true_and]
  exact ⟨hcAssign_fixLenL, by decide +kernel, fun s hs => Prod.mk_inj.mpr (entry_fixedCodeL hs),
    fun s hs => Prod.mk_inj.mpr (entry_fixedCodeD hs)⟩

end Sys2Proof.Machine
end

section
/-! Unit WIN: WIN_EXTEND and WIN_SLICE as instructions (R64, R65). Settles O27 and O29. -/

namespace Sys2Proof.Machine

theorem exec_winExtend (s : State) : exec .winExtend s =
    .next (unitDone { s.ses with win := windowExtend s.cfg.ws s.ses.win s.unitArgs.bytes } .none s) := rfl

theorem exec_winSlice (s : State) : exec .winSlice s = .next (unitDone s.ses (.slice s.ses.win) s) := rfl

/-- A sound window holds at most `window_size` bytes (R21), so at capacity 0 it is empty. -/
theorem win_eq_nil_of_sound {s : State} (h : s.sound) (hws : s.cfg.windowSize = 0) : s.ses.win = [] := by
  obtain ⟨-, hwin, -⟩ := h
  have hcap : s.cfg.ws = 0 := by simp [Cfg.ws, hws]
  exact List.length_eq_zero_iff.mp (Nat.le_zero.mp (hcap ▸ hwin))

/-- Settles O27: the next window is R64's `windowExtend`, at the capacity of the configuration. -/
theorem winExtendResult : Obligations.WinExtendResult := by
  intro s x
  exact exec_winExtend s

/-- Settles O29: the slice is WIN, and WIN is empty after a reset and in a sound state of capacity 0. -/
theorem winSliceResult : Obligations.WinSliceResult := by
  refine ⟨exec_winSlice, exec_winSlice State.reset, fun s hsound hws => ?_⟩
  have hnil : s.ses.win = [] := win_eq_nil_of_sound hsound hws
  rw [exec_winSlice, hnil]
  rfl

end Sys2Proof.Machine
end

section
/-! The match finder's search in buffer positions (R66 to R69): the hash, the candidate list, the candidate length, and
that the search keeps the nearest of the longest candidates. Settles O30, O31, O32 and O33. -/

namespace Sys2Proof.Machine

/-! The hash -/

theorem hashAt_eq_none {suffix : List Byte} (h : suffix.length ≤ 2) : hashAt suffix = none := by
  match suffix, h with
  | [], _ => rfl
  | [_], _ => rfl
  | [_, _], _ => rfl

theorem drop_eq_cons_of_getElem? {buf : List Byte} {i : Nat} {b : Byte} (h : buf[i]? = some b) :
    buf.drop i = b :: buf.drop (i + 1) := by
  obtain ⟨hi, rfl⟩ := List.getElem?_eq_some_iff.mp h
  exact List.drop_eq_getElem_cons hi

/-- Settles O30: the suffix at a position begins with its three bytes. -/
theorem positionHash : Obligations.PositionHash := by
  refine ⟨fun buf i b0 b1 b2 h0 h1 h2 => ?_, fun buf i h => hashAt_eq_none ?_, hash3_lt, by decide, by decide⟩
  · rw [drop_eq_cons_of_getElem? h0, drop_eq_cons_of_getElem? h1, drop_eq_cons_of_getElem? h2, hashAt_cons3]
    rfl
  · rw [List.length_drop]
    omega

/-! The candidate list -/

/-- The positions of the last `m` bytes before `p`, nearest first, are those at the distances `1..m`. -/
theorem reverse_range'_sub {p m : Nat} (hm : m ≤ p) :
    (List.range' (p - m) m).reverse = (List.range' 1 m).map fun d => p - d := by
  rw [List.reverse_range', List.range'_eq_map_range, List.map_map]
  refine List.map_congr_left fun i _ => ?_
  simp only [Function.comp_apply]
  omega

/-- Settles O31: the distances `1..maxdist` are the positions before the cursor in decreasing order. -/
theorem candidateList : Obligations.CandidateList := by
  intro ws mc p buf hp
  rw [candidates_eq_range' ws mc (by omega), reverse_range'_sub (Nat.min_le_left p ws), List.filter_map,
    ← List.map_take, List.map_map]
  refine List.map_congr_left fun d hd => ?_
  obtain ⟨-, hlt⟩ := List.mem_range'_1.mp (List.mem_filter.mp (List.mem_of_mem_take hd)).1
  have hdist : p - (p - d) = d := by omega
  simp only [Function.comp_apply, hdist]

/-! The candidate length -/

theorem getElem?_eq_of_lt_matchLen {cap : Nat} {a b : List Byte} {k : Nat} (hk : k < matchLen cap a b) :
    a[k]? = b[k]? := by
  induction cap generalizing a b k with
  | zero => simp [matchLen] at hk
  | succ cap ih =>
    match a, b with
    | [], _ => simp [matchLen] at hk
    | _ :: _, [] => simp [matchLen] at hk
    | x :: xs, y :: ys =>
      simp only [matchLen] at hk
      split at hk
      · next he =>
        cases k with
        | zero => simp [he]
        | succ k => simpa using ih (Nat.lt_of_succ_lt_succ hk)
      · omega

/-- No longer agreement within the cap and the lookahead is missed (R68). -/
theorem le_matchLen {cap m : Nat} {a b : List Byte} (hcap : m ≤ cap) (hb : m ≤ b.length)
    (h : ∀ k < m, a[k]? = b[k]?) : m ≤ matchLen cap a b := by
  induction m generalizing cap a b with
  | zero => exact Nat.zero_le _
  | succ m ih =>
    obtain ⟨cap, rfl⟩ : ∃ c, cap = c + 1 := ⟨cap - 1, by omega⟩
    have h0 := h 0 (Nat.succ_pos m)
    match a, b, hb with
    | [], _ :: _, _ => simp at h0
    | x :: xs, y :: ys, hb =>
      have he : x = y := by simpa using h0
      simp only [matchLen, if_pos he]
      exact Nat.succ_le_succ (ih (by omega) (by simpa using hb) fun k hk => by simpa using h (k + 1) (by omega))

/-- A comparison whose cap both sequences reach reads nothing behind them. -/
theorem matchLen_append {cap : Nat} {a b : List Byte} (ha : cap ≤ a.length) (hb : cap ≤ b.length) (x y : List Byte) :
    matchLen cap (a ++ x) (b ++ y) = matchLen cap a b := by
  induction cap generalizing a b with
  | zero => rfl
  | succ cap ih =>
    match a, b, ha, hb with
    | _ :: _, _ :: _, ha, hb =>
      simp only [List.cons_append, matchLen, ih (Nat.le_of_succ_le_succ ha) (Nat.le_of_succ_le_succ hb)]

/-- Settles O32: `matchLen` is the greatest agreement within its cap, which ends at the buffer's end. -/
theorem candidateLength : Obligations.CandidateLength := by
  intro buf mm q p hq hp cap n
  have hahead : cap ≤ (buf.drop p).length := by
    rw [List.length_drop]
    exact Nat.min_le_right _ _
  have hbehind : cap ≤ (buf.drop q).length := by
    rw [List.length_drop] at hahead ⊢
    omega
  refine ⟨matchLen_le_cap _ _ _, fun k hk => ?_, fun m hm h => ?_, fun more => ?_, fun hmm h3 => ?_⟩
  · simpa using getElem?_eq_of_lt_matchLen hk
  · exact le_matchLen hm (Nat.le_trans hm hahead) fun k hk => by simpa using h k hk
  · rw [List.drop_append_of_le_length hp, List.drop_append_of_le_length (by omega)]
    exact matchLen_append hbehind hahead more more
  · show 3 ≤ min mm (buf.length - p)
    omega

/-! The search -/

theorem candidates_pairwise (ws mc : Nat) (back ahead : List Byte) :
    (candidates ws mc back ahead).Pairwise fun c c' => c.1 < c'.1 := by
  refine List.Pairwise.take (List.Pairwise.filter _ (List.pairwise_map.mp ?_))
  rw [earlier_fst]
  exact List.pairwise_lt_range'

/-- What the probes of candidates in order of distance keep: nothing shorter than what was kept before, no candidate
longer, and of equally long ones the nearest (R69). -/
theorem foldl_probe_spec (cap : Nat) (ahead : List Byte) {cs : List (Nat × List Byte)} {best : Nat × Nat}
    (hnear : ∀ c ∈ cs, best.2 ≤ c.1) (hcs : cs.Pairwise fun c c' => c.1 < c'.1) :
    let r := cs.foldl (probe cap ahead) best
    (r = best ∨ best.1 < r.1) ∧
      ∀ c ∈ cs, matchLen cap c.2 ahead ≤ r.1 ∧ (matchLen cap c.2 ahead = r.1 → r.2 ≤ c.1) := by
  induction cs generalizing best with
  | nil => simp
  | cons c cs ih =>
    obtain ⟨hlt, hcs⟩ := List.pairwise_cons.mp hcs
    obtain ⟨hc, hnear⟩ := List.forall_mem_cons.mp hnear
    rw [List.foldl_cons]
    rcases probe_cases cap ahead best c with ⟨hle, hp⟩ | ⟨hgt, hp⟩ <;> rw [hp]
    · obtain ⟨hr, hall⟩ := ih hnear hcs
      refine ⟨hr, List.forall_mem_cons.mpr ⟨?_, hall⟩⟩
      rcases hr with hr | hr
      · exact ⟨by rw [hr]; exact hle, fun _ => by rw [hr]; exact hc⟩
      · exact ⟨by omega, fun he => by omega⟩
    · obtain ⟨hr, hall⟩ := ih (best := (matchLen cap c.2 ahead, c.1)) (fun c' hc' => Nat.le_of_lt (hlt c' hc')) hcs
      refine ⟨.inr ?_, List.forall_mem_cons.mpr ⟨?_, hall⟩⟩
      · rcases hr with hr | hr
        · rw [hr]
          exact hgt
        · exact Nat.lt_trans hgt hr
      · rcases hr with hr | hr
        · exact ⟨by rw [hr], fun _ => by rw [hr]⟩
        · exact ⟨Nat.le_of_lt hr, fun he => by simp only at hr; omega⟩

/-- The best of a search is a longest candidate, the nearest among those (R69). -/
theorem searchBest_spec (cfg : Cfg) (back ahead : List Byte) :
    ∀ c ∈ candidates cfg.ws cfg.mc back ahead,
      matchLen (min cfg.mm ahead.length) c.2 ahead ≤ (searchBest cfg back ahead).1 ∧
        (matchLen (min cfg.mm ahead.length) c.2 ahead = (searchBest cfg back ahead).1 →
          (searchBest cfg back ahead).2 ≤ c.1) :=
  (foldl_probe_spec (best := (0, 0)) _ _ (fun c _ => Nat.zero_le c.1) (candidates_pairwise _ _ _ _)).2

theorem candidates_eq_nil {ws mc : Nat} (h : ws = 0 ∨ mc = 0) (back ahead : List Byte) :
    candidates ws mc back ahead = [] := by
  rcases h with rfl | rfl
  · simp [candidates, earlier]
  · simp [candidates]

/-- MF_SEARCH returns NONE only if no candidate reaches length 3 (R69). -/
theorem matchLen_lt_of_mfSearch_eq_none {cfg : Cfg} {buf : List Byte} {p e : Nat} (h : mfSearch cfg buf p e = none) :
    ∀ c ∈ candidates cfg.ws cfg.mc (buf.take p).reverse ((buf.take e).drop p),
      matchLen (min cfg.mm ((buf.take e).drop p).length) c.2 ((buf.take e).drop p) < 3 := by
  intro c hc
  unfold mfSearch at h
  split at h
  · next hn =>
    simp only [searchNeedsNoRead, Bool.or_eq_true, decide_eq_true_eq, beq_iff_eq, or_assoc] at hn
    rcases hn with hshort | hoff
    · have hcap := matchLen_le_cap (min cfg.mm ((buf.take e).drop p).length) c.2 ((buf.take e).drop p)
      have hlen : ((buf.take e).drop p).length ≤ e - p := by
        rw [List.length_drop, List.length_take]
        omega
      omega
    · rw [candidates_eq_nil hoff] at hc
      cases hc
  · have hle := (searchBest_spec cfg _ _ c hc).1
    simp only at h
    split at h
    · cases h
    · omega

/-- Settles O33: the best of the probes is the nearest of the longest candidates. -/
theorem searchFindsNearestLongest : Obligations.SearchFindsNearestLongest := by
  intro cfg buf p e he ahead cap cands
  have hcap : cap = min cfg.mm ahead.length := by simp [cap, ahead, Nat.min_eq_left he]
  rw [hcap]
  refine ⟨fun l d hs => ?_, matchLen_lt_of_mfSearch_eq_none⟩
  obtain ⟨-, -, hbest⟩ := mfSearch_eq_some hs
  obtain ⟨h3, c, hc, rfl, rfl⟩ := mfSearch_candidate hs
  obtain ⟨h1, hws, hback, -⟩ := mem_candidates hc
  have hspec := searchBest_spec cfg (buf.take p).reverse ahead
  rw [← hbest] at hspec
  refine ⟨h3, matchLen_le_cap _ _ _, h1, ?_, ⟨c, hc, rfl, rfl⟩, hspec⟩
  rw [List.length_reverse, List.length_take] at hback
  show c.1 ≤ min p cfg.ws
  omega

end Sys2Proof.Machine
end
section
/-! MF_STEP and MF_ENCODE (R70 to R73, R75, R76): the lazy decision and the bytes a token covers, the literal-only mode,
the loop's tokens and cursors, and the round trip. Settles O35, O37, O38, O39 and O40. -/

namespace Sys2Proof.Machine

/-! MF_STEP -/

theorem defers_eq_true_iff {cfg : Cfg} {buf : List Byte} {p e l : Nat} :
    defers cfg buf p e l = true ↔
      l < cfg.mm ∧ p + 1 < e ∧ ∃ l1 d1, mfSearch cfg buf (p + 1) e = some (l1, d1) ∧ l < l1 := by
  cases hs : mfSearch cfg buf (p + 1) e with
  | none => simp [defers, hs]
  | some m1 =>
    obtain ⟨l1, d1⟩ := m1
    simp [defers, hs, and_assoc]

theorem mfStep_of_none {cfg : Cfg} {buf : List Byte} {p e : Nat} (h : mfSearch cfg buf p e = none) :
    mfStep cfg buf p e = (.lit (buf.getD p 0), 1) := by
  simp only [mfStep, h]

theorem mfStep_of_some {cfg : Cfg} {buf : List Byte} {p e l d : Nat} (h : mfSearch cfg buf p e = some (l, d)) :
    mfStep cfg buf p e =
      if defers cfg buf p e l = true then (.lit (buf.getD p 0), 1) else (matchToken l d, l) := by
  simp only [mfStep, h]

/-- A match found lies within the configuration, the history and the lookahead (R69, R75, R76). -/
theorem mfSearch_bounds {cfg : Cfg} {buf : List Byte} {p e l d : Nat} (h : mfSearch cfg buf p e = some (l, d)) :
    3 ≤ l ∧ l ≤ cfg.mm ∧ l ≤ e - p ∧ 1 ≤ d ∧ d ≤ min p cfg.ws := by
  obtain ⟨h3, c, hc, hl, rfl⟩ := mfSearch_candidate h
  obtain ⟨h1, hws, hback, -⟩ := mem_candidates hc
  have hcap := matchLen_le_cap (min cfg.mm ((buf.take e).drop p).length) c.2 ((buf.take e).drop p)
  rw [← hl] at hcap
  simp only [List.length_reverse, List.length_take, List.length_drop] at hback hcap
  omega

theorem tokenCovers_matchToken {cfg : Cfg} (hcfg : cfg.legal) {l : Nat} (h3 : 3 ≤ l) (hl : l ≤ cfg.mm) (d : Nat) :
    tokenCovers (matchToken l d) = l := by
  obtain ⟨-, -, -, hmm, -⟩ := hcfg
  exact lengthOf_ofNat h3 (by omega)

/-- The advance of MF_STEP is the number of bytes its token covers (R70). -/
theorem mfStep_covers {cfg : Cfg} (hcfg : cfg.legal) (buf : List Byte) (p e : Nat) :
    tokenCovers (mfStep cfg buf p e).1 = (mfStep cfg buf p e).2 := by
  rcases mfStep_cases cfg buf p e with h | ⟨l, d, hs, h⟩ <;> rw [h]
  · rfl
  · obtain ⟨h3, hmm, -⟩ := mfSearch_bounds hs
    exact tokenCovers_matchToken hcfg h3 hmm d

theorem mfStep_advance_le (cfg : Cfg) (buf : List Byte) {p e : Nat} (hp : p < e) : (mfStep cfg buf p e).2 ≤ e - p := by
  rcases mfStep_cases cfg buf p e with h | ⟨l, d, hs, h⟩ <;> rw [h]
  · exact Nat.sub_pos_of_lt hp
  · obtain ⟨-, -, hle, -⟩ := mfSearch_bounds hs
    exact hle

/-- MF_STEP's match refers to a byte the window has at the cursor (R76). -/
theorem mfStep_distance_le {cfg : Cfg} (hcfg : cfg.legal) {buf : List Byte} {p e : Nat} {l3 : BitVec 8}
    {d1 : BitVec 15} (ht : (mfStep cfg buf p e).1 = .backref l3 d1) : distanceOf d1 ≤ min p cfg.ws := by
  obtain ⟨-, hws, -⟩ := hcfg
  rcases mfStep_cases cfg buf p e with h | ⟨l, d, hs, h⟩ <;> rw [h] at ht
  · cases ht
  · obtain ⟨-, -, -, h1, hd⟩ := mfSearch_bounds hs
    cases ht
    rwa [distanceOf_ofNat h1 (by omega)]

/-- Settles O35: the decision is `defers`, and every match comes from a search. -/
theorem stepDecidesAndIsValid : Obligations.StepDecidesAndIsValid := by
  intro cfg buf p e hcfg hp _ literal
  refine ⟨mfStep_of_none, fun l d hs => ?_, mfStep_legal hcfg buf p e, mfStep_covers hcfg buf p e,
    mfStep_advance_le cfg buf hp, fun l3 d1 => mfStep_distance_le hcfg⟩
  rw [mfStep_of_some hs, ← defers_eq_true_iff]
  exact ⟨fun h => if_pos h, fun h => if_neg h⟩

/-! The literal-only mode -/

theorem mfSearch_eq_none_of_off {cfg : Cfg} (h : cfg.windowSize = 0 ∨ cfg.maxChainLength = 0) (buf : List Byte)
    (p e : Nat) : mfSearch cfg buf p e = none := by
  have hoff : searchNeedsNoRead cfg p e = true := by
    rcases h with h | h <;> simp [searchNeedsNoRead, Cfg.ws, Cfg.mc, h]
  exact if_pos hoff

/-- The bytes MF_ENCODE holds back at the end of its buffer when every byte is a literal (R71). -/
def heldBack (cfg : Cfg) (finish : Bool) : Nat := if finish = true then 0 else cfg.mm

theorem decidableAt_iff (cfg : Cfg) (finish : Bool) (p e : Nat) :
    decidableAt cfg finish p e = true ↔ p + heldBack cfg finish < e := by
  cases finish with
  | true => simp [decidableAt, heldBack]
  | false =>
    simp only [decidableAt, heldBack, Bool.false_or, Bool.and_eq_true, decide_eq_true_eq, Bool.false_eq_true, if_false]
    omega

/-- Where no search finds anything the loop emits the bytes up to the first undecidable cursor, one by one (R73). -/
theorem mfLoop_of_off {cfg : Cfg} (h : cfg.windowSize = 0 ∨ cfg.maxChainLength = 0) (finish : Bool) (buf : List Byte)
    {fuel p : Nat} (hp : p ≤ buf.length) (hfuel : buf.length ≤ p + fuel) :
    mfLoop cfg finish buf buf.length fuel p =
      (((buf.drop p).take (buf.length - p - heldBack cfg finish)).map Token.lit,
        p + (buf.length - p - heldBack cfg finish)) := by
  induction fuel generalizing p with
  | zero =>
    have hend : p = buf.length := by omega
    simp [mfLoop, hend]
  | succ fuel ih =>
    simp only [mfLoop, mfStep_of_none (mfSearch_eq_none_of_off h buf p buf.length), decidableAt_iff]
    split
    · next hd =>
      have hlt : p < buf.length := by omega
      have hn : buf.length - p - heldBack cfg finish = buf.length - (p + 1) - heldBack cfg finish + 1 := by omega
      rw [ih hlt (by omega), hn, List.drop_eq_getElem_cons hlt, List.getD_eq_getElem _ _ hlt]
      simp only [List.take_succ_cons, List.map_cons, Prod.mk.injEq, true_and]
      omega
    · next hd =>
      have hn : buf.length - p - heldBack cfg finish = 0 := by omega
      simp [hn]

theorem mfEncode_of_off {cfg : Cfg} (h : cfg.windowSize = 0 ∨ cfg.maxChainLength = 0) (win pend input : List Byte)
    (finish : Bool) :
    let n := (pend ++ input).length - heldBack cfg finish
    (mfEncode cfg win pend input finish).tokens = ((pend ++ input).take n).map Token.lit ∧
      (mfEncode cfg win pend input finish).pend = (pend ++ input).drop n := by
  have hsub : (win ++ (pend ++ input)).length - win.length = (pend ++ input).length := by simp
  simp only [mfEncode, List.append_assoc]
  rw [mfLoop_of_off h finish _ (by simp) (by omega), hsub, List.drop_left, List.drop_length_add_append]
  exact ⟨rfl, rfl⟩

theorem preset_zero_eq_some {cfg : Cfg} (h : preset 0 = some cfg) : cfg = ⟨0, 0, 258, 0, 0⟩ :=
  (Option.some.inj h).symm

/-- Settles O37: every search is NONE, so the loop emits literals up to the bytes held back. -/
theorem literalOnlyFallback : Obligations.LiteralOnlyFallback := by
  refine ⟨fun cfg h => ⟨fun buf p e => ?_, fun win pend input finish => ?_⟩, fun cfg hcfg => ?_⟩
  · have hnone := mfSearch_eq_none_of_off h buf p e
    exact ⟨hnone, mfStep_of_none hnone⟩
  · have hn := mfEncode_of_off h win pend input finish
    cases finish <;> exact hn
  · rw [preset_zero_eq_some hcfg]
    exact ⟨rfl, rfl⟩

/-! MF_ENCODE -/

theorem exec_mfEncode (s : State) :
    let out := mfEncode s.cfg s.ses.win s.ses.pend s.unitArgs.input s.unitArgs.finish
    exec .mfEncode s = .next (unitDone (mfUpdate s.ses out) (.tokens out.tokens) s) := rfl

/-- Settles O38: `mfUpdate` writes WIN and PEND, and `unitDone` the result. -/
theorem mfEncodeResult : Obligations.MfEncodeResult := exec_mfEncode

/-- A token of the loop is MF_STEP's at the cursor the tokens before it lead to, and that cursor is decidable (R72). -/
theorem mfLoop_token {cfg : Cfg} (hcfg : cfg.legal) {finish : Bool} {buf : List Byte} {e fuel p : Nat}
    {ts rest : List Token} {tok : Token} (h : (mfLoop cfg finish buf e fuel p).1 = ts ++ tok :: rest) :
    decidableAt cfg finish (p + (ts.map tokenCovers).sum) e = true ∧
      mfStep cfg buf (p + (ts.map tokenCovers).sum) e = (tok, tokenCovers tok) := by
  induction fuel generalizing p ts with
  | zero => simp [mfLoop] at h
  | succ fuel ih =>
    simp only [mfLoop] at h
    split at h
    · next hd =>
      cases ts with
      | nil =>
        obtain ⟨rfl, -⟩ := List.cons.inj h
        exact ⟨hd, Prod.ext rfl (mfStep_covers hcfg buf p e).symm⟩
      | cons t ts =>
        obtain ⟨rfl, hts⟩ := List.cons.inj h
        rw [List.map_cons, List.sum_cons, ← Nat.add_assoc, mfStep_covers hcfg]
        exact ih hts
    · simp at h

/-- The loop's last cursor is where its tokens lead (R72). -/
theorem mfLoop_cursor_eq {cfg : Cfg} (hcfg : cfg.legal) (finish : Bool) (buf : List Byte) (e fuel p : Nat) :
    (mfLoop cfg finish buf e fuel p).2 = p + ((mfLoop cfg finish buf e fuel p).1.map tokenCovers).sum := by
  induction fuel generalizing p with
  | zero => rfl
  | succ fuel ih =>
    simp only [mfLoop]
    split
    · rw [ih, List.map_cons, List.sum_cons, mfStep_covers hcfg, Nat.add_assoc]
    · rfl

theorem mfLoop_cursor_le_end (cfg : Cfg) (finish : Bool) (buf : List Byte) {e p : Nat} (fuel : Nat) (hp : p ≤ e) :
    (mfLoop cfg finish buf e fuel p).2 ≤ e := by
  induction fuel generalizing p with
  | zero => exact hp
  | succ fuel ih =>
    simp only [mfLoop]
    split
    · next hd =>
      rw [decidableAt_iff] at hd
      have hadv := mfStep_advance_le cfg buf (show p < e by omega)
      exact ih (by omega)
    · exact hp

/-- The window extended by the bytes up to a cursor holds the last bytes before it (R64, R72). -/
theorem windowExtend_take {ws p q : Nat} {win buf : List Byte} (hwin : buf.take p = win) (hpq : p ≤ q)
    (hq : q ≤ buf.length) :
    windowExtend ws win ((buf.take q).drop p) = (buf.take q).drop (q - min q ws) := by
  have hx : win ++ (buf.take q).drop p = buf.take q := by
    have h := List.take_append_drop p (buf.take q)
    rwa [List.take_take, Nat.min_eq_left hpq, hwin] at h
  have hlen : (buf.take q).length = q := by simpa using hq
  simp only [windowExtend, hx, hlen]

/-- Settles O39: the loop's tokens, its last cursor, and what is left behind that. -/
theorem mfEncodeConsumes : Obligations.MfEncodeConsumes := by
  intro cfg win pend input finish hcfg _ out buf e decidableCursor
  have hdec : ∀ p, decidableCursor p ↔ decidableAt cfg finish p e = true := by
    simp [decidableCursor, decidableAt]
  have hwin : buf.take win.length = win := by simp [buf]
  have hlen : win.length ≤ e := by simp [e, buf, Nat.add_assoc]
  have htokens : out.tokens = (mfLoop cfg finish buf e (e - win.length) win.length).1 := rfl
  have hge := mfLoop_cursor_le cfg finish buf e (e - win.length) win.length
  have hend := mfLoop_cursor_le_end cfg finish buf (e - win.length) hlen
  have hstop := mfLoop_not_decidableAt cfg finish buf e (fuel := e - win.length) (p := win.length) (by omega)
  obtain ⟨hheld, hempty⟩ := mfEncode_pend_length cfg win pend input finish
  refine ⟨fun ts tok rest h => ?_, ?_⟩
  · obtain ⟨hd, hstep⟩ := mfLoop_token hcfg (htokens.symm.trans h)
    exact ⟨(hdec _).mpr hd, hstep⟩
  · rw [htokens, ← mfLoop_cursor_eq hcfg]
    refine ⟨fun hd => ?_, hend, rfl, windowExtend_take hwin hge hend, hempty, fun _ => hheld⟩
    rw [hdec, hstop] at hd
    cases hd

/-- Settles O40: the bytes coded begin with the window and end where PEND begins. -/
theorem tokensExpandToInput : Obligations.TokensExpandToInput := by
  intro cfg win pend input finish hcfg out
  obtain ⟨coded, hcoded, -, hx, -⟩ := mfEncode_expands hcfg [] win pend input finish
  obtain ⟨more, hmore, -⟩ := mfEncode_split cfg win pend input finish
  have hsplit : coded = win ++ more := by
    refine List.append_cancel_right (bs := out.pend) ?_
    rw [List.append_assoc, hmore]
    simpa using hcoded
  have htake : (pend ++ input).take ((pend ++ input).length - out.pend.length) = more := by
    rw [← hmore]
    simp [out]
  rw [htake, ← hsplit]
  simpa using hx

end Sys2Proof.Machine
end

section
/-! Hold-back and slices (R64, R71, R77): a search reads nothing past its cap and nothing older than the window, so the
tokens of the slices of a stream are those of the whole stream. Settles O36. -/

namespace Sys2Proof.Machine

/-! What follows the lookahead -/

theorem hashAt_append {suffix : List Byte} (h : 3 ≤ suffix.length) (more : List Byte) :
    hashAt (suffix ++ more) = hashAt suffix := by
  match suffix, h with
  | _ :: _ :: _ :: _, _ => rfl

theorem earlier_append (back suffix more : List Byte) (d : Nat) :
    earlier back (suffix ++ more) d = (earlier back suffix d).map fun c => (c.1, c.2 ++ more) := by
  induction back generalizing suffix d with
  | nil => rfl
  | cons b back ih =>
    simp only [earlier, List.map_cons, ← ih]
    rfl

theorem candidates_append (ws mc : Nat) (back more : List Byte) {ahead : List Byte} (h : 3 ≤ ahead.length) :
    candidates ws mc back (ahead ++ more) = (candidates ws mc back ahead).map fun c => (c.1, c.2 ++ more) := by
  rw [candidates, earlier_append, List.filter_map, ← List.map_take, candidates]
  congr 2
  refine List.filter_congr fun c hc => ?_
  have hlong : 3 ≤ c.2.length := by
    obtain ⟨-, -, hsuf⟩ := mem_earlier hc
    rw [hsuf, List.length_append]
    omega
  simp only [Function.comp_apply, hashAt_append h, hashAt_append hlong]

/-- A search with `max_lazy_match` bytes ahead compares nothing behind them (R68, R71). -/
theorem searchBest_append {cfg : Cfg} (back more : List Byte) {ahead : List Byte} (h3 : 3 ≤ cfg.mm)
    (h : cfg.mm ≤ ahead.length) : searchBest cfg back (ahead ++ more) = searchBest cfg back ahead := by
  have hcap : min cfg.mm (ahead ++ more).length = min cfg.mm ahead.length := by
    rw [List.length_append]
    omega
  rw [searchBest, candidates_append _ _ _ _ (Nat.le_trans h3 h), hcap, List.foldl_map, searchBest]
  refine List.foldl_ext _ _ _ fun best c hc => ?_
  have hlen : ahead.length ≤ c.2.length := by
    obtain ⟨-, -, -, hsuf⟩ := mem_candidates hc
    rw [hsuf, List.length_append]
    omega
  simp only [probe, matchLen_append (show min cfg.mm ahead.length ≤ c.2.length by omega) (Nat.min_le_right _ _)]

theorem mfSearch_append {cfg : Cfg} {buf : List Byte} {p : Nat} (h3 : 3 ≤ cfg.mm) (h : cfg.mm ≤ buf.length - p)
    (more : List Byte) : mfSearch cfg (buf ++ more) p (buf ++ more).length = mfSearch cfg buf p buf.length := by
  have hread : searchNeedsNoRead cfg p (buf ++ more).length = searchNeedsNoRead cfg p buf.length := by
    have hshort : ¬buf.length - p < 3 := by omega
    have hshort' : ¬(buf ++ more).length - p < 3 := by rw [List.length_append]; omega
    simp only [searchNeedsNoRead, hshort, hshort']
  have hp : p ≤ buf.length := by omega
  simp only [mfSearch, hread, List.take_length, List.take_append_of_le_length hp, List.drop_append_of_le_length hp,
    searchBest_append _ more h3 (show cfg.mm ≤ (buf.drop p).length by rwa [List.length_drop])]

theorem mfStep_congr {cfg : Cfg} {buf buf' : List Byte} {p p' e e' : Nat} (hbyte : buf.getD p 0 = buf'.getD p' 0)
    (hnext : p + 1 < e ↔ p' + 1 < e') (hs : mfSearch cfg buf p e = mfSearch cfg buf' p' e')
    (hs1 : mfSearch cfg buf (p + 1) e = mfSearch cfg buf' (p' + 1) e') :
    mfStep cfg buf p e = mfStep cfg buf' p' e' := by
  have hdefers : ∀ l, defers cfg buf p e l = defers cfg buf' p' e' l := fun l =>
    Bool.eq_iff_iff.mpr (by rw [defers_eq_true_iff, defers_eq_true_iff, hnext, hs1])
  cases hm : mfSearch cfg buf' p' e' with
  | none => rw [mfStep_of_none (hs.trans hm), mfStep_of_none hm, hbyte]
  | some m => rw [mfStep_of_some (hs.trans hm), mfStep_of_some hm, hbyte, hdefers]

theorem mfStep_append {cfg : Cfg} {buf : List Byte} {p : Nat} (h3 : 3 ≤ cfg.mm) (h : cfg.mm + 1 ≤ buf.length - p)
    (more : List Byte) : mfStep cfg (buf ++ more) p (buf ++ more).length = mfStep cfg buf p buf.length := by
  refine mfStep_congr (List.getD_append _ _ _ _ (by omega)) ?_ (mfSearch_append h3 (by omega) more)
    (mfSearch_append h3 (by omega) more)
  rw [List.length_append]
  omega

/-- Settles O36: both searches of MF_STEP have their full cap before the buffer's end. -/
theorem holdBackSeesEnough : Obligations.HoldBackSeesEnough := by
  intro cfg buf more p ⟨_, _, h3, _⟩ h
  exact (mfStep_append h3 h more).symm

/-! What precedes the window -/

/-- Bytes older than the window are no candidates (R67, R76). -/
theorem mfSearch_behind {cfg : Cfg} {older : List Byte} {p : Nat} (h : older = [] ∨ cfg.ws ≤ p) {buf : List Byte}
    (hp : p ≤ buf.length) (e : Nat) :
    mfSearch cfg (older ++ buf) (older.length + p) (older.length + e) = mfSearch cfg buf p e := by
  have hread : searchNeedsNoRead cfg (older.length + p) (older.length + e) = searchNeedsNoRead cfg p e := by
    rw [searchNeedsNoRead, Nat.add_sub_add_left, searchNeedsNoRead]
  have hwindow : ((buf.take p).reverse ++ older.reverse).take cfg.ws = (buf.take p).reverse.take cfg.ws := by
    rcases h with rfl | h
    · simp
    · exact List.take_append_of_le_length (by simp; omega)
  have hbest : ∀ ahead, searchBest cfg ((buf.take p).reverse ++ older.reverse) ahead =
      searchBest cfg (buf.take p).reverse ahead := fun ahead => by simp only [searchBest, candidates, hwindow]
  simp only [mfSearch, hread, List.take_length_add_append, List.drop_length_add_append, List.reverse_append, hbest]

theorem mfStep_behind {cfg : Cfg} {older : List Byte} {p : Nat} (h : older = [] ∨ cfg.ws ≤ p) {buf : List Byte}
    (hp : p < buf.length) (e : Nat) :
    mfStep cfg (older ++ buf) (older.length + p) (older.length + e) = mfStep cfg buf p e := by
  refine mfStep_congr ?_ (by omega) (mfSearch_behind h (Nat.le_of_lt hp) e)
    (mfSearch_behind (h.imp_right fun h => Nat.le_succ_of_le h) hp e)
  rw [List.getD_append_right _ _ _ _ (Nat.le_add_right _ _), Nat.add_sub_cancel_left]

/-! The tokens of a stream -/

theorem mfLoop_of_le (cfg : Cfg) (finish : Bool) (buf : List Byte) (fuel : Nat) {p e : Nat} (h : e ≤ p) :
    mfLoop cfg finish buf e fuel p = ([], p) := by
  cases fuel with
  | zero => rfl
  | succ fuel => simp [mfLoop, decidableAt, Nat.not_lt.mpr h]

/-- More rounds than bytes left change nothing (R72). -/
theorem mfLoop_fuel {cfg : Cfg} {finish : Bool} {buf : List Byte} {e fuel fuel' p : Nat} (h : e ≤ p + fuel)
    (h' : e ≤ p + fuel') : mfLoop cfg finish buf e fuel p = mfLoop cfg finish buf e fuel' p := by
  induction fuel generalizing fuel' p with
  | zero => exact (mfLoop_of_le cfg finish buf fuel' h).symm
  | succ fuel ih =>
    cases fuel' with
    | zero => exact mfLoop_of_le cfg finish buf (fuel + 1) h'
    | succ fuel' =>
      have hadv := mfStep_advance_pos cfg buf p e
      simp only [mfLoop]
      rw [ih (fuel' := fuel') (by omega) (by omega)]

/-- The tokens of a stream from a cursor on, as one finishing command gives them (R77). -/
def tokensFrom (cfg : Cfg) (stream : List Byte) (p : Nat) : List Token :=
  (mfLoop cfg true stream stream.length (stream.length - p) p).1

theorem tokensFrom_of_lt (cfg : Cfg) {stream : List Byte} {p : Nat} (hp : p < stream.length) :
    tokensFrom cfg stream p =
      (mfStep cfg stream p stream.length).1 :: tokensFrom cfg stream (p + (mfStep cfg stream p stream.length).2) := by
  obtain ⟨fuel, hfuel⟩ : ∃ f, stream.length - p = f + 1 := ⟨stream.length - p - 1, by omega⟩
  have hd : decidableAt cfg true p stream.length = true := by simp [decidableAt, hp]
  have hadv := mfStep_advance_pos cfg stream p stream.length
  simp only [tokensFrom, hfuel, mfLoop, hd, if_true]
  rw [mfLoop_fuel (fuel := fuel) (fuel' := stream.length - (p + (mfStep cfg stream p stream.length).2)) (by omega)
    (by omega)]

theorem tokensFrom_length (cfg : Cfg) (stream : List Byte) : tokensFrom cfg stream stream.length = [] := by
  rw [tokensFrom, Nat.sub_self]
  rfl

/-- The loop on a part of a stream, with the window's bytes behind the cursor, emits the stream's tokens and ends where
the stream's tokens go on (R77). -/
theorem tokensFrom_eq_mfLoop {cfg : Cfg} (h3 : 3 ≤ cfg.mm) {finish : Bool} (older buf more : List Byte) (fuel : Nat)
    {p : Nat} (hfin : finish = true → more = []) (h : older = [] ∨ cfg.ws ≤ p) :
    let r := mfLoop cfg finish buf buf.length fuel p
    let stream := older ++ (buf ++ more)
    tokensFrom cfg stream (older.length + p) = r.1 ++ tokensFrom cfg stream (older.length + r.2) := by
  induction fuel generalizing p with
  | zero => rfl
  | succ fuel ih =>
    simp only [mfLoop]
    split
    · next hd =>
      simp only [decidableAt, Bool.and_eq_true, Bool.or_eq_true, decide_eq_true_eq] at hd
      obtain ⟨hp, hd⟩ := hd
      have hstep : mfStep cfg (older ++ (buf ++ more)) (older.length + p) (older ++ (buf ++ more)).length =
          mfStep cfg buf p buf.length := by
        rw [List.length_append, mfStep_behind h (by rw [List.length_append]; omega)]
        rcases hd with hd | hd
        · rw [hfin hd, List.append_nil]
        · exact mfStep_append h3 hd more
      rw [tokensFrom_of_lt cfg (by simp only [List.length_append]; omega), hstep, Nat.add_assoc,
        ih (h.imp_right fun h => Nat.le_trans h (Nat.le_add_right _ _))]
      rfl
    · rfl

/-- A window filled by `coded` is the end of `coded`, and is all of it or full (R21, R64). -/
theorem windowExtend_nil_split (ws : Nat) (coded : List Byte) :
    ∃ older, older ++ windowExtend ws [] coded = coded ∧ (older = [] ∨ ws ≤ (windowExtend ws [] coded).length) := by
  rw [windowExtend_eq_drop, List.nil_append]
  refine ⟨coded.take (coded.length - ws), List.take_append_drop _ _, ?_⟩
  rcases Nat.le_total coded.length ws with h | h
  · exact .inl (by simp [Nat.sub_eq_zero_of_le h])
  · exact .inr (by rw [List.length_drop]; omega)

/-- MF_ENCODE behind a window filled by `coded` gives the stream's next tokens, up to where PEND begins (R77). -/
theorem tokensFrom_eq_mfEncode {cfg : Cfg} (h3 : 3 ≤ cfg.mm) {finish : Bool} {coded win : List Byte}
    (hwin : win = windowExtend cfg.ws [] coded) (pend input more : List Byte) (hfin : finish = true → more = [])
    {next : List Byte} (hnext : next ++ (mfEncode cfg win pend input finish).pend = pend ++ input) :
    tokensFrom cfg (coded ++ (pend ++ input) ++ more) coded.length =
      (mfEncode cfg win pend input finish).tokens ++
        tokensFrom cfg (coded ++ (pend ++ input) ++ more) (coded ++ next).length := by
  obtain ⟨older, hcoded, holder⟩ := windowExtend_nil_split cfg.ws coded
  rw [← hwin] at hcoded holder
  generalize hbuf : win ++ pend ++ input = buf
  have hstream : coded ++ (pend ++ input) ++ more = older ++ (buf ++ more) := by
    rw [← hbuf, ← hcoded]
    simp only [List.append_assoc]
  have hfull : win.length + (pend ++ input).length = buf.length := by
    rw [← hbuf, List.append_assoc, List.length_append (as := win)]
  have hloop := tokensFrom_eq_mfLoop h3 older buf more (buf.length - win.length) hfin holder
  have hend := mfLoop_cursor_le_end cfg finish buf (e := buf.length) (buf.length - win.length) (p := win.length)
    (by omega)
  have hge := mfLoop_cursor_le cfg finish buf buf.length (buf.length - win.length) win.length
  simp only [mfEncode, hbuf] at *
  generalize mfLoop cfg finish buf buf.length (buf.length - win.length) win.length = r at *
  have hstart : coded.length = older.length + win.length := by rw [← hcoded, List.length_append]
  have hcursor : (coded ++ next).length = older.length + r.2 := by
    have hlen := congrArg List.length hnext
    rw [List.length_append, List.length_drop] at hlen
    rw [List.length_append]
    omega
  rw [hstream, hcursor, hstart]
  exact hloop

end Sys2Proof.Machine
end

section
/-! Slicing independence (R77, R105, R108): two packers that have put out the same bits go on alike, so a session cut
into CHUNKs keeps step with one that takes the same tokens without a drain. Settles O15. -/

namespace Sys2Proof.Machine

/-! Byte streams by their bits -/

theorem streamBits_cons (b : Byte) (bytes : List Byte) :
    streamBits (b :: bytes) = (List.range 8).map b.getLsbD ++ streamBits bytes := rfl

theorem streamBits_length (bytes : List Byte) : (streamBits bytes).length = 8 * bytes.length := by
  induction bytes with
  | nil => rfl
  | cons b bytes ih =>
    rw [streamBits_cons, List.length_append, ih, List.length_cons, List.length_map, List.length_range]
    omega

/-- The bits of a byte stream determine its bytes (R39). -/
theorem eq_of_streamBits_eq {a b : List Byte} (h : streamBits a = streamBits b) : a = b := by
  have hlen : a.length = b.length := by
    have h := congrArg List.length h
    rw [streamBits_length, streamBits_length] at h
    omega
  refine List.ext_getElem hlen fun k ha hb => BitVec.eq_of_getLsbD_eq fun i hi => ?_
  rw [← List.getD_eq_getElem a 0 ha, ← List.getD_eq_getElem b 0 hb, ← streamBits_getD a ha hi,
    ← streamBits_getD b hb hi, h]

/-! Sessions that put out the same bits -/

/-- `ses`, having put out `out` before, stands where `whole` stands, which has put out nothing yet: the same tokens
buffered and counted, and the same bits written in all (R105). -/
structure Session.InStep (out : List Byte) (ses whole : Session) : Prop where
  tokbuf : ses.tokbuf = whole.tokbuf
  freqL : ses.freqL = whole.freqL
  freqD : ses.freqD = whole.freqD
  packer : ses.bp.ok
  packerWhole : whole.bp.ok
  bits : streamBits out ++ ses.bp.bits = whole.bp.bits

theorem hcSelect_congr (cfg : Cfg) {a b : Session} (hL : a.freqL = b.freqL) (hD : a.freqD = b.freqD) :
    (hcSelect cfg a).1.codeL = (hcSelect cfg b).1.codeL ∧ (hcSelect cfg a).1.codeD = (hcSelect cfg b).1.codeD ∧
      (hcSelect cfg a).2 = (hcSelect cfg b).2 := by
  simp only [hcSelect, hL, hD]
  split <;> exact ⟨rfl, rfl, rfl⟩

/-- Both sessions encode the same block (R86, R90). -/
theorem Session.InStep.hcEncode {out : List Byte} {ses whole : Session} (h : ses.InStep out whole) (cfg : Cfg)
    (final : Bool) : (hcEncode cfg final ses).InStep out (hcEncode cfg final whole) := by
  obtain ⟨hbits, hok⟩ := appends_hcEncode cfg final h.packer
  obtain ⟨hbits', hok'⟩ := appends_hcEncode cfg final h.packerWhole
  have hfreqL : (countEob ses).freqL = (countEob whole).freqL := by simp [countEob, h.freqL]
  have hfreqD : (countEob ses).freqD = (countEob whole).freqD := h.freqD
  obtain ⟨hL, hD, hb⟩ := hcSelect_congr cfg hfreqL hfreqD
  refine ⟨rfl, rfl, rfl, hok, hok', ?_⟩
  rw [hbits, hbits', hL, hD, hb, h.tokbuf, ← List.append_assoc, h.bits]

theorem Session.InStep.pushToken {out : List Byte} {ses whole : Session} (h : ses.InStep out whole) (tok : Token) :
    (pushToken ses tok).InStep out (pushToken whole tok) := by
  obtain ⟨htok, hL, hD, hok, hok', hbits⟩ := h
  refine ⟨?_, ?_, ?_, hok, hok', hbits⟩
  · show ses.tokbuf ++ [tok] = whole.tokbuf ++ [tok]
    rw [htok]
  · show bump ses.freqL (symL tok) = bump whole.freqL (symL tok)
    rw [hL]
  · simp only [Machine.pushToken, hcCount, hD]

theorem Session.InStep.takeToken {out : List Byte} {ses whole : Session} (h : ses.InStep out whole) (u : Nat)
    (cfg : Cfg) (tok : Token) : (takeToken u cfg ses tok).InStep out (takeToken u cfg whole tok) := by
  have hpush := h.pushToken tok
  rw [takeToken_eq, takeToken_eq, hpush.tokbuf]
  split
  · exact hpush.hcEncode cfg false
  · exact hpush

theorem Session.InStep.foldl_takeToken {out : List Byte} {ses whole : Session} (h : ses.InStep out whole) (u : Nat)
    (cfg : Cfg) (ts : List Token) :
    (ts.foldl (Machine.takeToken u cfg) ses).InStep out (ts.foldl (Machine.takeToken u cfg) whole) := by
  induction ts generalizing ses whole with
  | nil => exact h
  | cons t ts ih => exact ih (h.takeToken u cfg t)

theorem finishStream_outq_bits {ses : Session} (cfg : Cfg) (h : ses.bp.ok) :
    streamBits (finishStream cfg ses).bp.outq =
      (hcEncode cfg true ses).bp.bits ++ List.replicate (8 - (hcEncode cfg true ses).bp.nbits) false := by
  rw [← bpFlush_bits (hcEncode_bp_ok cfg true h)]
  simp [finishStream, BitPacker.bits_eq, bpFlush, intBits]

/-- Packers that have taken in the same bits but for whole bytes have as many pending. -/
theorem nbits_eq_of_bits {out : List Byte} {p q : BitPacker} (hp : p.ok) (hq : q.ok)
    (h : streamBits out ++ p.bits = q.bits) : p.nbits = q.nbits := by
  have hlen := congrArg List.length h
  simp only [BitPacker.bits_eq, List.length_append, streamBits_length, intBits_length] at hlen
  have := hp.1
  have := hq.1
  omega

/-- The final block and the flush complete both streams to the same bytes (R102 step 6). -/
theorem Session.InStep.finishStream {out : List Byte} {ses whole : Session} (h : ses.InStep out whole) (cfg : Cfg) :
    out ++ (finishStream cfg ses).bp.outq = (finishStream cfg whole).bp.outq := by
  obtain ⟨-, -, -, hok, hok', hbits⟩ := h.hcEncode cfg true
  apply eq_of_streamBits_eq
  rw [streamBits_append, finishStream_outq_bits cfg h.packer, finishStream_outq_bits cfg h.packerWhole,
    nbits_eq_of_bits hok hok' hbits, ← hbits, List.append_assoc]

/-! Sessions in CHUNKs -/

/-- The session has coded the stream up to PEND as the single finishing command would: its tokens are the first of
`tokensFrom`, whatever `more` may follow (nothing, in a finishing command), and it is in step with the session that has
taken them all (R77). -/
def Session.Follows (u : Nat) (cfg : Cfg) (stream out : List Byte) (fin : Bool) (ses : Session) : Prop :=
  ∃ coded toks, coded ++ ses.pend = stream ∧ ses.win = windowExtend cfg.ws [] coded ∧
    (∀ more, (fin = true → more = []) →
      tokensFrom cfg (stream ++ more) 0 = toks ++ tokensFrom cfg (stream ++ more) coded.length) ∧
    ses.InStep out (toks.foldl (takeToken u cfg) Session.fresh)

theorem fresh_follows (u : Nat) (cfg : Cfg) : Session.fresh.Follows u cfg [] [] false :=
  ⟨[], [], rfl, rfl, fun _ _ => rfl, ⟨rfl, rfl, rfl, (fresh_bounded cfg).2, (fresh_bounded cfg).2, rfl⟩⟩

/-- A slice's tokens go on where the stream's tokens do. -/
theorem Session.Follows.codeSlice {u : Nat} {cfg : Cfg} (hcfg : cfg.legal) {stream out : List Byte} {ses : Session}
    (h : ses.Follows u cfg stream out false) (fin : Bool) (input : List Byte) :
    (codeSlice u cfg ses fin input).Follows u cfg (stream ++ input) out fin := by
  obtain ⟨-, -, h3, -⟩ := hcfg
  obtain ⟨coded, toks, rfl, hwin, htoks, hstep⟩ := h
  obtain ⟨next, hnext, hwin'⟩ := mfEncode_split cfg ses.win ses.pend input fin
  have hw : (Machine.codeSlice u cfg ses fin input).win = (mfEncode cfg ses.win ses.pend input fin).win :=
    foldl_takeToken_win _ _ _ _
  have hp : (Machine.codeSlice u cfg ses fin input).pend = (mfEncode cfg ses.win ses.pend input fin).pend :=
    foldl_takeToken_pend _ _ _ _
  refine ⟨coded ++ next, toks ++ (mfEncode cfg ses.win ses.pend input fin).tokens, ?_, ?_, fun more hmore => ?_, ?_⟩
  · rw [hp, List.append_assoc, hnext, List.append_assoc]
  · rw [hw, hwin', hwin, windowExtend_windowExtend]
  · have hfirst := htoks (input ++ more) (by simp)
    have hrest := tokensFrom_eq_mfEncode h3 hwin ses.pend input more hmore hnext
    simp only [List.append_assoc] at hfirst hrest ⊢
    rw [hfirst, hrest]
  · have hupdate : (mfUpdate ses (mfEncode cfg ses.win ses.pend input fin)).InStep out
        (toks.foldl (takeToken u cfg) Session.fresh) :=
      ⟨hstep.tokbuf, hstep.freqL, hstep.freqD, hstep.packer, hstep.packerWhole, hstep.bits⟩
    rw [List.foldl_append]
    exact hupdate.foldl_takeToken u cfg _

/-- A CHUNK that does not finish keeps the session following its stream: the drain only moves bytes from the packer's
queue to the output (R95, R105). -/
theorem Session.Follows.chunk {u : Nat} {cfg : Cfg} (hcfg : cfg.legal) {stream out : List Byte} {ses : Session}
    (h : ses.Follows u cfg stream out false) (hf : ses.finished = false) {input : List Byte} {cap : Nat} {r : ChunkOk}
    (hr : chunkSession u cfg ses false input cap = some r) :
    r.ses.Follows u cfg (stream ++ input) (out ++ r.bytes) false := by
  obtain ⟨-, rfl⟩ := chunkSession_of_active hf hr
  obtain ⟨coded, toks, hstream, hwin, htoks, hstep⟩ := h.codeSlice hcfg false input
  refine ⟨coded, toks, hstream, hwin, htoks, hstep.tokbuf, hstep.freqL, hstep.freqD, hstep.packer,
    hstep.packerWhole, ?_⟩
  rw [streamBits_append, List.append_assoc]
  exact hstep.bits

theorem SessionRun.follows {u : Nat} {cfg : Cfg} (hcfg : cfg.legal) {stream out : List Byte} {ses : Session}
    (h : SessionRun u cfg stream out ses) (hf : ses.finished = false) : ses.Follows u cfg stream out false := by
  induction h with
  | start => exact fresh_follows u cfg
  | chunk hrun hprev hr ih =>
    obtain ⟨-, -, -, -, hfin, -⟩ := chunkSession_accounts hprev hr
    rw [hf] at hfin
    subst hfin
    exact (ih hprev).chunk hcfg hprev hr

/-- What a finishing command puts out completes the bytes of the session that has taken the stream's tokens one by
one. -/
theorem Session.Follows.finish {u : Nat} {cfg : Cfg} (hcfg : cfg.legal) {stream out : List Byte} {ses : Session}
    (h : ses.Follows u cfg stream out false) (input : List Byte) :
    out ++ (compressSlice u cfg ses true input).bp.outq =
      (finishStream cfg ((tokensFrom cfg (stream ++ input) 0).foldl (takeToken u cfg) Session.fresh)).bp.outq := by
  have hpend : (Machine.codeSlice u cfg ses true input).pend = [] :=
    (foldl_takeToken_pend _ _ _ _).trans ((mfEncode_pend_length cfg ses.win ses.pend input true).2 rfl)
  obtain ⟨coded, toks, hstream, -, htoks, hstep⟩ := h.codeSlice hcfg true input
  rw [hpend, List.append_nil] at hstream
  have hall : tokensFrom cfg (stream ++ input) 0 = toks := by
    have := htoks [] fun _ => rfl
    rwa [List.append_nil, hstream, tokensFrom_length, List.append_nil] at this
  rw [hall]
  exact hstep.finishStream cfg

theorem finishStream_outq_length_pos (cfg : Cfg) (ses : Session) : 0 < (finishStream cfg ses).bp.outq.length := by
  simp [finishStream, bpFlush]

/-- A CHUNK whose bytes fit returns them (R102 step 7). -/
theorem chunkSession_of_fits {u : Nat} {cfg : Cfg} {ses : Session} {fin : Bool} {input : List Byte} {cap : Nat}
    (hf : ses.finished = false) (hcap : 0 < cap)
    (hfits : (compressSlice u cfg ses fin input).bp.outq.length ≤ cap) :
    ∃ r, chunkSession u cfg ses fin input cap = some r ∧ r.bytes = (compressSlice u cfg ses fin input).bp.outq := by
  have hzero : ¬(input ≠ [] ∧ cap = 0) := fun h => by omega
  simp [chunkSession, hf, hzero, bpDrain, Nat.not_lt.mpr hfits]

/-- Settles O15: the last CHUNK of the sliced session and the single command put out the bytes of the same tokens. -/
theorem slicingIndependence : Obligations.SlicingIndependence := by
  intro u cap cfg stream out ses hcfg hrun hf hcap
  cases hrun with
  | start => cases hf
  | @chunk stream out ses fin input cap' r hrun hprev hr =>
    obtain ⟨-, -, -, -, hfin, -⟩ := chunkSession_accounts hprev hr
    rw [hf] at hfin
    subst hfin
    obtain ⟨-, hr⟩ := chunkSession_of_active hprev hr
    have hbytes : r.bytes = (compressSlice u cfg ses true input).bp.outq := by rw [hr]
    have hsliced := (hrun.follows hcfg hprev).finish hcfg input
    have hsingle := (fresh_follows u cfg).finish hcfg (stream ++ input)
    rw [List.nil_append, List.nil_append, ← hsliced, ← hbytes] at hsingle
    have hpos : 0 < (compressSlice u cfg Session.fresh true (stream ++ input)).bp.outq.length :=
      finishStream_outq_length_pos _ _
    rw [hsingle] at hpos
    obtain ⟨r', hr', hb⟩ := chunkSession_of_fits (u := u) (cfg := cfg) (fin := true) (input := stream ++ input)
      (cap := cap) (ses := Session.fresh) rfl (Nat.lt_of_lt_of_le hpos hcap) (by rw [hsingle]; exact hcap)
    exact ⟨r', hr', hb.trans hsingle⟩

end Sys2Proof.Machine
end

section
/-! R81's merge as a relation (R81, R82): it reads no depth but those of the nodes it names, its depths fill the space
of the root, and no lengths within the Kraft bound weigh less. -/

namespace Sys2Proof.Machine

/-! Lengths within the Kraft bound -/

/-- The space codes of these lengths take, in units of `2 ^ -n` (R82 (b)). -/
def lengthSpace (n : Nat) (lens : List Nat) : Nat := (lens.map fun l => 2 ^ (n - l)).sum

@[simp] theorem lengthSpace_cons (n l : Nat) (lens : List Nat) :
    lengthSpace n (l :: lens) = 2 ^ (n - l) + lengthSpace n lens := rfl

theorem lengthSpace_perm (n : Nat) {as bs : List Nat} (h : as.Perm bs) : lengthSpace n as = lengthSpace n bs :=
  (h.map _).sum_eq

/-- Space for lengths up to `l` comes in units of `l`. -/
theorem dvd_lengthSpace (n : Nat) {l : Nat} {lens : List Nat} (h : ∀ x ∈ lens, x ≤ l) :
    2 ^ (n - l) ∣ lengthSpace n lens := by
  refine List.dvd_sum fun x hx => ?_
  obtain ⟨k, hk, rfl⟩ := List.mem_map.mp hx
  exact pow_dvd_pow 2 (Nat.sub_le_sub_left (h k hk) n)

/-- Two longest lengths can be those of siblings: their parent's length keeps the bound, since the space the others
leave free comes in units of the shorter of the two. -/
theorem lengthSpace_merge {n a b : Nat} {lens : List Nat} (hb : ∀ l ∈ lens, l ≤ b) (hba : b ≤ a) (han : a ≤ n)
    (h : lengthSpace n (a :: b :: lens) ≤ 2 ^ n) : 1 ≤ b ∧ lengthSpace n ((b - 1) :: lens) ≤ 2 ^ n := by
  obtain ⟨m, hm⟩ := dvd_lengthSpace n hb
  have hn : 2 ^ n = 2 ^ (n - b) * 2 ^ b := by rw [← Nat.pow_add, Nat.sub_add_cancel (Nat.le_trans hba han)]
  have ha : 0 < 2 ^ (n - a) := Nat.two_pow_pos _
  rw [lengthSpace_cons, lengthSpace_cons, hm, hn] at h
  have hlt : m + 1 < 2 ^ b := by
    refine Nat.lt_of_mul_lt_mul_left (a := 2 ^ (n - b)) ?_
    rw [Nat.mul_add, Nat.mul_one]
    omega
  obtain ⟨b, rfl⟩ : ∃ k, b = k + 1 := Nat.exists_eq_succ_of_ne_zero (by rintro rfl; simp at hlt)
  have hp : 2 ^ (n - b) = 2 ^ (n - (b + 1)) * 2 := by
    rw [← Nat.pow_succ]
    congr 1
    omega
  refine ⟨Nat.le_add_left 1 b, ?_⟩
  rw [Nat.add_sub_cancel, lengthSpace_cons, hm, hn, hp, ← Nat.mul_add]
  exact Nat.mul_le_mul_left _ (by omega)

/-! Weights and lengths -/

/-- The weighted length of pairs `(weight, length)` (R82 (c)). -/
def placedWeight (ps : List (Nat × Nat)) : Nat := (ps.map fun p => p.1 * p.2).sum

@[simp] theorem placedWeight_cons (p : Nat × Nat) (ps : List (Nat × Nat)) :
    placedWeight (p :: ps) = p.1 * p.2 + placedWeight ps := rfl

theorem placedWeight_perm {ps qs : List (Nat × Nat)} (h : ps.Perm qs) : placedWeight ps = placedWeight qs :=
  (h.map _).sum_eq

/-- The exchange: a least weight can take over the greatest length without adding weighted length. -/
theorem exists_longest_on_least {w : Nat} (l : Nat) {ps : List (Nat × Nat)} (h : ∀ p ∈ ps, w ≤ p.1) :
    ∃ m qs, qs.map Prod.fst = ps.map Prod.fst ∧ (m :: qs.map Prod.snd).Perm (l :: ps.map Prod.snd) ∧
      placedWeight ((w, m) :: qs) ≤ placedWeight ((w, l) :: ps) ∧ ∀ k ∈ qs.map Prod.snd, k ≤ m := by
  induction ps generalizing l with
  | nil => exact ⟨l, [], rfl, .refl _, Nat.le_refl _, by simp⟩
  | cons p ps ih =>
    obtain ⟨v, k⟩ := p
    have hv : w ≤ v := h (v, k) (by simp)
    have ht : ∀ p ∈ ps, w ≤ p.1 := fun p hp => h p (by simp [hp])
    obtain ⟨m, qs, hfst, hsnd, hle, hmax⟩ := ih (max l k) ht
    have hm : max l k ≤ m := by
      rcases List.mem_cons.mp (hsnd.mem_iff.mpr List.mem_cons_self) with he | he
      · exact Nat.le_of_eq he
      · exact hmax _ he
    have hswap : w * max l k + v * min l k ≤ w * l + v * k := by
      rcases Nat.le_total l k with hlk | hkl
      · obtain ⟨d, rfl⟩ := Nat.exists_eq_add_of_le hlk
        have : w * d ≤ v * d := Nat.mul_le_mul_right d hv
        rw [Nat.max_eq_right hlk, Nat.min_eq_left hlk, Nat.mul_add, Nat.mul_add]
        omega
      · rw [Nat.max_eq_left hkl, Nat.min_eq_right hkl]
    refine ⟨m, (v, min l k) :: qs, by simp [hfst], ?_, ?_, List.forall_mem_cons.mpr ⟨?_, hmax⟩⟩
    · have hpair : [max l k, min l k].Perm [l, k] := by
        rcases Nat.le_total l k with hlk | hkl
        · rw [Nat.max_eq_right hlk, Nat.min_eq_left hlk]
          exact .swap _ _ _
        · rw [Nat.max_eq_left hkl, Nat.min_eq_right hkl]
      exact (List.Perm.swap _ _ _).trans ((hsnd.cons _).trans ((List.Perm.swap _ _ _).trans
        (hpair.append_right (ps.map Prod.snd))))
    · simp only [placedWeight_cons] at hle ⊢
      omega
    · exact Nat.le_trans (Nat.le_trans (Nat.min_le_left l k) (Nat.le_max_left l k)) hm

/-- The exchange, for a least weight that stands anywhere. -/
theorem exists_longest_on_least_of_perm {w : Nat} {ws : List Nat} {ps : List (Nat × Nat)}
    (hp : (ps.map Prod.fst).Perm (w :: ws)) (hw : ∀ v ∈ ws, w ≤ v) :
    ∃ m qs, (qs.map Prod.fst).Perm ws ∧ (m :: qs.map Prod.snd).Perm (ps.map Prod.snd) ∧
      placedWeight ((w, m) :: qs) ≤ placedWeight ps ∧ ∀ k ∈ qs.map Prod.snd, k ≤ m := by
  obtain ⟨⟨w, l⟩, hmem, rfl⟩ := List.mem_map.mp (hp.mem_iff.mpr List.mem_cons_self)
  have he := List.perm_cons_erase hmem
  have hrest : ((ps.erase (w, l)).map Prod.fst).Perm ws := ((he.map Prod.fst).symm.trans hp).cons_inv
  obtain ⟨m, qs, hfst, hsnd, hle, hmax⟩ := exists_longest_on_least l fun p hp =>
    hw p.1 (hrest.mem_iff.mp (List.mem_map_of_mem hp))
  exact ⟨m, qs, hfst ▸ hrest, hsnd.trans (he.map Prod.snd).symm, hle.trans_eq (placedWeight_perm he).symm, hmax⟩

/-- The two least weights take the two longest lengths, and their parent takes the place of both. -/
theorem exists_merged_placement {n a b : Nat} {ws : List Nat} {ps : List (Nat × Nat)}
    (hps : (ps.map Prod.fst).Perm (a :: b :: ws)) (hab : a ≤ b) (hb : ∀ v ∈ ws, b ≤ v)
    (hn : ∀ l ∈ ps.map Prod.snd, l ≤ n) (hk : lengthSpace n (ps.map Prod.snd) ≤ 2 ^ n) :
    ∃ qs, (qs.map Prod.fst).Perm ((a + b) :: ws) ∧ (∀ l ∈ qs.map Prod.snd, l ≤ n) ∧
      lengthSpace n (qs.map Prod.snd) ≤ 2 ^ n ∧ placedWeight qs + (a + b) ≤ placedWeight ps := by
  have ha : ∀ v ∈ b :: ws, a ≤ v := List.forall_mem_cons.mpr ⟨hab, fun v hv => Nat.le_trans hab (hb v hv)⟩
  obtain ⟨la, qs, hq, hqp, hqw, hqm⟩ := exists_longest_on_least_of_perm hps ha
  obtain ⟨lb, rs, hr, hrq, hrw, hrm⟩ := exists_longest_on_least_of_perm hq hb
  have hlens : (la :: lb :: rs.map Prod.snd).Perm (ps.map Prod.snd) := (hrq.cons la).trans hqp
  have hle : ∀ l ∈ la :: lb :: rs.map Prod.snd, l ≤ n := fun l hl => hn l (hlens.mem_iff.mp hl)
  have hba : lb ≤ la := hqm lb (hrq.mem_iff.mp List.mem_cons_self)
  obtain ⟨hlan, hlbn, hrn⟩ : la ≤ n ∧ lb ≤ n ∧ ∀ l ∈ rs.map Prod.snd, l ≤ n := by
    simpa only [List.forall_mem_cons] using hle
  obtain ⟨hb1, hspace⟩ := lengthSpace_merge hrm hba hlan (by rwa [lengthSpace_perm n hlens])
  obtain ⟨lp, rfl⟩ : ∃ k, lb = k + 1 := ⟨lb - 1, by omega⟩
  refine ⟨(a + b, lp) :: rs, hr.cons _, List.forall_mem_cons.mpr ⟨Nat.le_of_succ_le hlbn, hrn⟩, hspace, ?_⟩
  have hla : a * (lp + 1) ≤ a * la := Nat.mul_le_mul_left _ hba
  simp only [placedWeight_cons, Nat.add_mul, Nat.mul_add] at hla hqw hrw ⊢
  omega

/-! The merge -/

theorem MergeDepths.perm {next : Nat} {live live' : List (Nat × Nat)} {depth : Nat → Nat}
    (h : MergeDepths next live depth) (hp : live.Perm live') : MergeDepths next live' depth := by
  cases h with
  | root h0 =>
    obtain rfl := List.perm_singleton.mp hp.symm
    exact .root h0
  | merge hl hab hb hm ha hbd => exact .merge (hp.symm.trans hl) hab hb hm ha hbd

/-- The merge speaks of the depths of the live nodes and of the nodes it makes alone. -/
theorem MergeDepths.congr {next : Nat} {live : List (Nat × Nat)} {depth depth' : Nat → Nat}
    (h : MergeDepths next live depth) (hlive : ∀ x ∈ live, depth' x.2 = depth x.2)
    (hnext : ∀ i, next ≤ i → depth' i = depth i) : MergeDepths next live depth' := by
  induction h with
  | root h0 => exact .root ((hlive _ List.mem_cons_self).trans h0)
  | @merge next live rest a b depth hl hab hb hm ha hbd ih =>
    have hmem : ∀ x ∈ a :: b :: rest, depth' x.2 = depth x.2 := fun x hx => hlive x (hl.mem_iff.mpr hx)
    have hself : depth' next = depth next := hnext next (Nat.le_refl _)
    refine .merge hl hab hb (ih (fun x hx => ?_) fun i hi => hnext i (Nat.le_of_succ_le hi)) ?_ ?_
    · rcases List.mem_cons.mp hx with rfl | hx
      · exact hself
      · exact hmem x (by simp [hx])
    · rw [hmem a (by simp), ha, hself]
    · rw [hmem b (by simp), hbd, hself]

theorem MergeDepths.depth_lt {next : Nat} {live : List (Nat × Nat)} {depth : Nat → Nat}
    (h : MergeDepths next live depth) : ∀ x ∈ live, depth x.2 < live.length := by
  induction h with
  | root h0 => simp [h0]
  | @merge next live rest a b depth hl hab hb hm ha hbd ih =>
    have hnew : depth next < rest.length + 1 := ih _ List.mem_cons_self
    intro x hx
    rw [hl.length_eq, List.length_cons, List.length_cons]
    rcases List.mem_cons.mp (hl.mem_iff.mp hx) with rfl | hx
    · omega
    · rcases List.mem_cons.mp hx with rfl | hx
      · omega
      · exact Nat.lt_succ_of_lt (ih x (by simp [hx]))

/-- The live nodes fill the root's space (R82 (b)). -/
theorem MergeDepths.lengthSpace_eq {next n : Nat} {live : List (Nat × Nat)} {depth : Nat → Nat}
    (h : MergeDepths next live depth) (hn : live.length ≤ n + 1) :
    lengthSpace n (live.map fun x => depth x.2) = 2 ^ n := by
  induction h with
  | root h0 => simp [lengthSpace, h0]
  | @merge next live rest a b depth hl hab hb hm ha hbd ih =>
    rw [hl.length_eq, List.length_cons, List.length_cons] at hn
    have hd : depth next < rest.length + 1 := hm.depth_lt _ List.mem_cons_self
    have hp : 2 ^ (n - depth next) = 2 * 2 ^ (n - (depth next + 1)) := by
      rw [← Nat.pow_succ']
      congr 1
      omega
    have hi := ih (by simpa using Nat.le_of_succ_le hn)
    rw [List.map_cons, lengthSpace_cons, hp] at hi
    rw [lengthSpace_perm n (hl.map _), List.map_cons, List.map_cons, lengthSpace_cons, lengthSpace_cons, ha, hbd]
    omega

/-- The optimality of the greedy merge (R82 (c)): lengths for the live nodes' weights that lie within the Kraft bound
weigh at least as much as the depths. -/
theorem MergeDepths.weight_le {next n : Nat} {live : List (Nat × Nat)} {depth : Nat → Nat}
    (h : MergeDepths next live depth) {ps : List (Nat × Nat)} (hps : (ps.map Prod.fst).Perm (live.map Prod.fst))
    (hn : ∀ l ∈ ps.map Prod.snd, l ≤ n) (hk : lengthSpace n (ps.map Prod.snd) ≤ 2 ^ n) :
    placedWeight (live.map fun x => (x.1, depth x.2)) ≤ placedWeight ps := by
  induction h generalizing ps with
  | root h0 => simp [placedWeight, h0]
  | @merge next live rest a b depth hl hab hb hm ha hbd ih =>
    have hbr : ∀ v ∈ rest.map Prod.fst, b.1 ≤ v := List.forall_mem_map.mpr fun x hx => by
      have := hb x hx
      omega
    obtain ⟨qs, hq, hqn, hqk, hqw⟩ := exists_merged_placement (hps.trans (hl.map _)) (by omega) hbr hn hk
    have hi := ih hq hqn hqk
    rw [placedWeight_perm (hl.map _)]
    simp only [List.map_cons, placedWeight_cons, ha, hbd, Nat.add_mul, Nat.mul_add] at hi ⊢
    omega

end Sys2Proof.Machine
end

section
/-! HC_BUILD is R81's merge (R81, R82): the live nodes stand in the order `(weight, id)` throughout, and the finished
tree's leaf depths are the merge's. Settles O43. -/

namespace Sys2Proof.Machine

/-! The order of the live nodes -/

theorem nodeBefore_iff {x y : HNode} : nodeBefore x y = true ↔ lighter (x.weight, x.id) (y.weight, y.id) := by
  simp [nodeBefore]

theorem nodeBefore_trans {x y z : HNode} (hxy : nodeBefore x y = true) (hyz : nodeBefore y z = true) :
    nodeBefore x z = true := by
  rw [nodeBefore_iff] at hxy hyz ⊢
  simp only [lighter] at hxy hyz ⊢
  omega

theorem nodeBefore_of_not {x y : HNode} (hid : x.id ≠ y.id) (h : ¬nodeBefore x y = true) : nodeBefore y x = true := by
  rw [nodeBefore_iff] at h ⊢
  simp only [lighter] at h ⊢
  omega

/-- The live nodes stand in the order `(weight, id)` (R81). -/
abbrev NodesSorted (live : List HNode) : Prop := live.Pairwise fun x y => nodeBefore x y = true

theorem addLive_nodesSorted {x : HNode} {live : List HNode} (hx : ∀ y ∈ live, x.id ≠ y.id) (h : NodesSorted live) :
    NodesSorted (addLive x live) := by
  induction live with
  | nil => simp [addLive]
  | cons y ys ih =>
    obtain ⟨hy, hys⟩ := List.pairwise_cons.mp h
    obtain ⟨hxy, hxys⟩ := List.forall_mem_cons.mp hx
    simp only [addLive]
    split
    · next hb =>
      exact List.pairwise_cons.mpr ⟨List.forall_mem_cons.mpr ⟨hb, fun z hz => nodeBefore_trans hb (hy z hz)⟩, h⟩
    · next hb =>
      have hall : ∀ z ∈ x :: ys, nodeBefore y z = true := List.forall_mem_cons.mpr ⟨nodeBefore_of_not hxy hb, hy⟩
      exact List.pairwise_cons.mpr ⟨fun z hz => hall z ((addLive_perm x ys).mem_iff.mp hz), ih hxys hys⟩

theorem foldl_addLive_nodesSorted {α : Type} {f : α → HNode} {us : List α} {live : List HNode}
    (hnew : ∀ u ∈ us, ∀ y ∈ live, (f u).id ≠ y.id) (hus : us.Pairwise fun u v => (f u).id ≠ (f v).id)
    (h : NodesSorted live) : NodesSorted (us.foldl (fun live u => addLive (f u) live) live) := by
  induction us generalizing live with
  | nil => exact h
  | cons u us ih =>
    obtain ⟨hu, hus⟩ := List.pairwise_cons.mp hus
    obtain ⟨hul, hnew⟩ := List.forall_mem_cons.mp hnew
    refine ih (fun v hv y hy => ?_) hus (addLive_nodesSorted hul h)
    rcases List.mem_cons.mp ((addLive_perm _ _).mem_iff.mp hy) with rfl | hy
    · exact (hu v hv).symm
    · exact hnew v hv y hy

/-- What the merge keeps of the ids: every live one is given out and no two are the same (R81). -/
structure Ordered (next : Nat) (live : List HNode) : Prop where
  sorted : NodesSorted live
  below : ∀ x ∈ live, x.id < next
  nodup : (live.map HNode.id).Nodup

/-- R81's order key of a node. -/
def HNode.key (x : HNode) : Nat × Nat := (x.weight, x.id)

/-- The parent of the two least nodes (R81). -/
def parentOf (a b : HNode) (next : Nat) : HNode := ⟨a.weight + b.weight, next, .node a.tree b.tree⟩

theorem Ordered.step {next : Nat} {a b : HNode} {live : List HNode} (h : Ordered next (a :: b :: live)) :
    Ordered (next + 1) (addLive (parentOf a b next) live) := by
  have hp := addLive_perm (parentOf a b next) live
  obtain ⟨-, hbl⟩ := List.pairwise_cons.mp h.sorted
  obtain ⟨-, hl⟩ := List.pairwise_cons.mp hbl
  have hlt : ∀ x ∈ live, x.id < next := fun x hx => h.below x (by simp [hx])
  have hne : ∀ x ∈ live, next ≠ x.id := fun x hx => Nat.ne_of_gt (hlt x hx)
  refine ⟨addLive_nodesSorted hne hl, fun x hx => ?_, (hp.map _).nodup_iff.mpr (List.nodup_cons.mpr ⟨?_, ?_⟩)⟩
  · rcases List.mem_cons.mp (hp.mem_iff.mp hx) with rfl | hx
    · exact Nat.lt_succ_self next
    · exact Nat.lt_succ_of_lt (hlt x hx)
  · intro hmem
    obtain ⟨x, hx, he⟩ := List.mem_map.mp hmem
    exact hne x hx he.symm
  · exact (List.nodup_cons.mp (List.nodup_cons.mp h.nodup).2).2

/-! The tree's depths -/

/-- The leaf depths of live nodes whose own depths are `depth` (R81). -/
def liveDepths (depth : Nat → Nat) (live : List HNode) : List (Nat × Nat) :=
  live.flatMap fun x => depths x.tree (depth x.id)

theorem liveDepths_cons (depth : Nat → Nat) (x : HNode) (live : List HNode) :
    liveDepths depth (x :: live) = depths x.tree (depth x.id) ++ liveDepths depth live := rfl

theorem liveDepths_single (x : HNode) : liveDepths (fun _ => 0) [x] = depths x.tree 0 := List.append_nil _

theorem liveDepths_congr {depth depth' : Nat → Nat} {live : List HNode} (h : ∀ x ∈ live, depth' x.id = depth x.id) :
    liveDepths depth' live = liveDepths depth live :=
  List.flatMap_congr fun x hx => by rw [h x hx]

/-- The depths that two siblings get from their parent `next`; every other node keeps its own (R81). -/
def siblingDepths (depth : Nat → Nat) (a b next : Nat) : Nat → Nat :=
  fun i => if i = a ∨ i = b then depth next + 1 else depth i

theorem siblingDepths_other {depth : Nat → Nat} {a b next i : Nat} (ha : i ≠ a) (hb : i ≠ b) :
    siblingDepths depth a b next i = depth i := by simp [siblingDepths, ha, hb]

/-- From the depths after a round to those before it: a round of R81's merge, in which the siblings' leaves lie as deep
as their parent's. -/
theorem Ordered.mergeDepths_parentOf {next : Nat} {a b : HNode} {live : List HNode} {depth : Nat → Nat}
    (h : Ordered next (a :: b :: live))
    (hm : MergeDepths (next + 1) ((parentOf a b next :: live).map HNode.key) depth) :
    MergeDepths next ((a :: b :: live).map HNode.key) (siblingDepths depth a.id b.id next) ∧
      liveDepths (siblingDepths depth a.id b.id next) (a :: b :: live) =
        liveDepths depth (parentOf a b next :: live) := by
  obtain ⟨ha, hbl⟩ := List.pairwise_cons.mp h.sorted
  obtain ⟨hb, -⟩ := List.pairwise_cons.mp hbl
  obtain ⟨hida, hids⟩ := List.nodup_cons.mp h.nodup
  obtain ⟨hidb, -⟩ := List.nodup_cons.mp hids
  have hother : ∀ x ∈ live, siblingDepths depth a.id b.id next x.id = depth x.id := fun x hx =>
    siblingDepths_other (fun he => hida (List.mem_cons_of_mem _ (he ▸ List.mem_map_of_mem hx)))
      (fun he => hidb (he ▸ List.mem_map_of_mem hx))
  have hlater : ∀ i, next ≤ i → siblingDepths depth a.id b.id next i = depth i := fun i hi =>
    siblingDepths_other (Nat.ne_of_gt (Nat.lt_of_lt_of_le (h.below a (by simp)) hi))
      (Nat.ne_of_gt (Nat.lt_of_lt_of_le (h.below b (by simp)) hi))
  have hself := hlater next (Nat.le_refl next)
  have hsa : siblingDepths depth a.id b.id next a.id = depth next + 1 := by simp [siblingDepths]
  have hsb : siblingDepths depth a.id b.id next b.id = depth next + 1 := by simp [siblingDepths]
  refine ⟨.merge (.refl _) (nodeBefore_iff.mp (ha b (by simp)))
    (List.forall_mem_map.mpr fun x hx => nodeBefore_iff.mp (hb x hx)) (hm.congr ?_ fun i hi => ?_)
    (hsa.trans (congrArg (· + 1) hself.symm)) (hsb.trans (congrArg (· + 1) hself.symm)), ?_⟩
  · exact List.forall_mem_cons.mpr ⟨hself, List.forall_mem_map.mpr hother⟩
  · exact hlater i (Nat.le_of_succ_le hi)
  · rw [liveDepths_cons, liveDepths_cons, liveDepths_cons, hsa, hsb, liveDepths_congr hother, ← List.append_assoc]
    rfl

/-- The merge loop runs R81's merge, and its tree has the merge's depths. -/
theorem Ordered.mergeDepths {fuel next : Nat} {live : List HNode} (h : Ordered next live) (hne : live ≠ [])
    (hfuel : live.length ≤ fuel + 1) :
    ∃ root depth, mergeLive fuel next live = [root] ∧ MergeDepths next (live.map HNode.key) depth ∧
      (depths root.tree 0).Perm (liveDepths depth live) := by
  induction fuel generalizing next live with
  | zero =>
    obtain ⟨root, rfl⟩ : ∃ root, live = [root] :=
      List.length_eq_one_iff.mp (Nat.le_antisymm hfuel (List.length_pos_iff.mpr hne))
    exact ⟨root, fun _ => 0, rfl, .root rfl, .of_eq (liveDepths_single root).symm⟩
  | succ fuel ih =>
    match live, hne with
    | [root], _ => exact ⟨root, fun _ => 0, rfl, .root rfl, .of_eq (liveDepths_single root).symm⟩
    | a :: b :: live, _ =>
      have hp := addLive_perm (parentOf a b next) live
      have hlen := hp.length_eq
      obtain ⟨root, depth, hroot, hm, hd⟩ :=
        ih h.step (fun he => by simp [he] at hlen) (by rw [hlen]; simpa using hfuel)
      obtain ⟨hm', hd'⟩ := h.mergeDepths_parentOf (hm.perm (hp.map _))
      exact ⟨root, _, hroot, hm', hd.trans ((hp.flatMap_right _).trans (.of_eq hd'.symm))⟩

/-! The used symbols and their leaves -/

/-- R81's `used`, by index. -/
def usedIndices (freq : List Nat) : List Nat := (List.range freq.length).filter fun s => 0 < freq.getD s 0

/-- The `m`-th used symbol (R81). -/
def usedAt (freq : List Nat) (m : Nat) : Nat := (usedIndices freq).getD m 0

theorem mem_usedIndices {freq : List Nat} {s : Nat} :
    s ∈ usedIndices freq ↔ s < freq.length ∧ 0 < freq.getD s 0 := by
  simp [usedIndices]

theorem usedIndices_nodup (freq : List Nat) : (usedIndices freq).Nodup := List.nodup_range.filter _

theorem map_usedIndices {α : Type} (freq : List Nat) (f : Nat → α) :
    (usedIndices freq).map f = (List.range (usedIndices freq).length).map fun m => f (usedAt freq m) := by
  refine List.ext_getElem (by simp) fun m hm _ => ?_
  simp only [List.length_map] at hm
  simp [usedAt, hm]

theorem usedSymbols_eq (freq : List Nat) :
    usedSymbols freq = (usedIndices freq).map fun s => (freq.getD s 0, s) := by
  have hz : freq.zipIdx = (List.range freq.length).map fun s => (freq.getD s 0, s) := by
    refine List.ext_getElem (by simp) fun s hs _ => ?_
    have hs : s < freq.length := by simpa using hs
    simp [hs]
  rw [usedSymbols, hz, List.filter_map, usedIndices]
  rfl

theorem usedSymbols_length (freq : List Nat) : (usedSymbols freq).length = (usedIndices freq).length := by
  simp [usedSymbols_eq]

theorem usedSymbols_map_snd (freq : List Nat) : (usedSymbols freq).map Prod.snd = usedIndices freq := by
  simp [usedSymbols_eq, Function.comp_def]

/-- The leaf of the `m`-th used symbol (R81). -/
def leafNode (freq : List Nat) (m : Nat) : HNode := ⟨freq.getD (usedAt freq m) 0, m, .leaf (usedAt freq m)⟩

theorem leaves_perm_leafNode (freq : List Nat) :
    (leaves freq).Perm ((List.range (usedIndices freq).length).map (leafNode freq)) := by
  refine (leaves_perm freq).trans (.of_eq (List.ext_getElem (by simp [usedSymbols_length]) fun m hm _ => ?_))
  have hm : m < (usedIndices freq).length := by simpa [usedSymbols_length] using hm
  simp [usedSymbols_eq, leafNode, usedAt, hm]

theorem leaves_ordered (freq : List Nat) : Ordered (usedIndices freq).length (leaves freq) := by
  have hp := leaves_perm_leafNode freq
  have hids : ((leaves freq).map HNode.id).Perm (List.range (usedIndices freq).length) :=
    (hp.map _).trans (.of_eq (by simp [leafNode, Function.comp_def]))
  refine ⟨foldl_addLive_nodesSorted (by simp) ?_ .nil, fun x hx => ?_, hids.nodup_iff.mpr List.nodup_range⟩
  · have hn : ((usedSymbols freq).zipIdx.map Prod.snd).Nodup := by simp [List.nodup_range']
    exact List.pairwise_map.mp hn
  · exact List.mem_range.mp (hids.mem_iff.mp (List.mem_map_of_mem hx))

/-! The code lengths -/

/-- HC_BUILD gives depths to the used symbols alone, one to each (R81). -/
theorem leafDepths_map_fst_perm (freq : List Nat) : ((leafDepths freq).map Prod.fst).Perm (usedIndices freq) := by
  rw [← usedSymbols_map_snd]
  by_cases hu : usedSymbols freq = []
  · simp [leafDepths, leaves, hu, mergeLive]
  · obtain ⟨root, hr, -, hsyms⟩ := mergeLive_leaves hu
    rwa [leafDepths_of_root hr, rootDepths_map_fst]

theorem leafDepths_pos {freq : List Nat} {e : Nat × Nat} (he : e ∈ leafDepths freq) : 1 ≤ e.2 := by
  by_cases hu : usedSymbols freq = []
  · simp [leafDepths, leaves, hu, mergeLive] at he
  · obtain ⟨root, hr, -, -⟩ := mergeLive_leaves hu
    rw [leafDepths_of_root hr] at he
    exact (rootDepths_bounds he).1

theorem lookup_eq_some_of_mem {ds : List (Nat × Nat)} (hn : (ds.map Prod.fst).Nodup) {e : Nat × Nat} (he : e ∈ ds) :
    ds.lookup e.1 = some e.2 := by
  induction ds with
  | nil => cases he
  | cons d ds ih =>
    obtain ⟨hd, hn⟩ := List.nodup_cons.mp hn
    rcases List.mem_cons.mp he with rfl | he
    · simp [List.lookup]
    · have hne : (e.1 == d.1) = false := by
        simp only [beq_eq_false_iff_ne]
        exact fun h => hd (h ▸ List.mem_map_of_mem he)
      rw [List.lookup, hne]
      exact ih hn he

theorem hcBuild_getD_of_mem {freq : List Nat} {e : Nat × Nat} (he : e ∈ leafDepths freq) :
    (hcBuild freq).getD e.1 0 = e.2 := by
  have hp := leafDepths_map_fst_perm freq
  have hs := (mem_usedIndices.mp (hp.mem_iff.mp (List.mem_map_of_mem he))).1
  rw [hcBuild_getD hs, lookup_eq_some_of_mem (hp.nodup_iff.mpr (usedIndices_nodup freq)) he, Option.getD_some]

/-- A symbol gets a code length iff it is used (R82 (a)). -/
theorem hcBuild_pos_iff {freq : List Nat} {s : Nat} (hs : s < freq.length) :
    0 < (hcBuild freq).getD s 0 ↔ 0 < freq.getD s 0 := by
  have hp := leafDepths_map_fst_perm freq
  refine ⟨fun h => ?_, fun h => ?_⟩
  · rw [hcBuild_getD hs] at h
    cases hd : (leafDepths freq).lookup s with
    | none => simp [hd] at h
    | some d =>
      obtain ⟨l1, l2, he, -⟩ := List.lookup_eq_some_iff.mp hd
      exact (mem_usedIndices.mp (hp.mem_iff.mp (by simp [he]))).2
  · obtain ⟨e, he, rfl⟩ := List.mem_map.mp (hp.mem_iff.mpr (mem_usedIndices.mpr ⟨hs, h⟩))
    rw [hcBuild_getD_of_mem he]
    exact leafDepths_pos he

theorem HTree.height_lt_syms_length (t : HTree) : t.height < t.syms.length := by
  induction t with
  | leaf s => simp [HTree.height, HTree.syms]
  | node a b iha ihb =>
    simp only [HTree.height, HTree.syms, List.length_append]
    omega

/-- One used symbol has length 1 (R81). -/
theorem hcBuild_single {freq : List Nat} (h : (usedIndices freq).length = 1) :
    ∀ s ∈ usedIndices freq, (hcBuild freq).getD s 0 = 1 := by
  intro s hs
  have hp := leafDepths_map_fst_perm freq
  obtain ⟨root, hr, -, hsyms⟩ := mergeLive_leaves (freq := freq) fun hn => by simp [← usedSymbols_length, hn] at h
  rw [usedSymbols_map_snd] at hsyms
  obtain ⟨e, he, rfl⟩ := List.mem_map.mp (hp.mem_iff.mpr hs)
  rw [hcBuild_getD_of_mem he]
  rw [leafDepths_of_root hr] at he
  have hb := rootDepths_bounds he
  have hh := root.tree.height_lt_syms_length
  rw [hsyms.length_eq, h] at hh
  omega

/-- With two used symbols or more the lengths are the depths of R81's merge. -/
theorem hcBuild_mergeDepths {freq : List Nat} (h : 2 ≤ (usedIndices freq).length) :
    ∃ depth, MergeDepths (usedIndices freq).length
        ((List.range (usedIndices freq).length).map fun m => (freq.getD (usedAt freq m) 0, m)) depth ∧
      ∀ m < (usedIndices freq).length, (hcBuild freq).getD (usedAt freq m) 0 = depth m := by
  have hp := leaves_perm_leafNode freq
  have hlen : (leaves freq).length = (usedIndices freq).length := by simpa using hp.length_eq
  obtain ⟨root, depth, hr, hm, hd⟩ := (leaves_ordered freq).mergeDepths (fuel := (usedIndices freq).length)
    (List.length_pos_iff.mp (by omega)) (by omega)
  refine ⟨depth, hm.perm ((hp.map _).trans (.of_eq (List.map_map ..))), fun m hm => ?_⟩
  have hroot : leafDepths freq = depths root.tree 0 := by
    rw [← usedSymbols_length] at hr
    have hlen' := (leafDepths_map_fst_perm freq).length_eq
    rw [leafDepths_of_root hr] at hlen' ⊢
    cases ht : root.tree with
    | leaf s =>
      simp [ht, rootDepths] at hlen'
      omega
    | node a b => rfl
  have hmem : (usedAt freq m, depth m) ∈ leafDepths freq := by
    rw [hroot, hd.mem_iff]
    exact List.mem_flatMap.mpr ⟨leafNode freq m, hp.mem_iff.mpr (List.mem_map_of_mem (List.mem_range.mpr hm)),
      by simp [leafNode, depths]⟩
  exact hcBuild_getD_of_mem hmem

/-- Settles O43: the used symbols are those with a leaf, and their depths are the merge's. -/
theorem hcBuildUsedSymbols : Obligations.HcBuildUsedSymbols := fun freq =>
  ⟨hcBuild_length freq, fun _ hs => hcBuild_pos_iff hs, hcBuild_single, hcBuild_mergeDepths⟩

end Sys2Proof.Machine
end

section
/-! HC_BUILD is a complete code of minimum weighted length (R82 (b), (c)): what the merge says of its depths, said of
the lengths of the used symbols. Settles O44. -/

namespace Sys2Proof.Machine

/-- The live nodes R81's merge starts from. -/
def leafKeys (freq : List Nat) : List (Nat × Nat) :=
  (List.range (usedIndices freq).length).map fun m => (freq.getD (usedAt freq m) 0, m)

/-- A function of a leaf's weight and length, over the leaves and over the used symbols. -/
theorem map_leafKeys {α : Type} {freq : List Nat} {depth : Nat → Nat}
    (h : ∀ m < (usedIndices freq).length, (hcBuild freq).getD (usedAt freq m) 0 = depth m) (f : Nat → Nat → α) :
    ((leafKeys freq).map fun x => f x.1 (depth x.2)) =
      (usedIndices freq).map fun s => f (freq.getD s 0) ((hcBuild freq).getD s 0) := by
  rw [map_usedIndices, leafKeys, List.map_map]
  exact List.map_congr_left fun m hm => by rw [h m (List.mem_range.mp hm)]; rfl

/-- A list by its indices. -/
theorem eq_map_getD_range (l : List Nat) : l = (List.range l.length).map fun s => l.getD s 0 := by
  refine List.ext_getElem (by simp) fun s hs _ => ?_
  rw [List.getElem_map, List.getElem_range, List.getD_eq_getElem _ _ hs]

/-- The positive lengths are those of the used symbols. -/
theorem hcBuild_filter_pos (freq : List Nat) :
    (hcBuild freq).filter (0 < ·) = (usedIndices freq).map fun s => (hcBuild freq).getD s 0 := by
  conv_lhs => rw [eq_map_getD_range (hcBuild freq), hcBuild_length, List.filter_map]
  congr 1
  exact List.filter_congr fun s hs => by simpa using hcBuild_pos_iff (List.mem_range.mp hs)

theorem countP_pos_eq_usedIndices_length (freq : List Nat) : freq.countP (0 < ·) = (usedIndices freq).length := by
  conv_lhs => rw [eq_map_getD_range freq, List.countP_map, List.countP_eq_length_filter]
  rfl

/-- What is 0 for the unused symbols sums up over the used ones alone. -/
theorem sum_usedIndices {M : Type} [AddCommMonoid M] (freq : List Nat) {f : Nat → M}
    (h : ∀ s, ¬0 < freq.getD s 0 → f s = 0) :
    ((usedIndices freq).map f).sum = ((List.range freq.length).map f).sum := by
  rw [← List.sum_map_filter_add_sum_map_filter_not (fun s => 0 < freq.getD s 0) f (List.range freq.length)]
  have hz : (((List.range freq.length).filter fun s => ¬0 < freq.getD s 0).map f).sum = 0 :=
    List.sum_eq_zero (List.forall_mem_map.mpr fun s hs => h s (by simpa using (List.mem_filter.mp hs).2))
  rw [hz, add_zero]
  rfl

theorem sum_freq_mul_eq (freq : List Nat) (g : Nat → Nat) :
    ((List.range freq.length).map fun s => freq.getD s 0 * g s).sum =
      placedWeight ((usedIndices freq).map fun s => (freq.getD s 0, g s)) := by
  rw [← sum_usedIndices freq fun s hs => by rw [Nat.eq_zero_of_not_pos hs, Nat.zero_mul], placedWeight, List.map_map]
  rfl

/-- The space of some lengths is their Kraft sum, in units of `2 ^ -n` for an `n` that no length exceeds. -/
theorem cast_lengthSpace {n : Nat} {lens : List Nat} (hn : ∀ l ∈ lens, l ≤ n) :
    (lengthSpace n lens : ℚ) = 2 ^ n * (lens.map fun l => (1 / 2 : ℚ) ^ l).sum := by
  induction lens with
  | nil => simp [lengthSpace]
  | cons l lens ih =>
    obtain ⟨hl, hn⟩ := List.forall_mem_cons.mp hn
    have hp : (2 : ℚ) ^ (n - l) = 2 ^ n * (1 / 2) ^ l := by
      rw [pow_sub₀ _ (by norm_num) hl, one_div, inv_pow]
    rw [lengthSpace_cons, Nat.cast_add, Nat.cast_pow, Nat.cast_ofNat, hp, ih hn, List.map_cons, List.sum_cons, mul_add]

theorem lengthSpace_le_of_kraft {n : Nat} {freq : List Nat} {len : Nat → Nat}
    (hn : ∀ l ∈ (usedIndices freq).map len, l ≤ n)
    (hk : ((List.range freq.length).map fun s => if 0 < freq.getD s 0 then (1 / 2 : ℚ) ^ len s else 0).sum ≤ 1) :
    lengthSpace n ((usedIndices freq).map len) ≤ 2 ^ n := by
  rw [← sum_usedIndices freq fun s hs => if_neg hs] at hk
  have hused : ((usedIndices freq).map fun s => if 0 < freq.getD s 0 then (1 / 2 : ℚ) ^ len s else 0) =
      ((usedIndices freq).map len).map fun l => (1 / 2 : ℚ) ^ l := by
    rw [List.map_map]
    exact List.map_congr_left fun s hs => if_pos (mem_usedIndices.mp hs).2
  rw [hused] at hk
  have hle : (lengthSpace n ((usedIndices freq).map len) : ℚ) ≤ 2 ^ n := by
    rw [cast_lengthSpace hn]
    exact mul_le_of_le_one_right (by positivity) hk
  exact_mod_cast hle

/-- The lengths of two used symbols or more satisfy the Kraft equality (R82 (b)). -/
theorem hcBuild_kraft_eq {freq : List Nat} (h : 2 ≤ (usedIndices freq).length) :
    lengthSpace freq.length ((hcBuild freq).filter (0 < ·)) = 2 ^ freq.length ∧
      ∀ l ∈ hcBuild freq, l < freq.length := by
  have hle : (usedIndices freq).length ≤ freq.length := by
    simpa [usedIndices] using List.length_filter_le (fun s => decide (0 < freq.getD s 0)) (List.range freq.length)
  obtain ⟨depth, hm, hd⟩ := hcBuild_mergeDepths h
  change MergeDepths _ (leafKeys freq) depth at hm
  have hk := hm.lengthSpace_eq (n := freq.length) (by simp [leafKeys]; omega)
  rw [map_leafKeys hd fun _ l => l] at hk
  rw [hcBuild_filter_pos]
  refine ⟨hk, fun l hl => ?_⟩
  rcases Nat.eq_zero_or_pos l with rfl | hpos
  · omega
  · have hmem : l ∈ (hcBuild freq).filter (0 < ·) := List.mem_filter.mpr ⟨hl, by simpa using hpos⟩
    rw [hcBuild_filter_pos, ← map_leafKeys hd fun _ l => l] at hmem
    obtain ⟨x, hx, rfl⟩ := List.mem_map.mp hmem
    have := hm.depth_lt x hx
    simp only [leafKeys, List.length_map, List.length_range] at this
    omega

/-- No lengths for the used symbols within the Kraft bound weigh less (R82 (c)). -/
theorem hcBuild_weight_le {n : Nat} {freq : List Nat} {len : Nat → Nat} (hpos : ∀ s ∈ usedIndices freq, 0 < len s)
    (hn : ∀ l ∈ (usedIndices freq).map len, l ≤ n) (hk : lengthSpace n ((usedIndices freq).map len) ≤ 2 ^ n) :
    placedWeight ((usedIndices freq).map fun s => (freq.getD s 0, (hcBuild freq).getD s 0)) ≤
      placedWeight ((usedIndices freq).map fun s => (freq.getD s 0, len s)) := by
  by_cases h : 2 ≤ (usedIndices freq).length
  · obtain ⟨depth, hm, hd⟩ := hcBuild_mergeDepths h
    change MergeDepths _ (leafKeys freq) depth at hm
    rw [← map_leafKeys hd]
    have hsnd : ((usedIndices freq).map fun s => (freq.getD s 0, len s)).map Prod.snd = (usedIndices freq).map len := by
      simp [Function.comp_def]
    refine hm.weight_le (.of_eq ?_) (hsnd ▸ hn) (hsnd ▸ hk)
    simp [leafKeys, map_usedIndices, Function.comp_def]
  · rw [placedWeight, placedWeight, List.map_map, List.map_map]
    refine List.sum_le_sum fun s hs => Nat.mul_le_mul_left _ ?_
    have hone := hcBuild_single (freq := freq) (by have := List.length_pos_of_mem hs; omega) s hs
    exact (Nat.le_of_eq hone).trans (hpos s hs)

/-- Settles O44: the merge's Kraft equality and its optimality, for the used symbols. -/
theorem hcBuildKraft : Obligations.HcBuildKraft := by
  intro freq
  rw [countP_pos_eq_usedIndices_length]
  refine ⟨hcBuild_kraft_eq, fun lens hpos hk => ?_⟩
  have hn : ∀ l ∈ (usedIndices freq).map fun s => lens.getD s 0,
      l ≤ ((usedIndices freq).map fun s => lens.getD s 0).sum := fun l hl => List.le_sum_of_mem hl
  rw [sum_freq_mul_eq, sum_freq_mul_eq]
  refine hcBuild_weight_le (fun s hs => ?_) hn (lengthSpace_le_of_kraft hn hk)
  obtain ⟨hlt, hs⟩ := mem_usedIndices.mp hs
  exact hpos s hlt hs

end Sys2Proof.Machine
end

section
/-! The length of a code (R84). Settles O45. -/

namespace Sys2Proof.Machine

/-- The frequencies sum to at least R84's Fibonacci number of any length, where two symbols or more are used. -/
theorem fib_le_sum_of_mem_hcBuild {freq : List Nat} (h : 2 ≤ (usedIndices freq).length) {l : Nat}
    (hl : l ∈ hcBuild freq) (hpos : 0 < l) : Nat.fib (l + 2) ≤ freq.sum := by
  obtain ⟨root, hr, hfib, hsyms⟩ := mergeLive_leaves (freq := freq) fun hn => by
    simp [← usedSymbols_length, hn] at h
  rw [usedSymbols_map_snd] at hsyms
  have hheight : 1 ≤ root.tree.height := by
    cases ht : root.tree with
    | leaf s =>
      have := hsyms.length_eq
      simp [ht, HTree.syms] at this
      omega
    | node a b => exact Nat.le_add_left 1 _
  have hmem : l ∈ (hcBuild freq).filter (0 < ·) := List.mem_filter.mpr ⟨hl, by simpa using hpos⟩
  rw [hcBuild_filter_pos] at hmem
  obtain ⟨s, hs, rfl⟩ := List.mem_map.mp hmem
  obtain ⟨e, he, rfl⟩ := List.mem_map.mp ((leafDepths_map_fst_perm freq).mem_iff.mpr hs)
  rw [hcBuild_getD_of_mem he]
  rw [leafDepths_of_root hr] at he
  have hle := (rootDepths_bounds he).2
  exact Nat.le_trans (Nat.fib_mono (by omega)) hfib

/-- Settles O45: a tree's height is bounded by R84's weight, and its leaves' depths by its height. -/
theorem hcBuildLengthBound : Obligations.HcBuildLengthBound := by
  intro freq
  rw [countP_pos_eq_usedIndices_length]
  exact ⟨fun h l => fib_le_sum_of_mem_hcBuild h, hcBuild_le_15⟩

end Sys2Proof.Machine
end

section
/-! The canonical codes of HC_ASSIGN (R83, R85): the value of each, and the order of the codes of a length and of
different lengths. Settles O46. -/

namespace Sys2Proof.Machine

/-! The value of a code -/

/-- The room, in units of length `l`, of the codes shorter than `l` (R83). -/
def shorterRoom (lens : List Nat) (l : Nat) : Nat :=
  ((lens.filter fun k => 0 < k ∧ k < l).map fun k => 2 ^ (l - k)).sum

/-- The first code of a length is the room of the shorter ones (R83). -/
theorem firstCode_eq_shorterRoom (lens : List Nat) {l : Nat} (h : l ≤ 15) :
    firstCode lens l = shorterRoom lens l := by
  refine Nat.eq_of_mul_eq_mul_right (Nat.two_pow_pos (15 - l)) ?_
  rw [firstCode_mul_eq_kraft15 lens h, kraft15, shorterRoom, List.filter_filter, ← List.sum_map_mul_right]
  have hf : (lens.filter fun k => 0 < k ∧ k < l) = lens.filter fun k => decide (0 < k) && decide (k < l) := by
    simp
  rw [hf]
  refine congrArg List.sum (List.map_congr_left fun k hk => ?_)
  have hk : 0 < k ∧ k < l := by simpa using (List.mem_filter.mp hk).2
  rw [← Nat.pow_add]
  congr 1
  omega

theorem shorterRoom_eq_sum_range (lens : List Nat) (l : Nat) :
    shorterRoom lens l = (((List.range lens.length).filter fun t => 0 < lens.getD t 0 ∧ lens.getD t 0 < l).map
      fun t => 2 ^ (l - lens.getD t 0)).sum := by
  conv_lhs => rw [shorterRoom, eq_map_getD_range lens, List.filter_map, List.map_map]
  rfl

/-- The places before `j` that hold `l`. -/
theorem countP_take_eq_countP_range (lens : List Nat) {j : Nat} (hj : j ≤ lens.length) (l : Nat) :
    (lens.take j).countP (· == l) = (List.range lens.length).countP fun t => lens.getD t 0 = l ∧ t < j := by
  obtain ⟨d, hd⟩ := Nat.exists_eq_add_of_le hj
  have htake : lens.take j = (List.range j).map fun t => lens.getD t 0 := by
    conv_lhs => rw [eq_map_getD_range lens, ← List.map_take, List.take_range, Nat.min_eq_left hj]
  have hfirst : (List.range j).countP (fun t => lens.getD t 0 = l ∧ t < j) =
      (List.range j).countP fun t => lens.getD t 0 == l :=
    List.countP_congr fun t ht => by simp [List.mem_range.mp ht]
  have hlast : ((List.range d).map (j + ·)).countP (fun t => lens.getD t 0 = l ∧ t < j) = 0 :=
    List.countP_eq_zero.mpr (List.forall_mem_map.mpr fun t _ => by simp)
  rw [hd, List.range_add, List.countP_append, hfirst, hlast, htake, List.countP_map]
  rfl

/-- The symbols that R83 orders before place `j` have the room of the shorter codes and of those of length `l` before
`j`. -/
theorem sum_room_before (lens : List Nat) {j : Nat} (hj : j ≤ lens.length) {l : Nat} (hl : 0 < l) :
    (((List.range lens.length).filter fun t =>
        0 < lens.getD t 0 ∧ (lens.getD t 0 < l ∨ lens.getD t 0 = l ∧ t < j)).map
      fun t => 2 ^ (l - lens.getD t 0)).sum = shorterRoom lens l + (lens.take j).countP (· == l) := by
  rw [← List.sum_map_filter_add_sum_map_filter_not (fun t => lens.getD t 0 < l), List.filter_filter,
    List.filter_filter, shorterRoom_eq_sum_range, countP_take_eq_countP_range lens hj, List.countP_eq_length_filter]
  congr 1
  · congr 2
    refine List.filter_congr fun t _ => ?_
    simp only [← Bool.decide_and, decide_eq_decide]
    omega
  · have hown : ((List.range lens.length).filter fun t => decide ¬lens.getD t 0 < l &&
        decide (0 < lens.getD t 0 ∧ (lens.getD t 0 < l ∨ lens.getD t 0 = l ∧ t < j))) =
        (List.range lens.length).filter fun t => lens.getD t 0 = l ∧ t < j := by
      refine List.filter_congr fun t _ => ?_
      simp only [← Bool.decide_and, decide_eq_decide]
      omega
    rw [hown, List.map_congr_left (g := fun _ => 1) fun t ht => ?_]
    · simp
    · have hl : lens.getD t 0 = l ∧ t < j := by simpa using (List.mem_filter.mp ht).2
      rw [hl.1, Nat.sub_self, Nat.pow_zero]

theorem hcAssign_getD_of_zero {lens : List Nat} (h : ∀ l ∈ lens, l ≤ 15) {j : Nat} (hj : j < lens.length)
    (hz : lens.getD j 0 = 0) : (hcAssign lens).getD j 0 = 0 := by
  rw [hcAssign, assignLoop_getD (fun l hl => by rw [nextCodes_length]; exact Nat.lt_succ_of_le (h l hl)) hj, if_pos hz]

theorem hcAssign_getD_eq_room {lens : List Nat} (h : ∀ l ∈ lens, l ≤ 15) {j : Nat} (hj : j < lens.length) :
    (hcAssign lens).getD j 0 =
      if lens.getD j 0 = 0 then 0
      else (((List.range lens.length).filter fun t =>
          0 < lens.getD t 0 ∧ (lens.getD t 0 < lens.getD j 0 ∨ lens.getD t 0 = lens.getD j 0 ∧ t < j)).map
        fun t => 2 ^ (lens.getD j 0 - lens.getD t 0)).sum := by
  split
  · next hz => exact hcAssign_getD_of_zero h hj hz
  · next hz =>
    have hpos := Nat.pos_of_ne_zero hz
    have hle : lens.getD j 0 ≤ 15 := by
      rw [List.getD_eq_getElem _ _ hj]
      exact h _ (List.getElem_mem hj)
    rw [hcAssign_getD h hj hpos, firstCode_eq_shorterRoom lens hle, sum_room_before lens (Nat.le_of_lt hj) hpos]

/-! The order of the codes -/

/-- Up to the next place that holds a value there is one more of it. -/
theorem countP_take_next {lens : List Nat} {i j l : Nat} (hij : i < j) (hj : j < lens.length) (hl : lens.getD i 0 = l)
    (hbetween : ∀ k, i < k → k < j → lens.getD k 0 ≠ l) :
    (lens.take j).countP (· == l) = (lens.take i).countP (· == l) + 1 := by
  have hi : i < lens.length := Nat.lt_trans hij hj
  obtain ⟨d, rfl⟩ := Nat.exists_eq_add_of_le (Nat.succ_le_of_lt hij)
  have hrest : ((lens.drop (i + 1)).take d).countP (· == l) = 0 := by
    refine List.countP_eq_zero.mpr fun x hx => ?_
    obtain ⟨k, hk, rfl⟩ := List.getElem_of_mem hx
    have hk : k < d := hk.trans_le (List.length_take_le _ _)
    have hne := hbetween (i + 1 + k) (by omega) (by omega)
    rw [List.getD_eq_getElem _ _ (by omega)] at hne
    simpa using hne
  rw [List.getD_eq_getElem _ _ hi] at hl
  rw [List.take_add, List.countP_append, hrest, List.take_succ_eq_append_getElem hi, List.countP_append, hl]
  simp

/-- The next symbol of a length takes the next code (R83). -/
theorem hcAssign_getD_next {lens : List Nat} (h : ∀ l ∈ lens, l ≤ 15) {i j : Nat} (hij : i < j)
    (hj : j < lens.length) (hpos : 0 < lens.getD i 0) (heq : lens.getD j 0 = lens.getD i 0)
    (hbetween : ∀ k, i < k → k < j → lens.getD k 0 ≠ lens.getD i 0) :
    (hcAssign lens).getD j 0 = (hcAssign lens).getD i 0 + 1 := by
  rw [hcAssign_getD h hj (heq ▸ hpos), hcAssign_getD h (Nat.lt_trans hij hj) hpos, heq,
    countP_take_next hij hj rfl hbetween, Nat.add_assoc]

/-- A code stands below the beginning of every longer one (R83). -/
theorem hcAssign_getD_lt_shiftRight {lens : List Nat} (h : ∀ l ∈ lens, l ≤ 15) {i j : Nat} (hi : i < lens.length)
    (hj : j < lens.length) (hpos : 0 < lens.getD i 0) (hlt : lens.getD i 0 < lens.getD j 0) :
    (hcAssign lens).getD i 0 < (hcAssign lens).getD j 0 >>> (lens.getD j 0 - lens.getD i 0) := by
  have hi' := hcAssign_getD_lt h hi hpos
  have hj' : firstCode lens (lens.getD j 0) ≤ (hcAssign lens).getD j 0 := by
    rw [hcAssign_getD h hj (Nat.lt_trans hpos hlt)]
    exact Nat.le_add_right _ _
  rw [Nat.shiftRight_eq_div_pow]
  refine Nat.lt_of_lt_of_le hi' ((Nat.le_div_iff_mul_le (Nat.two_pow_pos _)).mpr ?_)
  rw [Nat.mul_comm]
  exact Nat.le_trans (firstCode_after_shorter lens hlt) hj'

/-- Settles O46: the values, and within the Kraft bound the order of the codes. -/
theorem canonicalPrefixFree : Obligations.CanonicalPrefixFree := by
  intro lens h
  refine ⟨hcAssign_length lens, fun j hj => hcAssign_getD_eq_room h hj, fun hk => ⟨fun i hi => ?_, fun i j hij hj =>
    hcAssign_getD_next h hij hj, fun i j hi hj => hcAssign_getD_lt_shiftRight h hi hj, fun i j hi hj hne =>
    hcAssign_prefixFree h hi hj hne⟩⟩
  rcases Nat.eq_zero_or_pos (lens.getD i 0) with hz | hpos
  · rw [hcAssign_getD_of_zero h hi hz, hz]
    exact Nat.one_pos
  · exact hcAssign_fits h hk hi hpos

end Sys2Proof.Machine
end

section
/-! HC_SELECT's choice, a block without tokens, and the HC operations as instructions (R81, R83, R86 to R91). Settles
O48, O52 and O42. -/

namespace Sys2Proof.Machine

/-! HC_SELECT -/

/-- R86's sum, by symbols. -/
theorem weighted_eq_sum_range {freq lens : List Nat} (h : lens.length = freq.length) :
    weighted freq lens = ((List.range freq.length).map fun s => freq.getD s 0 * lens.getD s 0).sum := by
  refine congrArg List.sum (List.ext_getElem (by simp [h]) fun s hs _ => ?_)
  have hs : s < freq.length ∧ s < lens.length := by simpa using hs
  simp [hs.1, hs.2]

theorem costFixed_eq (freqL freqD : List Nat) :
    costFixed freqL freqD =
      ((List.range freqL.length).map fun s => freqL.getD s 0 * fixLenL s).sum + 5 * freqD.sum := by
  rw [costFixed, weighted_eq_sum_range (by simp)]
  congr 2
  exact List.map_congr_left fun s hs => by simp [List.mem_range.mp hs]

theorem costCustom_eq (freqL freqD : List Nat) :
    costCustom freqL freqD =
      1264 + ((List.range freqL.length).map fun s => freqL.getD s 0 * (hcBuild freqL).getD s 0).sum +
        ((List.range freqD.length).map fun s => freqD.getD s 0 * (hcBuild freqD).getD s 0).sum := by
  rw [costCustom, weighted_eq_sum_range (hcBuild_length _), weighted_eq_sum_range (hcBuild_length _)]

theorem wantsCustom_iff (mode : BitVec 2) (freqL freqD : List Nat) :
    wantsCustom mode freqL freqD = true ↔ mode = 2 ∨ mode = 1 ∧ costCustom freqL freqD < costFixed freqL freqD := by
  simp [wantsCustom]

theorem entry_customTable {n s : Nat} (hs : s < n) (lens : List Nat) :
    entry (customTable n lens) s = ⟨BitVec.ofNat 15 ((hcAssign lens).getD s 0), BitVec.ofNat 4 (lens.getD s 0)⟩ :=
  entry_tabulate _ hs

/-- Settles O48: the two tables HC_SELECT can take, and the costs as sums over the symbols. -/
theorem selectChoosesCheaper : Obligations.SelectChoosesCheaper := by
  intro cfg ses _ fl fd fixed custom
  have hfl : fl.length = 286 := counts_length ses.freqL
  have hfd : fd.length = 30 := counts_length ses.freqD
  have hiff : wantsCustom cfg.tblMode fl fd = true ↔ cfg.tblMode = 2 ∨ cfg.tblMode = 1 ∧ custom < fixed := by
    rw [wantsCustom_iff, costCustom_eq, costFixed_eq, hfl, hfd]
  have h12 : (1 : BitVec 2) ≠ 2 := by decide
  rcases hcSelect_cases cfg ses with ⟨hw, h⟩ | ⟨hw, h⟩
  · rw [h]
    exact ⟨.inr rfl, ⟨fun _ => hiff.mp hw, fun _ => rfl⟩, fun h1 => absurd h1.symm h12,
      fun _ => ⟨fun s hs => entry_customTable hs _, fun s hs => entry_customTable hs _⟩⟩
  · have hn : ¬(cfg.tblMode = 2 ∨ cfg.tblMode = 1 ∧ custom < fixed) := fun hm =>
      Bool.false_ne_true (hw.symm.trans (hiff.mpr hm))
    rw [h]
    exact ⟨.inl rfl, ⟨fun h2 => absurd h2 h12, fun hm => absurd hm hn⟩, fun _ => rfl,
      fun h2 => absurd h2 h12⟩

/-! A block without tokens -/

/-- The counters of a block without tokens: EOB once (R91). -/
def eobCounts : List Nat := (List.range 286).map fun s => if s = 256 then 1 else 0

/-- The custom literal/length table of a block without tokens. -/
def eobTableL : Vector CodeEntry 286 := customTable 286 (hcBuild eobCounts)

/-- The custom distance table of a block without matches. -/
def noDistanceTable : Vector CodeEntry 30 := customTable 30 (hcBuild (List.replicate 30 0))

theorem counts_countEob_of_zero {ses : Session} (h : ses.freqL = Vector.replicate 286 0) :
    counts (countEob ses).freqL = eobCounts := by
  have hf : (countEob ses).freqL = (Vector.replicate 286 0).setIfInBounds 256 1 := by rw [← h]; rfl
  rw [hf]
  decide +kernel

theorem counts_freqD_of_zero {ses : Session} (h : ses.freqD = Vector.replicate 30 0) :
    counts (countEob ses).freqD = List.replicate 30 0 := by
  rw [countEob_freqD, h]
  rfl

/-- In mode AUTO the fixed table is the cheaper one. -/
theorem wantsCustom_eobCounts (mode : BitVec 2) : wantsCustom mode eobCounts (List.replicate 30 0) = (mode == 2) := by
  revert mode
  decide +kernel

theorem hcSelect_without_tokens {cfg : Cfg} {ses : Session} (hL : ses.freqL = Vector.replicate 286 0)
    (hD : ses.freqD = Vector.replicate 30 0) :
    let sel := hcSelect cfg (countEob ses)
    (cfg.tblMode ≠ 2 → sel.1.codeL = fixedCodeL ∧ sel.1.codeD = fixedCodeD ∧ sel.2 = 1) ∧
    (cfg.tblMode = 2 → sel.1.codeL = eobTableL ∧ sel.1.codeD = noDistanceTable ∧ sel.2 = 2) := by
  have hc := hcSelect_cases cfg (countEob ses)
  rw [counts_countEob_of_zero hL, counts_freqD_of_zero hD, wantsCustom_eobCounts] at hc
  rcases hc with ⟨hm, h⟩ | ⟨hm, h⟩
  · rw [beq_iff_eq] at hm
    rw [h]
    exact ⟨fun hn => absurd hm hn, fun _ => ⟨rfl, rfl, rfl⟩⟩
  · rw [beq_eq_false_iff_ne] at hm
    rw [h]
    exact ⟨fun _ => ⟨rfl, rfl, rfl⟩, fun h2 => absurd h2 hm⟩

theorem hcBuild_eobCounts : hcBuild eobCounts = eobCounts := by decide +kernel

theorem hcAssign_eobCounts : hcAssign eobCounts = List.replicate 286 0 := by decide +kernel

theorem eobCounts_getD {s : Nat} (hs : s < 286) : eobCounts.getD s 0 = if s = 256 then 1 else 0 := by
  simp [eobCounts, hs]

/-- EOB alone has a code (R91). -/
theorem entry_eobTableL {s : Nat} (hs : s < 286) : entry eobTableL s = ⟨0, if s = 256 then 1 else 0⟩ := by
  rw [eobTableL, entry_customTable hs, hcBuild_eobCounts, hcAssign_eobCounts, eobCounts_getD hs,
    List.getD_replicate _ hs]
  split <;> rfl

theorem entry_noDistanceTable : ∀ s < 30, entry noDistanceTable s = ⟨0, 0⟩ := by decide +kernel

theorem blockBits_fixed_without_tokens (final : Bool) :
    blockBits fixedCodeL fixedCodeD final 1 [] = [final, true, false] ++ List.replicate 7 false := by
  revert final
  decide +kernel

/-- A custom table is transmitted as its lengths (R57). -/
theorem customTable_lengthBits {n : Nat} {lens : List Nat} (hn : lens.length = n) (h : ∀ l ∈ lens, l ≤ 15) :
    ((customTable n lens).toList.flatMap fun e => intBits 4 e.len.toNat) = lens.flatMap (intBits 4) := by
  conv_rhs => rw [← customTable_lens hn h, List.flatMap_map]

theorem tableBits_without_tokens :
    tableBits eobTableL noDistanceTable 2 =
      (List.range 286).flatMap (fun s => [s == 256, false, false, false]) ++ List.replicate 120 false := by
  have hL : (eobTableL.toList.flatMap fun e => intBits 4 e.len.toNat) =
      (List.range 286).flatMap fun s => [s == 256, false, false, false] := by
    rw [eobTableL, hcBuild_eobCounts, customTable_lengthBits (by decide +kernel) (by decide +kernel)]
    decide +kernel
  have hD : (noDistanceTable.toList.flatMap fun e => intBits 4 e.len.toNat) = List.replicate 120 false := by
    decide +kernel
  rw [tableBits, if_pos rfl, hL, hD]

theorem blockBits_custom_without_tokens (final : Bool) :
    blockBits eobTableL noDistanceTable final 2 [] =
      [final, false, true] ++ ((List.range 286).flatMap (fun s => [s == 256, false, false, false]) ++
        List.replicate 120 false) ++ [false] := by
  rw [blockBits, headerBits_eq, tableBits_without_tokens, entry_eobTableL (s := 256) (by decide)]
  simp only [List.flatMap_nil, List.append_nil]
  rfl

theorem blockBits_custom_without_tokens_length (final : Bool) :
    (blockBits eobTableL noDistanceTable final 2 []).length = 1268 := by
  rw [blockBits, List.length_append, List.length_append, headerBits_length, if_pos rfl,
    entry_eobTableL (s := 256) (by decide)]
  rfl

theorem hcEncode_codes (cfg : Cfg) (final : Bool) (ses : Session) :
    (hcEncode cfg final ses).codeL = (hcSelect cfg (countEob ses)).1.codeL ∧
      (hcEncode cfg final ses).codeD = (hcSelect cfg (countEob ses)).1.codeD := ⟨rfl, rfl⟩

/-- Settles O52: the two blocks without tokens. -/
theorem emptyUnitBits : Obligations.EmptyUnitBits := by
  intro cfg final ses hbp htok hL hD after
  have hbits := (appends_hcEncode cfg final hbp).1
  obtain ⟨hcL, hcD⟩ := hcEncode_codes cfg final ses
  obtain ⟨hfixed, hcustom⟩ := hcSelect_without_tokens (cfg := cfg) hL hD
  rw [htok] at hbits
  refine ⟨fun hm => ?_, fun hm => ?_⟩
  · obtain ⟨h1, h2, h3⟩ := hfixed hm
    rw [h1, h2, h3, blockBits_fixed_without_tokens, ← List.append_assoc] at hbits
    exact hbits
  · obtain ⟨h1, h2, h3⟩ := hcustom hm
    rw [h1, h2, h3] at hbits
    refine ⟨?_, ?_, fun s hs => ?_, fun s hs => ?_⟩
    · rw [blockBits_custom_without_tokens] at hbits
      simpa only [List.append_assoc] using hbits
    · rw [hbits, List.length_append, blockBits_custom_without_tokens_length]
    · rw [hcL, h1]
      exact entry_eobTableL hs
    · rw [hcD, h2]
      exact entry_noDistanceTable s hs

/-! The operations as instructions -/

/-- HC_SELECT writes the two tables alone (R86). -/
theorem hcSelect_eq_withCodes (cfg : Cfg) (ses : Session) :
    (hcSelect cfg ses).1 = { ses with codeL := (hcSelect cfg ses).1.codeL, codeD := (hcSelect cfg ses).1.codeD } := by
  rcases hcSelect_cases cfg ses with ⟨-, h⟩ | ⟨-, h⟩ <;> rw [h]

/-- HC_ENCODE writes the tables and the packer and empties the block's buffers (R90). -/
theorem hcEncode_eq (cfg : Cfg) (final : Bool) (ses : Session) :
    hcEncode cfg final ses =
      { ses with
        codeL := (hcEncode cfg final ses).codeL
        codeD := (hcEncode cfg final ses).codeD
        bp := (hcEncode cfg final ses).bp
        tokbuf := [], freqL := Vector.replicate 286 0, freqD := Vector.replicate 30 0 } := by
  simp only [hcEncode]
  rw [hcSelect_eq_withCodes]
  rfl

theorem exec_hcSelect (s : State) :
    exec .hcSelect s = .next (unitDone (hcSelect s.cfg s.ses).1 (.btype (hcSelect s.cfg s.ses).2) s) := rfl

theorem exec_hcEncode (s : State) :
    exec .hcEncode s = .next (unitDone (hcEncode s.cfg s.unitArgs.final s.ses) .none s) := rfl

/-- Settles O42: five of the operations name what they write, HC_SELECT and HC_ENCODE are the two lemmas above. -/
theorem entropyOperationsComplete : Obligations.EntropyOperationsComplete := by
  intro s
  refine ⟨rfl, rfl, ?_, rfl, rfl, rfl, ?_⟩
  · rw [exec_hcSelect, unitDone]
    conv_lhs => rw [hcSelect_eq_withCodes]
  · rw [exec_hcEncode, unitDone]
    conv_lhs => rw [hcEncode_eq]

end Sys2Proof.Machine
end

section
/-! Unit BP: BP_WRITE_BITS, BP_FLUSH and BP_DRAIN as instructions (R93, R94, R95). Settles O54. -/

namespace Sys2Proof.Machine

/-- BP_WRITE_BITS within `WRITE_MAX` (R93). -/
theorem exec_bpWriteBits_of_le {s : State} (h : s.unitArgs.width ≤ 32) : exec .bpWriteBits s =
    .next (unitDone (withPacker s.ses (bpWrite s.ses.bp s.unitArgs.value.toNat s.unitArgs.width)) .none s) := if_pos h

/-- A width above `WRITE_MAX` is outside the interface (U1). -/
theorem exec_bpWriteBits_of_gt {s : State} (h : 32 < s.unitArgs.width) :
    exec .bpWriteBits s = .refused .widthAbove32 := if_neg (Nat.not_le.mpr h)

theorem exec_bpFlush (s : State) :
    exec .bpFlush s = .next (unitDone (withPacker s.ses (bpFlush s.ses.bp)) .none s) := rfl

theorem bpDrain_of_le {p : BitPacker} {cap : Nat} (h : p.outq.length ≤ cap) :
    bpDrain p cap = some ({ p with outq := [] }, p.outq) := if_neg (Nat.not_lt.mpr h)

theorem bpDrain_of_gt {p : BitPacker} {cap : Nat} (h : cap < p.outq.length) : bpDrain p cap = none := if_pos h

theorem exec_bpDrain_of_some {s : State} {p : BitPacker} {bytes : List Byte}
    (h : bpDrain s.ses.bp s.unitArgs.cap.toNat = some (p, bytes)) :
    exec .bpDrain s = .next (unitDone (withPacker s.ses p) (.drained bytes) s) := by
  change execBpDrain s = _
  rw [execBpDrain, h]

theorem exec_bpDrain_of_none {s : State} (h : bpDrain s.ses.bp s.unitArgs.cap.toNat = none) :
    exec .bpDrain s = .next (unitDone s.ses (.failed .outputCapacity) s) := by
  change execBpDrain s = _
  rw [execBpDrain, h]

/-- Settles O54: the width decides BP_WRITE_BITS, the queue's length against `cap` decides BP_DRAIN, and `unitDone` and
`withPacker` write the result and the packer alone. -/
theorem packerOperations : Obligations.PackerOperations := by
  intro s p a
  refine ⟨fun hwidth => ?_, fun hwidth => ?_, ?_, fun hfits => ?_, fun hshort => ?_⟩
  · exact exec_bpWriteBits_of_le hwidth
  · exact exec_bpWriteBits_of_gt hwidth
  · exact exec_bpFlush s
  · exact exec_bpDrain_of_some (bpDrain_of_le hfits)
  · exact exec_bpDrain_of_none (bpDrain_of_gt hshort)

end Sys2Proof.Machine
end

section
/-! Unit DS: how the host commands NOP, CFG_LEVEL, CFG_SET and CHUNK end (R97, R98, R100 to R107, R114). Settles O17,
O19, O20, O22 and O23. -/

namespace Sys2Proof.Machine

/-! CHUNK on a session, by its branches (R102) -/

section

variable {u : Nat} {cfg : Cfg} {ses : Session} {fin : Bool} {input : List Byte} {cap : Nat}

/-- In the Finished state the command does nothing (R102 step 1). -/
theorem chunkSession_of_finished (hf : ses.finished = true) :
    chunkSession u cfg ses fin input cap = some ⟨ses, 0, []⟩ := if_pos hf

/-- Input without any capacity fails before the work (R102 step 2). -/
theorem chunkSession_of_noCapacity (hf : ses.finished = false) (hzero : input ≠ [] ∧ cap = 0) :
    chunkSession u cfg ses fin input cap = none := by
  simp [chunkSession, hf, hzero]

/-- Output that does not fit fails at the drain (R102 step 7). -/
theorem chunkSession_of_overflow (hf : ses.finished = false)
    (hover : cap < (compressSlice u cfg ses fin input).bp.outq.length) :
    chunkSession u cfg ses fin input cap = none := by
  by_cases hzero : input ≠ [] ∧ cap = 0
  · exact chunkSession_of_noCapacity hf hzero
  · simp [chunkSession, hf, hzero, bpDrain_of_gt hover]

/-- Output that fits is drained and accounted (R102 steps 7 to 9). -/
theorem chunkSession_eq_of_fits (hf : ses.finished = false) (hzero : ¬(input ≠ [] ∧ cap = 0))
    (hfits : (compressSlice u cfg ses fin input).bp.outq.length ≤ cap) :
    let done := compressSlice u cfg ses fin input
    chunkSession u cfg ses fin input cap =
      some ⟨account fin input.length done.bp.outq.length (withPacker done { done.bp with outq := [] }), input.length,
        done.bp.outq⟩ := by
  simp [chunkSession, hf, hzero, bpDrain_of_le hfits]

/-- CHUNK's work leaves the flag and the counters to its step 8, which starts from those before the command. -/
theorem account_compressSlice (hf : ses.finished = false) (consumed written : Nat) (p : BitPacker) :
    account fin consumed written (withPacker (compressSlice u cfg ses fin input) p) =
      { compressSlice u cfg ses fin input with
        bp := p
        bytesProcessed := ses.bytesProcessed + BitVec.ofNat 64 consumed
        bytesOutput := ses.bytesOutput + BitVec.ofNat 64 written
        finished := fin } := by
  have hledger := compressSlice_ledger u cfg ses fin input
  simp only [Session.ledger, Prod.mk.injEq] at hledger
  obtain ⟨hfin, hproc, hout⟩ := hledger
  simp [account, withPacker, finishedAfter, hfin, hproc, hout, hf]

end

/-! CHUNK as an instruction -/

theorem exec_chunk_of_none {s : State} {fin : Bool} (hlen : s.inLen.toNat ≤ s.inPort.length)
    (h : chunkSession 2048 s.cfg s.ses fin (chunkInput s.inLen s) s.outCap.toNat = none) :
    exec (.chunk fin) s = .next (finishFail .outputCapacity (beginCommand s)) := by
  rw [exec_chunk_of_inputReady fin hlen]
  rcases runChunk_cases fin (chunkInput s.inLen s) s.outCap.toNat (beginCommand s) with ⟨-, ht⟩ | ⟨r, hr, -⟩
  · rw [ht]
  · cases h.symm.trans hr

theorem exec_chunk_of_some {s : State} {fin : Bool} {r : ChunkOk} (hlen : s.inLen.toNat ≤ s.inPort.length)
    (h : chunkSession 2048 s.cfg s.ses fin (chunkInput s.inLen s) s.outCap.toNat = some r) :
    exec (.chunk fin) s =
      .next (finishOk r.consumed r.bytes.length r.bytes { beginCommand s with ses := r.ses }) := by
  rw [exec_chunk_of_inputReady fin hlen]
  rcases runChunk_cases fin (chunkInput s.inLen s) s.outCap.toNat (beginCommand s) with ⟨hn, -⟩ | ⟨r', hr', ht⟩
  · cases h.symm.trans hn
  · cases h.symm.trans hr'
    rw [ht]

/-- A CHUNK whose input is there has some, exactly if IN_LEN is not 0. -/
theorem chunkInput_ne_nil_iff {s : State} (hlen : s.inLen.toNat ≤ s.inPort.length) :
    chunkInput s.inLen s ≠ [] ↔ s.inLen ≠ 0 := by
  rw [← List.length_pos_iff, chunkInput_length hlen]
  bv_omega

/-- The check of R102's step 2 on the registers is the one on the session's operands. -/
theorem noCapacity_iff {s : State} (hlen : s.inLen.toNat ≤ s.inPort.length) :
    chunkInput s.inLen s ≠ [] ∧ s.outCap.toNat = 0 ↔ s.inLen ≠ 0 ∧ s.outCap = 0 :=
  and_congr (chunkInput_ne_nil_iff hlen) (BitVec.toNat_eq (y := 0)).symm

/-- Settles O23: steps 4 to 6 are `compressSlice`; its output fits, so CHUNK drains it and accounts for
IN_LEN bytes and those it has put out. -/
theorem chunkOperation : Obligations.ChunkOperation := by
  intro s fin hlen hf hzero out cut done hfits
  have hdone : done = compressSlice 2048 s.cfg s.ses fin (chunkInput s.inLen s) := rfl
  clear_value done
  subst hdone
  have hrun := exec_chunk_of_some hlen (chunkSession_eq_of_fits hf (mt (noCapacity_iff hlen).mp hzero) hfits)
  rw [account_compressSlice hf, chunkInput_length hlen, BitVec.ofNat_toNat] at hrun
  rw [hrun, finishOk, BitVec.ofNat_toNat, BitVec.setWidth_eq]
  rfl

/-- Settles O22, by the branches of CHUNK on a session. -/
theorem chunkTurnedAway : Obligations.ChunkTurnedAway := by
  intro s fin hlen
  refine ⟨fun hf => ?_, fun hf hfails => ?_⟩
  · exact exec_chunk_of_some hlen (chunkSession_of_finished hf)
  · rcases hfails with hzero | hover
    · exact exec_chunk_of_none hlen (chunkSession_of_noCapacity hf ((noCapacity_iff hlen).mpr hzero))
    · exact exec_chunk_of_none hlen (chunkSession_of_overflow hf hover)

/-! The commands that configure -/

/-- Settles O17: the start and the successful end of a command, with zero results. -/
theorem nopResult : Obligations.NopResult := fun _ => rfl

theorem exec_cfgLevel_of_some {s : State} {level : BitVec 4} {cfg : Cfg} (h : preset level = some cfg) :
    exec (.cfgLevel level) s = .next (finishOk 0 0 [] (reconfigure cfg (beginCommand s))) := by
  change execCfgLevel level s = _
  rw [execCfgLevel, h]

theorem exec_cfgLevel_of_none {s : State} {level : BitVec 4} (h : preset level = none) :
    exec (.cfgLevel level) s = .next (finishFail .config (beginCommand s)) := by
  change execCfgLevel level s = _
  rw [execCfgLevel, h]

/-- R100's rows: LEVEL, window size, longest match, chain length, table mode. -/
def presetRows : List (Nat × BitVec 16 × BitVec 9 × BitVec 16 × BitVec 2) :=
  [(0, 0, 258, 0, 0), (1, 4096, 32, 4, 0), (2, 8192, 64, 8, 1), (3, 8192, 128, 16, 1), (4, 16384, 258, 32, 1),
    (5, 32768, 258, 64, 1), (6, 32768, 258, 256, 1), (7, 32768, 258, 512, 1), (8, 32768, 258, 1024, 1),
    (9, 32768, 258, 4096, 1)]

/-- Each of the ten rows is the preset of its level. -/
theorem preset_ofNat_of_mem : ∀ row ∈ presetRows, preset (BitVec.ofNat 4 row.1) =
    some ⟨BitVec.ofNat 4 row.1, row.2.1, row.2.2.1, row.2.2.2.1, row.2.2.2.2⟩ := by decide

theorem preset_eq_some_of_mem {level : BitVec 4} {ws : BitVec 16} {mm : BitVec 9} {mc : BitVec 16} {tm : BitVec 2}
    (h : (level.toNat, ws, mm, mc, tm) ∈ presetRows) : preset level = some ⟨level, ws, mm, mc, tm⟩ := by
  simpa using preset_ofNat_of_mem _ h

theorem preset_eq_none_of_gt {level : BitVec 4} (h : 9 < level.toNat) : preset level = none :=
  (preset_eq_none_iff level).mpr (decide_eq_false (Nat.not_le.mpr h))

/-- Settles O19: the rows of R100 are the presets, and there is none above level 9. -/
theorem cfgLevelResult : Obligations.CfgLevelResult := by
  intro s level
  refine ⟨fun ws mm mc tm hrow => ?_, fun hlevel => ?_⟩
  · exact exec_cfgLevel_of_some (preset_eq_some_of_mem hrow)
  · exact exec_cfgLevel_of_none (preset_eq_none_of_gt hlevel)

theorem exec_cfgSet_of_some {s : State} {psel : BitVec 4} {val : BitVec 16} {cfg : Cfg}
    (h : cfgSetTarget s.cfg psel val = some cfg) :
    exec (.cfgSet psel val) s = .next (finishOk 0 0 [] (reconfigure cfg (beginCommand s))) := by
  change execCfgSet psel val s = _
  rw [execCfgSet, h]

theorem exec_cfgSet_of_none {s : State} {psel : BitVec 4} {val : BitVec 16} (h : cfgSetTarget s.cfg psel val = none) :
    exec (.cfgSet psel val) s = .next (finishFail .config (beginCommand s)) := by
  change execCfgSet psel val s = _
  rw [execCfgSet, h]

/-- A parameter whose value is checked is set exactly if the check passes. -/
theorem exec_cfgSet_checked {s : State} {psel : BitVec 4} {val : BitVec 16} {cfg : Cfg} {bad good : Prop}
    [Decidable bad] [Decidable good] (h : cfgSetTarget s.cfg psel val = if bad then none else some cfg)
    (hbad : bad ↔ ¬good) :
    exec (.cfgSet psel val) s =
      if good then .next (finishOk 0 0 [] (reconfigure cfg (beginCommand s)))
      else .next (finishFail .config (beginCommand s)) := by
  split
  · next hgood => exact exec_cfgSet_of_some (h.trans (if_neg fun hb => hbad.mp hb hgood))
  · next hgood => exact exec_cfgSet_of_none (h.trans (if_pos (hbad.mpr hgood)))

/-- PSEL 4..15 names no parameter (R101). -/
theorem cfgSetTarget_of_ge {psel : BitVec 4} (h : 4 ≤ psel.toNat) (cfg : Cfg) (val : BitVec 16) :
    cfgSetTarget cfg psel val = none := by
  obtain ⟨k, hk⟩ := Nat.exists_eq_add_of_le' h
  simp only [cfgSetTarget, hk]

/-- Settles O20, by the parameter that PSEL names. -/
theorem cfgSetResult : Obligations.CfgSetResult := by
  intro s psel val accepted refused
  by_cases h0 : psel = 0
  · rw [if_pos h0, h0]
    exact exec_cfgSet_checked rfl Nat.not_le.symm
  by_cases h1 : psel = 1
  · rw [if_neg h0, if_pos h1, h1]
    exact exec_cfgSet_checked rfl (by omega)
  by_cases h2 : psel = 2
  · rw [if_neg h0, if_neg h1, if_pos h2, h2]
    exact exec_cfgSet_of_some rfl
  by_cases h3 : psel = 3
  · rw [if_neg h0, if_neg h1, if_neg h2, if_pos h3, h3]
    exact exec_cfgSet_checked rfl Nat.not_le.symm
  · rw [if_neg h0, if_neg h1, if_neg h2, if_neg h3]
    exact exec_cfgSet_of_none (cfgSetTarget_of_ge (by bv_omega) s.cfg val)

end Sys2Proof.Machine
end

section
/-! How a host command fails (R115): by the one failing end `finishFail`, whether it runs at its CMD write or after
waiting for its input. Settles O26. -/

namespace Sys2Proof.Machine

/-- A CHUNK that runs and fails leaves the state before it at the failing end (R106). -/
theorem runChunk_eq_finishFail {fin : Bool} {input : List Byte} {cap : Nat} {s : State}
    (hcode : (runChunk fin input cap s).code ≠ .ok) :
    runChunk fin input cap s = finishFail (runChunk fin input cap s).code s := by
  rcases runChunk_cases fin input cap s with ⟨-, h⟩ | ⟨r, -, h⟩
  · rw [h, finishFail_code]
  · rw [h, finishOk_code] at hcode
    exact absurd rfl hcode

/-- Emptying the output port at the start of a command leaves no trace in its failing end. -/
theorem finishFail_beginCommand (c : StatusCode) (s : State) : finishFail c (beginCommand s) = finishFail c s := rfl

/-- A host command that ends with an error leaves the state before it at the failing end. -/
theorem exec_hostCommand_eq_finishFail {i : Instr} (hu : i.isUnitOp = false) {s t : State} (h : exec i s = .next t)
    (hidle : t.running = none) (hcode : t.code ≠ .ok) : t = finishFail t.code s := by
  cases i <;> simp only [Instr.isUnitOp, Bool.true_eq_false] at hu
  case nop =>
    cases (nopResult s).symm.trans h
    exact absurd rfl hcode
  case reset =>
    cases (resetCommandResult s).symm.trans h
    exact absurd rfl hcode
  case cfgLevel level =>
    cases hp : preset level with
    | none => cases (exec_cfgLevel_of_none hp).symm.trans h; rfl
    | some cfg => cases (exec_cfgLevel_of_some hp).symm.trans h; exact absurd rfl hcode
  case cfgSet psel val =>
    cases hp : cfgSetTarget s.cfg psel val with
    | none => cases (exec_cfgSet_of_none hp).symm.trans h; rfl
    | some cfg => cases (exec_cfgSet_of_some hp).symm.trans h; exact absurd rfl hcode
  case chunk fin =>
    rcases execChunk_cases fin s with ⟨-, hr⟩ | ⟨-, hr⟩ <;> cases hr.symm.trans h
    · exact (runChunk_eq_finishFail hcode).trans (finishFail_beginCommand _ s)
    · cases hidle

/-- A word taken from CMD that ends with an error, legal or not, leaves the state before it at the failing end. -/
theorem runCommandWord_eq_finishFail {w : Word} {s t : State} (h : runCommandWord w s = .next t)
    (hidle : t.running = none) (hcode : t.code ≠ .ok) : t = finishFail t.code s := by
  rcases runCommandWord_cases w s with ⟨i, hi, hr⟩ | ⟨e, -, hr⟩
  · exact exec_hostCommand_eq_finishFail (hostDecode_isHost hi).2 (hr.symm.trans h) hidle hcode
  · cases hr.symm.trans h
    exact finishFail_beginCommand .illegalCmd s

/-- Settles O26: the failing end, from the state whose CMD write the block has taken, and from the waiting state. -/
theorem failedCommandChangesNothing : Obligations.FailedCommandChangesNothing := by
  intro s t hu h hidle hcode
  refine ⟨fun w rest htakes => ?_, fun r hready => ?_⟩
  · rw [step_command htakes] at h
    exact runCommandWord_eq_finishFail h hidle hcode
  · obtain ⟨hrun, hin⟩ := readyChunk_eq_some.mp hready
    cases (step_readyChunk hu hrun (of_decide_eq_true hin)).symm.trans h
    exact runChunk_eq_finishFail hcode

end Sys2Proof.Machine
end

section
/-! The output bound of a CHUNK (R126): what a token and a block cost at most with the table HC_SELECT takes, how many
units a slice of tokens fills, and how many tokens it has. Settles O25. -/

namespace Sys2Proof.Machine

/-! The rates of R126 -/

/-- The factors of R126's formulas: the bits of a buffered token, of a new byte, and of a block beside its tokens. -/
structure Rates where
  token : Nat
  byte : Nat
  block : Nat

/-- R126's factors for a table mode. -/
def outputRates (mode : BitVec 2) : Rates := if mode = 2 then ⟨48, 16, 1282⟩ else ⟨31, 11, 10⟩

theorem outputRates_custom : outputRates 2 = ⟨48, 16, 1282⟩ := rfl

theorem outputRates_of_ne {mode : BitVec 2} (h : mode ≠ 2) : outputRates mode = ⟨31, 11, 10⟩ := if_neg h

/-- What R126 allows a token, whether it is buffered before the command or new: so that `Rates.token` and `Rates.byte`
both bound it. -/
def Rates.price (r : Rates) (t : Token) : Nat := min r.token (r.byte * tokenCovers t)

/-- What R126 allows the tokens of a list. -/
def Rates.prices (r : Rates) (ts : List Token) : Nat := (ts.map r.price).sum

@[simp] theorem Rates.prices_nil (r : Rates) : r.prices [] = 0 := rfl

@[simp] theorem Rates.prices_cons (r : Rates) (t : Token) (ts : List Token) :
    r.prices (t :: ts) = r.price t + r.prices ts := rfl

@[simp] theorem Rates.prices_append (r : Rates) (ts us : List Token) :
    r.prices (ts ++ us) = r.prices ts + r.prices us := by
  simp [Rates.prices]

theorem Rates.prices_le_token_mul (r : Rates) (ts : List Token) : r.prices ts ≤ r.token * ts.length := by
  have h := List.sum_le_card_nsmul (ts.map r.price) r.token (by simp [Rates.price])
  rwa [List.length_map, smul_eq_mul, Nat.mul_comm] at h

theorem Rates.prices_le_byte_mul (r : Rates) (ts : List Token) : r.prices ts ≤ r.byte * (ts.map tokenCovers).sum := by
  rw [← List.sum_map_mul_left]
  exact List.sum_le_sum fun t _ => Nat.min_le_right _ _

/-! The bits of a block -/

/-- The extra bits of a token (R52, R53). -/
def extraBits : Token → Nat
  | .lit _ => 0
  | .backref l3 d1 =>
    lenExtra.getD (lengthClass (lengthOf l3)) 0 + distExtra.getD (distanceClass (distanceOf d1)) 0

/-- The bits of a token's codes, with these code lengths. -/
def codeBits (lenL lenD : Nat → Nat) (t : Token) : Nat := lenL (symL t) + (symD t).elim 0 lenD

/-- The bits of a block's codes, its end included: what R86's costs count. -/
def bodyBits (lenL lenD : Nat → Nat) (ts : List Token) : Nat := (ts.map (codeBits lenL lenD)).sum + lenL 256

/-- The length of a symbol's code in a table. -/
def codeLen {n : Nat} (table : Vector CodeEntry n) (s : Nat) : Nat := (entry table s).len.toNat

theorem codeLen_le_15 {n : Nat} (table : Vector CodeEntry n) (s : Nat) : codeLen table s ≤ 15 :=
  Nat.le_of_lt_succ (entry table s).len.isLt

theorem CodeEntry.bits_length (e : CodeEntry) : e.bits.length = e.len.toNat := by simp [CodeEntry.bits]

theorem tokenBits_length (codeL : Vector CodeEntry 286) (codeD : Vector CodeEntry 30) (t : Token) :
    (tokenBits codeL codeD t).length = codeBits (codeLen codeL) (codeLen codeD) t + extraBits t := by
  cases t with
  | lit b => exact CodeEntry.bits_length _
  | backref l3 d1 =>
    simp only [tokenBits, List.length_append, CodeEntry.bits_length, intBits_length, codeBits, extraBits, codeLen, symL,
      symD, Option.elim]
    omega

theorem blockBits_length (codeL : Vector CodeEntry 286) (codeD : Vector CodeEntry 30) (final : Bool) (btype : BitVec 2)
    (ts : List Token) :
    (blockBits codeL codeD final btype ts).length =
      (if btype = 2 then 1267 else 3) + bodyBits (codeLen codeL) (codeLen codeD) ts + (ts.map extraBits).sum := by
  simp only [blockBits, List.length_append, headerBits_length, List.length_flatMap, tokenBits_length, List.sum_map_add,
    CodeEntry.bits_length, bodyBits, codeLen]
  omega

theorem bodyBits_mono {lenL lenL' lenD lenD' : Nat → Nat} (hL : ∀ s < 286, lenL s ≤ lenL' s)
    (hD : ∀ j < 30, lenD j ≤ lenD' j) (ts : List Token) : bodyBits lenL lenD ts ≤ bodyBits lenL' lenD' ts := by
  refine Nat.add_le_add (List.sum_le_sum fun t _ => Nat.add_le_add (hL _ (symL_lt t)) ?_) (hL 256 (by decide))
  cases hd : symD t with
  | none => exact Nat.le_refl 0
  | some j => exact hD j (symD_lt hd)

/-- If no token costs more than its price, the codes and extra bits of a block cost no more than the prices and the
code of its end. -/
theorem bodyBits_add_extraBits_le {r : Rates} {lenL lenD : Nat → Nat}
    (h : ∀ t, codeBits lenL lenD t + extraBits t ≤ r.price t) (ts : List Token) :
    bodyBits lenL lenD ts + (ts.map extraBits).sum ≤ r.prices ts + lenL 256 := by
  have hsum := List.sum_le_sum fun t (_ : t ∈ ts) => h t
  rw [List.sum_map_add] at hsum
  simp only [bodyBits, Rates.prices]
  omega

/-! The price of a token -/

theorem distExtra_le (d1 : BitVec 15) : distExtra.getD (distanceClass (distanceOf d1)) 0 ≤ 13 := by
  have hrows : ∀ j < 30, distExtra.getD j 0 ≤ 13 := by decide
  exact hrows _ (distanceClass_spec d1).1

theorem lenExtra_le (l3 : BitVec 8) : lenExtra.getD (lengthClass (lengthOf l3)) 0 ≤ 5 := by
  have hrows : ∀ i < 29, lenExtra.getD i 0 ≤ 5 := by decide
  exact hrows _ (lengthClass_spec l3).1

theorem fixLenL_add_lenExtra_le (l3 : BitVec 8) :
    fixLenL (257 + lengthClass (lengthOf l3)) + lenExtra.getD (lengthClass (lengthOf l3)) 0 ≤ 13 := by
  have hrows : ∀ i < 29, fixLenL (257 + i) + lenExtra.getD i 0 ≤ 13 := by decide
  exact hrows _ (lengthClass_spec l3).1

/-- With codes of at most 15 bits a literal costs 15 bits and a match 48 (R126). -/
theorem codeBits_le_price_custom {lenL lenD : Nat → Nat} (hL : ∀ s, lenL s ≤ 15) (hD : ∀ j, lenD j ≤ 15) (t : Token) :
    codeBits lenL lenD t + extraBits t ≤ (outputRates 2).price t := by
  have hsym := hL (symL t)
  cases t with
  | lit b =>
    simp only [outputRates_custom, Rates.price, tokenCovers, codeBits, extraBits, symD, Option.elim]
    omega
  | backref l3 d1 =>
    have h3 := (lengthOf_bounds l3).1
    have hdist := hD (distanceClass (distanceOf d1))
    have hlenExtra := lenExtra_le l3
    have hdistExtra := distExtra_le d1
    simp only [outputRates_custom, Rates.price, tokenCovers, codeBits, extraBits, symD, Option.elim]
    omega

/-- With the fixed table a literal costs 9 bits and a match 31 (R126). -/
theorem codeBits_le_price_fixed {mode : BitVec 2} (hmode : mode ≠ 2) (t : Token) :
    codeBits fixLenL (fun _ => 5) t + extraBits t ≤ (outputRates mode).price t := by
  rw [outputRates_of_ne hmode]
  cases t with
  | lit b =>
    have hlit : fixLenL b.toNat ≤ 9 := by unfold fixLenL; split_ifs <;> decide
    simp only [Rates.price, tokenCovers, codeBits, extraBits, symL, symD, Option.elim]
    omega
  | backref l3 d1 =>
    have h3 := (lengthOf_bounds l3).1
    have hlen := fixLenL_add_lenExtra_le l3
    have hdistExtra := distExtra_le d1
    simp only [Rates.price, tokenCovers, codeBits, extraBits, symL, symD, Option.elim]
    omega

/-! R86's costs are the bits of a block's codes -/

/-- A sum over the symbols, each as often as it occurs, is a sum over the tokens. -/
theorem sum_countP_mul {f : Token → Option Nat} {n : Nat} (hf : ∀ t s, f t = some s → s < n) (g : Nat → Nat)
    (ts : List Token) :
    ∑ s ∈ Finset.range n, ts.countP (fun t => f t == some s) * g s = (ts.map fun t => (f t).elim 0 g).sum := by
  induction ts with
  | nil => simp
  | cons t ts ih =>
    have ht : ∑ s ∈ Finset.range n, (if (f t == some s) = true then 1 else 0) * g s = (f t).elim 0 g := by
      cases hs : f t with
      | none => simp
      | some a => simp [ite_mul, hf t a hs]
    simp only [List.countP_cons, Nat.add_mul, Finset.sum_add_distrib, List.map_cons, List.sum_cons, ih, ht]
    exact Nat.add_comm _ _

theorem counts_countEob_getD {ses : Session} (h : ses.counted) {s : Nat} (hs : s < 286) :
    (counts (countEob ses).freqL).getD s 0 =
      ses.tokbuf.countP (fun t => some (symL t) == some s) + if s = 256 then 1 else 0 := by
  rw [counts_getD, countEob_freqL_getD ses hs]
  split
  · next heob =>
    subst heob
    have hnone : ses.tokbuf.countP (fun t => some (symL t) == some 256) = 0 :=
      List.countP_eq_zero.mpr fun t _ => by simpa using symL_ne_eob t
    rw [hnone]
    rfl
  · simpa using h.1 s hs

theorem sum_map_range (f : Nat → Nat) (n : Nat) : ((List.range n).map f).sum = ∑ s ∈ Finset.range n, f s := rfl

theorem sum_counts_countEob_mul {ses : Session} (h : ses.counted) (lenL : Nat → Nat) :
    ((List.range 286).map fun s => (counts (countEob ses).freqL).getD s 0 * lenL s).sum =
      (ses.tokbuf.map fun t => lenL (symL t)).sum + lenL 256 := by
  have hsym : ∀ t s, some (symL t) = some s → s < 286 := fun t s hs => Option.some.inj hs ▸ symL_lt t
  calc _ = ∑ s ∈ Finset.range 286, (ses.tokbuf.countP (fun t => some (symL t) == some s) * lenL s +
        if s = 256 then lenL s else 0) := by
          rw [sum_map_range]
          refine Finset.sum_congr rfl fun s hs => ?_
          rw [counts_countEob_getD h (Finset.mem_range.mp hs), Nat.add_mul, ite_mul, Nat.one_mul, Nat.zero_mul]
    _ = (ses.tokbuf.map fun t => (some (symL t)).elim 0 lenL).sum + lenL 256 := by
          rw [Finset.sum_add_distrib, sum_countP_mul hsym, Finset.sum_ite_eq' _ 256,
            if_pos (Finset.mem_range.mpr (by decide))]

theorem sum_counts_freqD_mul {ses : Session} (h : ses.counted) (lenD : Nat → Nat) :
    ((List.range 30).map fun j => (counts ses.freqD).getD j 0 * lenD j).sum =
      (ses.tokbuf.map fun t => (symD t).elim 0 lenD).sum := by
  rw [← sum_countP_mul fun t j => symD_lt, sum_map_range]
  refine Finset.sum_congr rfl fun j hj => ?_
  rw [counts_getD, h.2 j (Finset.mem_range.mp hj)]

/-- With the counters of a block, a sum of code lengths by symbols is the bits of the block's codes (R86). -/
theorem sum_counts_eq_bodyBits {ses : Session} (h : ses.counted) (lenL lenD : Nat → Nat) :
    ((List.range 286).map fun s => (counts (countEob ses).freqL).getD s 0 * lenL s).sum +
      ((List.range 30).map fun j => (counts ses.freqD).getD j 0 * lenD j).sum = bodyBits lenL lenD ses.tokbuf := by
  rw [sum_counts_countEob_mul h, sum_counts_freqD_mul h, bodyBits, Nat.add_right_comm, ← List.sum_map_add]
  rfl

theorem costFixed_eq_bodyBits {ses : Session} (h : ses.counted) :
    costFixed (counts (countEob ses).freqL) (counts ses.freqD) = bodyBits fixLenL (fun _ => 5) ses.tokbuf := by
  rw [costFixed_eq, counts_length, ← sum_counts_eq_bodyBits h, List.sum_map_mul_right, Nat.mul_comm 5]
  conv_lhs => rw [eq_map_getD_range (counts ses.freqD), counts_length]

theorem costCustom_eq_bodyBits {ses : Session} (h : ses.counted) :
    costCustom (counts (countEob ses).freqL) (counts ses.freqD) =
      1264 + bodyBits (fun s => (hcBuild (counts (countEob ses).freqL)).getD s 0)
        (fun j => (hcBuild (counts ses.freqD)).getD j 0) ses.tokbuf := by
  rw [costCustom_eq, counts_length, counts_length, ← sum_counts_eq_bodyBits h, Nat.add_assoc]

/-! The price of a block -/

theorem codeLen_customTable_le {n s : Nat} (hs : s < n) (lens : List Nat) :
    codeLen (customTable n lens) s ≤ lens.getD s 0 := by
  rw [codeLen, entry_customTable hs]
  exact Nat.mod_le _ _

/-- With any table a block costs no more than mode CUSTOM's rates allow. -/
theorem blockBits_length_le_custom (codeL : Vector CodeEntry 286) (codeD : Vector CodeEntry 30) (final : Bool)
    (btype : BitVec 2) (ts : List Token) :
    (blockBits codeL codeD final btype ts).length ≤ (outputRates 2).block + (outputRates 2).prices ts := by
  have hbody := bodyBits_add_extraBits_le (codeBits_le_price_custom (codeLen_le_15 codeL) (codeLen_le_15 codeD)) ts
  have heob := codeLen_le_15 codeL 256
  have hblock : (outputRates 2).block = 1282 := rfl
  rw [blockBits_length, hblock]
  split <;> omega

/-- In another mode than CUSTOM the block costs no more than with the fixed table (R86). -/
theorem blockBits_length_le_costFixed {cfg : Cfg} (hmode : cfg.tblMode ≠ 2) {ses : Session} (h : ses.counted)
    (final : Bool) :
    let sel := hcSelect cfg (countEob ses)
    (blockBits sel.1.codeL sel.1.codeD final sel.2 ses.tokbuf).length ≤
      3 + bodyBits fixLenL (fun _ => 5) ses.tokbuf + (ses.tokbuf.map extraBits).sum := by
  rcases hcSelect_cases cfg (countEob ses) with ⟨hw, hs⟩ | ⟨-, hs⟩
  · have hcheaper := ((wantsCustom_iff _ _ _).mp hw).resolve_left hmode |>.2
    have hfixed := costFixed_eq_bodyBits h
    have hcustom := costCustom_eq_bodyBits h
    have hbody := bodyBits_mono (fun s hs => codeLen_customTable_le hs (hcBuild (counts (countEob ses).freqL)))
      (fun j hj => codeLen_customTable_le hj (hcBuild (counts ses.freqD))) ses.tokbuf
    rw [countEob_freqD] at hs hcheaper
    simp only [hs, blockBits_length, if_true]
    omega
  · have hbody := bodyBits_mono (fun s hs => Nat.le_of_eq (entry_fixedCodeL hs).2)
      (fun j hj => Nat.le_of_eq (entry_fixedCodeD hj).2) ses.tokbuf
    simp only [hs, blockBits_length]
    exact Nat.add_le_add_right (Nat.add_le_add_left hbody 3) _

/-- HC_ENCODE writes no more than R126 allows the block. -/
theorem hcEncode_bits_length_le (cfg : Cfg) (final : Bool) {ses : Session} (hbp : ses.bp.ok) (h : ses.counted) :
    (hcEncode cfg final ses).bp.bits.length ≤
      ses.bp.bits.length + (outputRates cfg.tblMode).block + (outputRates cfg.tblMode).prices ses.tokbuf := by
  rw [(appends_hcEncode cfg final hbp).1, List.length_append, Nat.add_assoc]
  refine Nat.add_le_add_left ?_ _
  by_cases hmode : cfg.tblMode = 2
  · rw [hmode]
    exact blockBits_length_le_custom _ _ _ _ _
  · have hcost := blockBits_length_le_costFixed hmode h final
    have hbody := bodyBits_add_extraBits_le (codeBits_le_price_fixed hmode) ses.tokbuf
    have heob : fixLenL 256 = 7 := rfl
    have hblock : (outputRates cfg.tblMode).block = 10 := by rw [outputRates_of_ne hmode]
    omega

/-! The price of a slice -/

/-- Taking a token fills a unit or none, and costs no more than R126 allows the token and that block (R104). -/
theorem takeToken_bits_length_le {u : Nat} (hu : u ≤ 4095) {cfg : Cfg} {ses : Session} (h : ses.Buffered u cfg)
    (tok : Token) :
    let r := outputRates cfg.tblMode
    let after := takeToken u cfg ses tok
    ∃ blocks, u * blocks + after.tokbuf.length = ses.tokbuf.length + 1 ∧
      after.bp.bits.length + r.prices after.tokbuf ≤
        ses.bp.bits.length + r.prices ses.tokbuf + r.price tok + r.block * blocks := by
  have hbuf : (pushToken ses tok).tokbuf = ses.tokbuf ++ [tok] := rfl
  have hbp : (pushToken ses tok).bp = ses.bp := rfl
  rw [takeToken_eq]
  split
  · next hfull =>
    have hblock := hcEncode_bits_length_le cfg false (ses := pushToken ses tok) h.packer
      (pushToken_counted h.counted (Nat.lt_of_lt_of_le h.few hu) tok)
    simp only [hbuf, hbp, Rates.prices_append, Rates.prices_cons, Rates.prices_nil, List.length_append,
      List.length_singleton] at hblock hfull
    refine ⟨1, ?_, ?_⟩
    · simp [hfull]
    · simp only [hcEncode_tokbuf, Rates.prices_nil]
      omega
  · refine ⟨0, ?_, ?_⟩
    · simp [hbuf]
    · simp only [hbuf, hbp, Rates.prices_append, Rates.prices_cons, Rates.prices_nil]
      omega

/-- Taking tokens fills a number of units, and costs no more than R126 allows the tokens and these blocks (R104). -/
theorem foldl_takeToken_bits_length_le {u : Nat} (hu : u ≤ 4095) {cfg : Cfg} {ts : List Token}
    (hts : ∀ tok ∈ ts, Token.legal cfg tok = true) {ses : Session} (h : ses.Buffered u cfg) :
    let r := outputRates cfg.tblMode
    let after := ts.foldl (takeToken u cfg) ses
    ∃ blocks, u * blocks + after.tokbuf.length = ses.tokbuf.length + ts.length ∧
      after.bp.bits.length + r.prices after.tokbuf ≤
        ses.bp.bits.length + r.prices ses.tokbuf + r.prices ts + r.block * blocks := by
  induction ts generalizing ses with
  | nil => exact ⟨0, by simp, by simp⟩
  | cons t ts ih =>
    obtain ⟨ht, hts⟩ := List.forall_mem_cons.mp hts
    obtain ⟨first, hcount, hbits⟩ := takeToken_bits_length_le hu h t
    obtain ⟨others, hcounts, hbitss⟩ := ih hts (h.takeToken hu ht)
    refine ⟨first + others, ?_, ?_⟩
    · rw [List.foldl_cons, List.length_cons, Nat.mul_add]
      omega
    · rw [List.foldl_cons, Rates.prices_cons, Nat.mul_add]
      omega

theorem tokenCovers_pos (t : Token) : 1 ≤ tokenCovers t := by
  cases t with
  | lit b => exact Nat.le_refl 1
  | backref l3 d1 => exact Nat.le_trans (by decide) (lengthOf_bounds l3).1

theorem length_le_sum_tokenCovers (ts : List Token) : ts.length ≤ (ts.map tokenCovers).sum := by
  simpa using List.length_le_sum_of_one_le (ts.map tokenCovers) (by simp [tokenCovers_pos])

/-- MF_ENCODE's tokens cover no more than the bytes it is given (R72). -/
theorem mfEncode_covers_le {cfg : Cfg} (hcfg : cfg.legal) (win pend input : List Byte) (finish : Bool) :
    ((mfEncode cfg win pend input finish).tokens.map tokenCovers).sum ≤ pend.length + input.length := by
  have hlen : (win ++ pend ++ input).length = win.length + (pend.length + input.length) := by simp
  have hend := mfLoop_cursor_le_end cfg finish (win ++ pend ++ input)
    (fuel := (win ++ pend ++ input).length - win.length) (show win.length ≤ (win ++ pend ++ input).length by omega)
  rw [mfLoop_cursor_eq hcfg] at hend
  simp only [mfEncode]
  omega

/-- R126's bound, in bits, for a slice: from the session before it and the bytes it is given, with `last` blocks beside
those of full units. -/
def bitBound (u : Nat) (mode : BitVec 2) (ses : Session) (n last : Nat) : Nat :=
  ses.bp.bits.length + (outputRates mode).token * ses.tokbuf.length +
    (outputRates mode).byte * (ses.pend.length + n) +
    (outputRates mode).block * ((ses.tokbuf.length + ses.pend.length + n) / u + last)

/-- A slice's tokens cost no more than R126 allows, those still buffered included. -/
theorem codeSlice_bits_length_le {u : Nat} (hu : u ≤ 4095) {cfg : Cfg} (hcfg : cfg.legal) {ses : Session}
    (h : ses.Buffered u cfg) (fin : Bool) (input : List Byte) :
    (codeSlice u cfg ses fin input).bp.bits.length +
        (outputRates cfg.tblMode).prices (codeSlice u cfg ses fin input).tokbuf ≤
      bitBound u cfg.tblMode ses input.length 0 := by
  have hstart : (mfUpdate ses (mfEncode cfg ses.win ses.pend input fin)).Buffered u cfg :=
    ⟨h.packer, h.counted, h.few, h.legal⟩
  obtain ⟨blocks, hcount, hbits⟩ := foldl_takeToken_bits_length_le hu
    (ts := (mfEncode cfg ses.win ses.pend input fin).tokens) (mfLoop_legal hcfg fin _ _ _ _) hstart
  have hcovers := mfEncode_covers_le hcfg ses.win ses.pend input fin
  have hfew := Nat.le_trans (length_le_sum_tokenCovers _) hcovers
  have hblocks : blocks ≤ (ses.tokbuf.length + ses.pend.length + input.length) / u := by
    refine (Nat.le_div_iff_mul_le (Nat.zero_lt_of_lt h.few)).mpr ?_
    rw [Nat.mul_comm]
    simp only [mfUpdate_tokbuf] at hcount
    omega
  have hbuffered := (outputRates cfg.tblMode).prices_le_token_mul ses.tokbuf
  have hnew := Nat.le_trans ((outputRates cfg.tblMode).prices_le_byte_mul _) (Nat.mul_le_mul_left _ hcovers)
  have hunits := Nat.mul_le_mul_left (outputRates cfg.tblMode).block hblocks
  exact Nat.le_trans hbits (Nat.add_le_add (Nat.add_le_add (Nat.add_le_add_left hbuffered _) hnew) hunits)

theorem BitPacker.bits_length (p : BitPacker) : p.bits.length = 8 * p.outq.length + p.nbits := by
  rw [BitPacker.bits_eq, List.length_append, streamBits_length, intBits_length]

/-- A slice puts out no more bytes than R126 allows. -/
theorem compressSlice_outq_length_le {u : Nat} (hu : u ≤ 4095) {cfg : Cfg} (hcfg : cfg.legal) {ses : Session}
    (h : ses.Buffered u cfg) (fin : Bool) (input : List Byte) :
    (compressSlice u cfg ses fin input).bp.outq.length ≤
      bitBound u cfg.tblMode ses input.length (if fin = true then 1 else 0) / 8 + 1 := by
  have hslice := codeSlice_bits_length_le hu hcfg h fin input
  rw [compressSlice_eq]
  cases fin with
  | false =>
    rw [BitPacker.bits_length] at hslice
    simp only [Bool.false_eq_true, if_false]
    omega
  | true =>
    have hcoded := h.codeSlice hu hcfg true input
    have hblock := hcEncode_bits_length_le cfg true hcoded.packer hcoded.counted
    have hflush : (finishStream cfg (codeSlice u cfg ses true input)).bp.outq.length =
        (hcEncode cfg true (codeSlice u cfg ses true input)).bp.outq.length + 1 := by simp [finishStream, bpFlush]
    rw [BitPacker.bits_length] at hblock
    simp only [if_true, hflush, bitBound, Nat.mul_add _ (_ / u), Nat.mul_zero, Nat.mul_one] at hslice hblock ⊢
    omega

/-- R126's formulas are the bound of a session with nothing queued, at the unit's 2048 tokens. -/
theorem bitBound_eq (mode : BitVec 2) {ses : Session} (hq : ses.bp.outq = []) (n last : Nat) :
    bitBound 2048 mode ses n last =
      if mode = 2 then
        ses.bp.nbits + 48 * ses.tokbuf.length + 16 * (ses.pend.length + n) +
          1282 * ((ses.tokbuf.length + ses.pend.length + n) / 2048 + last)
      else
        ses.bp.nbits + 31 * ses.tokbuf.length + 11 * (ses.pend.length + n) +
          10 * ((ses.tokbuf.length + ses.pend.length + n) / 2048 + last) := by
  rw [bitBound, BitPacker.bits_length, hq, List.length_nil, Nat.mul_zero, Nat.zero_add, outputRates]
  split <;> rfl

/-- Settles O25: the bytes a slice puts out fit R126's bound, so CHUNK drains them. -/
theorem chunkFitsBound : Obligations.ChunkFitsBound := by
  intro s fin hgood hlen hf t0 p0 n blocks bits hcap
  obtain ⟨hcfg, ⟨-, -, hfew, hlegal, hcounted, hbp, hq, -⟩, -, -⟩ := hgood
  have hbytes := compressSlice_outq_length_le (by decide) hcfg ⟨hbp, hcounted, hfew, hlegal⟩ fin
    (chunkInput s.inLen s)
  rw [chunkInput_length hlen, Config.unitTokens, bitBound_eq _ hq] at hbytes
  have hfits := Nat.le_trans hbytes hcap
  have hzero : ¬(chunkInput s.inLen s ≠ [] ∧ s.outCap.toNat = 0) := fun h => by omega
  refine ⟨_, exec_chunk_of_some hlen (chunkSession_eq_of_fits hf hzero hfits), rfl, ?_⟩
  simp [chunkInput_length hlen]

end Sys2Proof.Machine
end
